-- ==== Sys2Proof/Word.lean ====
section
/-! DEFINITION. The plainest data: bytes (00_scope 6.1), time (00_scope R13: a natural number of ticks, unbounded, so `Nat`
wherever a rule says `Time`), the eight lanes of the axes and the pair of
the switches (00_scope R10: NAXES = 8, NSW = 2). -/

namespace Sys2Proof

/-- A byte: 8 bits, bit 0 the least significant (00_scope 6.1). -/
abbrev Byte := BitVec 8

/-- Eight like things, one per axis, indexed `0..7` (00_scope R10). -/
structure Lanes (α : Type) where
  a0 : α
  a1 : α
  a2 : α
  a3 : α
  a4 : α
  a5 : α
  a6 : α
  a7 : α
  deriving DecidableEq, Repr, Inhabited

/-- Two like things, one per switch: index 0 is switch-1, index 1 is switch-2 (10_state R21, R29). -/
structure Pair (α : Type) where
  p0 : α
  p1 : α
  deriving DecidableEq, Repr, Inhabited

def Lanes.get {α : Type} (v : Lanes α) (k : Fin 8) : α :=
  match k with
  | 0 => v.a0
  | 1 => v.a1
  | 2 => v.a2
  | 3 => v.a3
  | 4 => v.a4
  | 5 => v.a5
  | 6 => v.a6
  | 7 => v.a7

def Lanes.set {α : Type} (v : Lanes α) (k : Fin 8) (x : α) : Lanes α :=
  match k with
  | 0 => { v with a0 := x }
  | 1 => { v with a1 := x }
  | 2 => { v with a2 := x }
  | 3 => { v with a3 := x }
  | 4 => { v with a4 := x }
  | 5 => { v with a5 := x }
  | 6 => { v with a6 := x }
  | 7 => { v with a7 := x }

/-- The lanes whose lane `k` is `f k`. -/
def Lanes.ofFn {α : Type} (f : Fin 8 → α) : Lanes α :=
  ⟨f 0, f 1, f 2, f 3, f 4, f 5, f 6, f 7⟩

/-- All eight lanes alike. -/
def Lanes.all {α : Type} (x : α) : Lanes α := ⟨x, x, x, x, x, x, x, x⟩

/-- The lanes in index order. -/
def Lanes.toList {α : Type} (v : Lanes α) : List α :=
  [v.a0, v.a1, v.a2, v.a3, v.a4, v.a5, v.a6, v.a7]

def Pair.get {α : Type} (v : Pair α) (i : Fin 2) : α :=
  match i with
  | 0 => v.p0
  | 1 => v.p1

def Pair.set {α : Type} (v : Pair α) (i : Fin 2) (x : α) : Pair α :=
  match i with
  | 0 => { v with p0 := x }
  | 1 => { v with p1 := x }

/-- Both alike. -/
def Pair.all {α : Type} (x : α) : Pair α := ⟨x, x⟩

end Sys2Proof
end

