-- ==== Sys2Proof/Syntax.lean ====
section
/-! DEFINITION. The names and records the instructions speak of (wire formats, failure codes, the Frame) and `Instr`, one
constructor for each of the 35 rows of opcode_table.json (30_encoding R110). -/

namespace Sys2Proof

/-- The two wire formats (30_encoding R90). -/
inductive WireFormat where
  | A
  | B
  deriving DecidableEq, Repr, Inhabited

/-- The failure codes of 60_exceptions R261. -/
inductive Code where
  | none
  | transportOpenFailure
  | outputSinkFailure
  | keyInjectionFailure
  | idleTimeout
  | joinTimeout
  | emptyLine
  | fieldCount
  | notInteger
  | lineTooLong
  | badLenRange
  | badCrc
  | badLen
  deriving DecidableEq, Repr, Inhabited

/-- A symbolic key name: an opaque type with equality (00_scope R12, 92 D36). DESIGN CHOICE, safe: natural numbers stand
for the names (log entry 19). -/
abbrev KeyName := Nat

/-- One decoded unit of telemetry (10_state R21): eight potentiometer readings, two raw switch readings, the calibration
flag. -/
structure Frame where
  pot : Lanes Byte
  swRaw : Pair Byte
  cal : Bool
  deriving DecidableEq, Repr, Inhabited

/-- The block's instructions: the six wire-level rows and the 29 operations and primitives of opcode_table.json. -/
inductive Instr where
  /-- FRAME_B (30_encoding R106): `AA 55 0B`, the eleven payload bytes and their CRC-8; the trailer is no operand, it is
  computed. -/
  | frameB (pot : Lanes Byte) (status rsv0 rsv1 : Byte)
  /-- FRAME_B_OTHERLEN (40 R138): a payload of 1 to 32 bytes, not 11, with its right CRC-8. -/
  | frameBOtherLen (payload : List Byte)
  /-- FRAME_B_BADCRC (40 R138): a payload of 1 to 32 bytes with a wrong trailer. -/
  | frameBBadCrc (payload : List Byte) (trailer : Byte)
  /-- FRAME_B_BADLENRANGE (40 R136): the sync marker and a length byte 0 or 33 to 255. -/
  | frameBBadLenRange (l : Byte)
  /-- FRAME_A (30_encoding R91 to R96): the texts of the ten fields, and whether a `0x0D` stands before the terminator. -/
  | frameA (pots : Lanes (List Byte)) (s1 s2 : List Byte) (cr : Bool)
  /-- LINE_A_DROPPED (40 R141): the bytes of any other line, terminator not included. -/
  | lineADropped (line : List Byte)
  /-- CRC8_UPDATE (40 R130). -/
  | crc8Update (c b : Byte)
  /-- CRC8 (40 R131). -/
  | crc8 (p : List Byte)
  /-- DEC_BYTE_B (40 R133). -/
  | decByteB (b : Byte)
  /-- DEC_BYTE_A (40 R140). -/
  | decByteA (b : Byte)
  /-- PARSE_LINE (40 R141): the line without its terminator. -/
  | parseLine (line : List Byte)
  /-- PARSE_INT (40 R142). -/
  | parseInt (field : List Byte)
  /-- DECODE_CALL (40 R146). -/
  | decodeCall
  /-- MEDIAN (41 R172): a non-empty list of readings. -/
  | median (w : List Byte)
  /-- SW_FEED (41 R170): switch index, reading, time stamp. -/
  | swFeed (sw : Fin 2) (raw : Byte) (t : Nat)
  /-- AXIS_MAP (42 R190): axis index and any integer. -/
  | axisMap (k : Fin 8) (raw : Int)
  /-- LOOP_START (43 R210); its operand, the configuration, is the host's at that moment (20_memory R79). -/
  | loopStart
  /-- LOOP_ITER (43 R212). -/
  | loopIter
  /-- PROCESS_FRAME (43 R215). -/
  | processFrame (f : Frame) (t : Nat)
  /-- EDGE_TAPS (43 R217). -/
  | edgeTaps (st : Pair Bool)
  /-- NEUTRAL_PUSH (43 R220). -/
  | neutralPush
  /-- OBS_PUBLISH (43 R224). -/
  | obsPublish (t : Nat)
  /-- LOOP_STOP (43 R225). -/
  | loopStop (cause : Code)
  /-- RX_READ (20_memory R63). -/
  | rxRead
  /-- TRANSPORT_OPEN (20_memory R64). -/
  | transportOpen (portName baudRate readTimeout : Nat)
  /-- TRANSPORT_CLOSE (20_memory R64). -/
  | transportClose
  /-- SINK_ACQUIRE (20_memory R64). -/
  | sinkAcquire (outDeviceId : Nat)
  /-- SINK_RELEASE (20_memory R64). -/
  | sinkRelease
  /-- SINK_UPDATE (20_memory R65): eight axis values `1..32767` and two buttons. -/
  | sinkUpdate (axis : Lanes Nat) (btn : Pair Bool)
  /-- KEY_TAP (20_memory R66). -/
  | keyTap (name : KeyName)
  /-- OBS_EVENT (20_memory R67). -/
  | obsEvent (pot : Lanes Byte) (swRaw : Pair Byte) (swStable : Pair Bool) (cal : Bool)
  /-- DIAG (20_memory R68). -/
  | diag (code : Code)
  /-- REPORT (20_memory R69). -/
  | report (code : Code)
  /-- NOW (20_memory R70). -/
  | now
  /-- CANCEL_LEVEL (20_memory R71). -/
  | cancelLevel
  deriving DecidableEq, Repr

end Sys2Proof
end

