-- ==== Sys2Proof/Config.lean ====
section
/-! DEFINITION. What an implementation fixes and the spec leaves open: the hardware parameters of 00_scope R12 (constants
without a body, so that no proof can see their values; only the range R12 gives them is known), the free value of a
register the spec leaves unspecified, and the constants of 00_scope R10. -/

namespace Sys2Proof

/-- By how much LINE_MAX exceeds its least value 39. DESIGN CHOICE, safe: a free constant (log entry 12). -/
opaque Config.lineMaxAbove : Nat

/-- By how much W_MAX exceeds its least value 1. DESIGN CHOICE, safe: a free constant (log entry 12). -/
opaque Config.wMaxAbove : Nat

/-- By how much TICKS_PER_UNIT exceeds its least value 1. DESIGN CHOICE, safe: a free constant (log entry 12). -/
opaque Config.ticksAbove : Nat

/-- N_MAX: the largest smoothing window (00_scope R12). DESIGN CHOICE, safe: a free constant (log entry 12). -/
opaque Config.nMax : Nat

/-- LINE_MAX: the capacity of the text line buffer, at least 39 (00_scope R12). -/
def Config.lineMax : Nat := Config.lineMaxAbove + 39

/-- W_MAX: the largest median window, at least 1 (00_scope R12). -/
def Config.wMax : Nat := Config.wMaxAbove + 1

/-- TICKS_PER_UNIT: ticks in one time unit of the source, at least 1 (00_scope R12, R13). -/
def Config.ticksPerUnit : Nat := Config.ticksAbove + 1

/-- FREE VALUE: what `last_frame` holds after the `k`-th run start, which 10_state R51 calls unspecified (log entry 14). -/
opaque Config.freeFrame : Nat → Frame

/-- AXIS_NEUTRAL (43 R218). -/
def Config.axisNeutral : Nat := 16448

/-- The neutral snapshot's axes: all at AXIS_NEUTRAL (43 R218). -/
def Config.neutralAxes : Lanes Nat := Lanes.all Config.axisNeutral

/-- The neutral snapshot's buttons: released (43 R218). -/
def Config.neutralButtons : Pair Bool := Pair.all false

end Sys2Proof
end

