-- ==== Sys2Proof/Machine/Flags.lean ====
section
/-! DEFINITION. The tests and checksums the operations decide by: CRC-8 (40 R130, R131), the length test (40 R136), the
deadzone test (42 R193), the hysteresis classification (41 R173) and the five deadline comparisons (60 R273). -/

namespace Sys2Proof.Machine

/-- One bit of CRC8_UPDATE (40 R130): shift right, and xor with the reflected polynomial `0x8C` when the register's bit 0
and the data bit differ. -/
def crcBit (c : Byte) (bit : Bool) : Byte :=
  if c.getLsbD 0 ^^ bit then (c >>> 1) ^^^ 0x8C#8 else c >>> 1

/-- CRC8_UPDATE (40 R130): the eight data bits, bit 0 first. -/
def crcUpdate (c b : Byte) : Byte :=
  [0, 1, 2, 3, 4, 5, 6, 7].foldl (fun c i => crcBit c (b.getLsbD i)) c

/-- CRC8 (40 R131): initial value `0x00`, payload byte 0 first, nothing done to the result. -/
def crc8Of (p : List Byte) : Byte := p.foldl crcUpdate 0x00#8

/-- The length byte's range test `1 <= L <= 32` (40 R136). -/
def lenInRange (b : Byte) : Bool := 1 ≤ b.toNat && b.toNat ≤ 32

/-- The deadzone test `|2v - 255| <= 2 dz` (42 R193). -/
def inDeadzone (v dz : Nat) : Bool := (2 * (v : Int) - 255).natAbs ≤ 2 * dz

/-- The candidate after classification of the median `m` (41 R173). -/
def classify (low high m : Nat) (prev : Bool) : Bool :=
  if m ≤ low then false else if high ≤ m then true else prev

/-- The sticky window still holds: `now - t_stable < sw_sticky` (41 R175). -/
def stickyHolds (now tStable sticky : Nat) : Bool := now - tStable < sticky

/-- The candidate has held long enough: `now - t_cand >= sw_debounce` (41 R176). -/
def debounced (now tCand debounce : Nat) : Bool := debounce ≤ now - tCand

/-- The idle test `now - t_last_frame > idle_threshold` (43 R219). -/
def idleElapsed (now tLastFrame threshold : Nat) : Bool := threshold < now - tLastFrame

/-- The idle diagnostic is due: `now - t_idle_diag >= idle_diag_interval` (43 R219). -/
def idleDiagDue (now tIdleDiag interval : Nat) : Bool := interval ≤ now - tIdleDiag

/-- The observer snapshot is due: `now - t_obs >= obs_interval` (43 R224). -/
def obsDue (now tObs interval : Nat) : Bool := interval ≤ now - tObs

end Sys2Proof.Machine
end

