-- ==== Sys2Proof/Machine/Operands.lean ====
section
/-! DEFINITION. The forms in which values reach the operations: text fields and lines (30_encoding R93 to R95, 40 R141 to
R144), the payload of a wire format B frame (40 R139), the numbers of the failure codes (60 R261), and integers carried as
naturals in an operation's operand words (log entry 8). -/

namespace Sys2Proof.Machine

/-- `clamp(x, lo, hi)` (00_scope 6.1). -/
def clamp (x lo hi : Int) : Int := if x < lo then lo else if hi < x then hi else x

/-- A value saturated into `0..255` (40 R143, 42 R191). -/
def saturate (v : Int) : Byte := BitVec.ofNat 8 (clamp v 0 255).toNat

/-- The white space of a text field: space and tab (30_encoding R95). -/
def isBlank (b : Byte) : Bool := b == 0x20#8 || b == 0x09#8

/-- A field without its leading and trailing white space (40 R142). -/
def trimBlank (field : List Byte) : List Byte :=
  ((field.dropWhile isBlank).reverse.dropWhile isBlank).reverse

/-- The digit loop of PARSE_INT from the accumulator `m` (40 R142). -/
def parseDigits (m : Nat) : List Byte → Option Nat
  | [] => some m
  | d :: ds =>
    if d.toNat < 0x30 || 0x39 < d.toNat then none else parseDigits (10 * m + (d.toNat - 0x30)) ds

/-- The digits after the sign: at least one is needed (40 R142). -/
def parseMagnitude (t : List Byte) : Option Nat :=
  match t with
  | [] => none
  | _ :: _ => parseDigits 0 t

/-- PARSE_INT (40 R142). -/
def parseInteger (field : List Byte) : Option Int :=
  match trimBlank field with
  | [] => none
  | c :: t =>
    if c = 0x2B#8 then (parseMagnitude t).map fun (m : Nat) => (m : Int)
    else if c = 0x2D#8 then (parseMagnitude t).map fun (m : Nat) => -(m : Int)
    else (parseMagnitude (c :: t)).map fun (m : Nat) => (m : Int)

/-- A line cut at every comma; `c` commas give `c + 1` fields (30_encoding R94). -/
def splitCommas : List Byte → List (List Byte)
  | [] => [[]]
  | b :: bs =>
    if b = 0x2C#8 then [] :: splitCommas bs
    else
      match splitCommas bs with
      | [] => [[b]]
      | f :: fs => (b :: f) :: fs

/-- A line without ONE trailing carriage return (30_encoding R93). -/
def stripCr (line : List Byte) : List Byte :=
  if line.getLast? = some 0x0D#8 then line.dropLast else line

/-- PARSE_INT of every field, or nothing when one does not parse (40 R141). -/
def parseFields : List (List Byte) → Option (List Int)
  | [] => some []
  | f :: fs =>
    match parseInteger f with
    | none => none
    | some v => (parseFields fs).map (fun vs => v :: vs)

/-- BuildFrameA (40 R144): ten values, each saturated; the text format carries no calibration flag. -/
def buildFrameA (pot : Lanes Int) (s1 s2 : Int) : Frame :=
  { pot := Lanes.ofFn (fun k => saturate (pot.get k)), swRaw := ⟨saturate s1, saturate s2⟩, cal := false }

/-- BuildFrameB (40 R139) of the eleven payload bytes; status bits 7..3 and the reserved bytes are not used. A slot the
list does not hold counts as 0, which no run reaches (log entry 23). -/
def buildFrameB (p : List Byte) : Frame :=
  let st := p.getD 8 0
  { pot := Lanes.ofFn (fun k => p.getD k.val 0)
    swRaw := ⟨if st.getLsbD 0 then 255 else 0, if st.getLsbD 1 then 255 else 0⟩
    cal := st.getLsbD 2 }

/-- What the decoder makes of one byte, one line or one unit (40 R133, R140, R141). -/
inductive DecResult where
  /-- The byte was absorbed. -/
  | nothing
  | frame (f : Frame)
  | dropped (code : Code)
  deriving DecidableEq, Repr

/-- The validity tests of PARSE_LINE on a line without its terminator (40 R141), before `drop` is accounted. -/
def judgeLine (line : List Byte) : DecResult :=
  if stripCr line = [] then .dropped .emptyLine
  else if (splitCommas (stripCr line)).length ≠ 10 then .dropped .fieldCount
  else
    match parseFields (splitCommas (stripCr line)) with
    | some [v0, v1, v2, v3, v4, v5, v6, v7, v8, v9] => .frame (buildFrameA ⟨v0, v1, v2, v3, v4, v5, v6, v7⟩ v8 v9)
    | _ => .dropped .notInteger

/-- The number of a failure code (60 R261). -/
def codeNumber : Code → Nat
  | .none => 0x00
  | .transportOpenFailure => 0x01
  | .outputSinkFailure => 0x02
  | .keyInjectionFailure => 0x03
  | .idleTimeout => 0x04
  | .joinTimeout => 0x05
  | .emptyLine => 0x10
  | .fieldCount => 0x11
  | .notInteger => 0x12
  | .lineTooLong => 0x13
  | .badLenRange => 0x18
  | .badCrc => 0x19
  | .badLen => 0x1A

/-- The failure code of a number, if R261 lists it. -/
def codeOfNumber (n : Nat) : Option Code :=
  match n with
  | 0x00 => some .none
  | 0x01 => some .transportOpenFailure
  | 0x02 => some .outputSinkFailure
  | 0x03 => some .keyInjectionFailure
  | 0x04 => some .idleTimeout
  | 0x05 => some .joinTimeout
  | 0x10 => some .emptyLine
  | 0x11 => some .fieldCount
  | 0x12 => some .notInteger
  | 0x13 => some .lineTooLong
  | 0x18 => some .badLenRange
  | 0x19 => some .badCrc
  | 0x1A => some .badLen
  | _ => none

/-- An integer as one operand word: `2v` for `v >= 0`, `-2v - 1` for `v < 0`. DESIGN CHOICE (log entry 8). -/
def wordOfInt : Int → Nat
  | .ofNat m => 2 * m
  | .negSucc m => 2 * m + 1

/-- The integer an operand word stands for. -/
def intOfWord (w : Nat) : Int := if w % 2 = 0 then .ofNat (w / 2) else .negSucc (w / 2)

end Sys2Proof.Machine
end

