-- ==== Sys2Proof/WellFormed.lean ====
section
/-! DEFINITION. Which instructions an encoding can stand for: the operand ranges of opcode_table.json and of the rules its
rows name. Every operand range that a type does not already give is checked here. -/

namespace Sys2Proof

/-- A payload of the framing length `1..32` (30_encoding R99). -/
def payloadFramed (p : List Byte) : Bool := 1 ≤ p.length && p.length ≤ 32

/-- A field of a wire format A line that parses as an integer (30_encoding R95). -/
def fieldParses (f : List Byte) : Bool := (Machine.parseInteger f).isSome

/-- An axis value of the sink, `1..32767` (20_memory R65). -/
def axisInRange (v : Nat) : Bool := 1 ≤ v && v ≤ 32767

/-- Every lane satisfies a test. -/
def Lanes.forall {α : Type} (v : Lanes α) (p : α → Bool) : Bool := v.toList.all p

/-- Well-formed instructions. -/
def Instr.wf : Instr → Bool
  | .frameB _ _ _ _ => true
  | .frameBOtherLen p => payloadFramed p && p.length != 11
  | .frameBBadCrc p z => payloadFramed p && z != Machine.crc8Of p
  | .frameBBadLenRange l => !Machine.lenInRange l
  | .frameA pots s1 s2 _ => pots.forall fieldParses && fieldParses s1 && fieldParses s2
  | .lineADropped line =>
      !line.contains 0x0A#8 && (match Machine.judgeLine line with | .frame _ => false | _ => true)
  | .crc8Update _ _ => true
  | .crc8 _ => true
  | .decByteB _ => true
  | .decByteA _ => true
  | .parseLine _ => true
  | .parseInt _ => true
  | .decodeCall => true
  | .median w => !w.isEmpty
  | .swFeed _ _ _ => true
  | .axisMap _ _ => true
  | .loopStart => true
  | .loopIter => true
  | .processFrame _ _ => true
  | .edgeTaps _ => true
  | .neutralPush => true
  | .obsPublish _ => true
  | .loopStop _ => true
  | .rxRead => true
  | .transportOpen _ _ _ => true
  | .transportClose => true
  | .sinkAcquire _ => true
  | .sinkRelease => true
  | .sinkUpdate axis _ => axis.forall axisInRange
  | .keyTap _ => true
  | .obsEvent _ _ _ _ => true
  | .diag _ => true
  | .report _ => true
  | .now => true
  | .cancelLevel => true

end Sys2Proof
end

