-- ==== Sys2Proof/Decode.lean ====
section
/-! DEFINITION. The decoder and, after it, the encoder.

An instruction is encoded in one of two ways. The six wire rows are bytes in order of arrival (30_encoding R91 to R107). The
29 operations are carried on no wire (30_encoding R110): the first word of one is its 8-bit operation identifier, and
each operand is one further word holding a natural number (20_memory R72: arguments are whole numbers without a byte order).
A list is its length and then its elements. The operand words are a DESIGN CHOICE (log entry 8): the spec numbers the
operations and lays out no operand. -/

namespace Sys2Proof

/-- Why something is not an instruction. -/
inductive DecodeError where
  /-- There is no first word. -/
  | empty
  /-- The first word is no operation identifier of 30_encoding R110. -/
  | unknownOperation (id : Nat)
  /-- An operand word is missing. -/
  | missingOperand
  /-- An operand word is outside its operand's range. -/
  | operandOutOfRange (w : Nat)
  /-- Words follow the last operand. -/
  | trailingWords
  /-- The received bytes do not begin with the sync marker `AA 55` (30_encoding R98). -/
  | noSync
  /-- The received bytes end inside a frame or a line (40 R150). -/
  | truncated
  deriving DecidableEq, Repr

/-- An encoded instruction: operation words, or bytes on the wire. -/
inductive Encoding where
  | words (ws : List Nat)
  | bytes (bs : List Byte)
  deriving DecidableEq, Repr

/-- A reader of operand words: the operand and the words after it, or why there is none. -/
abbrev Reader (α : Type) := Except DecodeError (α × List Nat)

/-- One operand after another. -/
def thenRead {α β : Type} (r : Reader α) (f : α → List Nat → Reader β) : Reader β :=
  match r with
  | .ok (x, ws) => f x ws
  | .error e => .error e

/-- One operand word below a bound. -/
def readBelow (bound : Nat) (ws : List Nat) : Reader Nat :=
  match ws with
  | [] => .error .missingOperand
  | w :: ws => if w < bound then .ok (w, ws) else .error (.operandOutOfRange w)

/-- One operand word without a bound (a time, an opaque name). -/
def readNat (ws : List Nat) : Reader Nat :=
  match ws with
  | [] => .error .missingOperand
  | w :: ws => .ok (w, ws)

def readByte (ws : List Nat) : Reader Byte :=
  thenRead (readBelow 256 ws) fun w ws =>
  .ok (BitVec.ofNat 8 w, ws)

def readBit (ws : List Nat) : Reader Bool :=
  thenRead (readBelow 2 ws) fun w ws =>
  .ok (w == 1, ws)

def readInt (ws : List Nat) : Reader Int :=
  thenRead (readNat ws) fun w ws =>
  .ok (Machine.intOfWord w, ws)

/-- A failure code by its number (60 R261). -/
def readCode (ws : List Nat) : Reader Code :=
  thenRead (readNat ws) fun w ws =>
  match Machine.codeOfNumber w with
  | some c => .ok (c, ws)
  | none => .error (.operandOutOfRange w)

def readSwitch (ws : List Nat) : Reader (Fin 2) :=
  thenRead (readBelow 2 ws) fun w ws =>
  .ok (if w = 0 then 0 else 1, ws)

def readAxis (ws : List Nat) : Reader (Fin 8) :=
  thenRead (readBelow 8 ws) fun w ws =>
  .ok (Fin.ofNat 8 w, ws)

/-- An axis value `1..32767`, carried as the value minus one (15 bits, 20_memory R65). -/
def readAxisValue (ws : List Nat) : Reader Nat :=
  thenRead (readBelow 32767 ws) fun w ws =>
  .ok (w + 1, ws)

def readPair {α : Type} (r : List Nat → Reader α) (ws : List Nat) : Reader (Pair α) :=
  thenRead (r ws) fun x0 ws =>
  thenRead (r ws) fun x1 ws =>
  .ok (⟨x0, x1⟩, ws)

def readLanes {α : Type} (r : List Nat → Reader α) (ws : List Nat) : Reader (Lanes α) :=
  thenRead (r ws) fun x0 ws =>
  thenRead (r ws) fun x1 ws =>
  thenRead (r ws) fun x2 ws =>
  thenRead (r ws) fun x3 ws =>
  thenRead (r ws) fun x4 ws =>
  thenRead (r ws) fun x5 ws =>
  thenRead (r ws) fun x6 ws =>
  thenRead (r ws) fun x7 ws =>
  .ok (⟨x0, x1, x2, x3, x4, x5, x6, x7⟩, ws)

/-- `count` bytes. -/
def readByteCount (count : Nat) (ws : List Nat) : Reader (List Byte) :=
  match count with
  | 0 => .ok ([], ws)
  | k + 1 =>
    thenRead (readByte ws) fun b ws =>
    thenRead (readByteCount k ws) fun bs ws =>
    .ok (b :: bs, ws)

/-- A byte list: its length, then its bytes. -/
def readBytes (ws : List Nat) : Reader (List Byte) :=
  thenRead (readNat ws) fun count ws =>
  readByteCount count ws

/-- A non-empty byte list: its length minus one, then its bytes (41 R172: MEDIAN's operand is not empty). -/
def readBytes1 (ws : List Nat) : Reader (List Byte) :=
  thenRead (readNat ws) fun count ws =>
  readByteCount (count + 1) ws

def readFrame (ws : List Nat) : Reader Frame :=
  thenRead (readLanes readByte ws) fun pot ws =>
  thenRead (readPair readByte ws) fun swRaw ws =>
  thenRead (readBit ws) fun cal ws =>
  .ok ({ pot := pot, swRaw := swRaw, cal := cal }, ws)

/-- The operation that a word list begins with, and the words after it; the identifiers are those of 30_encoding R110. -/
def decodeOp (ws : List Nat) : Reader Instr :=
  match ws with
  | [] => .error .empty
  | id :: ws =>
    match id with
    | 0x01 =>
      thenRead (readByte ws) fun c ws =>
      thenRead (readByte ws) fun b ws =>
      .ok (.crc8Update c b, ws)
    | 0x02 =>
      thenRead (readBytes ws) fun p ws =>
      .ok (.crc8 p, ws)
    | 0x03 =>
      thenRead (readByte ws) fun b ws =>
      .ok (.decByteB b, ws)
    | 0x04 =>
      thenRead (readByte ws) fun b ws =>
      .ok (.decByteA b, ws)
    | 0x05 =>
      thenRead (readBytes ws) fun line ws =>
      .ok (.parseLine line, ws)
    | 0x06 =>
      thenRead (readBytes ws) fun field ws =>
      .ok (.parseInt field, ws)
    | 0x07 => .ok (.decodeCall, ws)
    | 0x10 =>
      thenRead (readBytes1 ws) fun w ws =>
      .ok (.median w, ws)
    | 0x11 =>
      thenRead (readSwitch ws) fun i ws =>
      thenRead (readByte ws) fun raw ws =>
      thenRead (readNat ws) fun t ws =>
      .ok (.swFeed i raw t, ws)
    | 0x18 =>
      thenRead (readAxis ws) fun k ws =>
      thenRead (readInt ws) fun raw ws =>
      .ok (.axisMap k raw, ws)
    | 0x20 => .ok (.loopStart, ws)
    | 0x21 => .ok (.loopIter, ws)
    | 0x22 =>
      thenRead (readFrame ws) fun f ws =>
      thenRead (readNat ws) fun t ws =>
      .ok (.processFrame f t, ws)
    | 0x23 =>
      thenRead (readPair readBit ws) fun st ws =>
      .ok (.edgeTaps st, ws)
    | 0x24 => .ok (.neutralPush, ws)
    | 0x25 =>
      thenRead (readNat ws) fun t ws =>
      .ok (.obsPublish t, ws)
    | 0x26 =>
      thenRead (readCode ws) fun cause ws =>
      .ok (.loopStop cause, ws)
    | 0x30 => .ok (.rxRead, ws)
    | 0x31 =>
      thenRead (readNat ws) fun port ws =>
      thenRead (readNat ws) fun baud ws =>
      thenRead (readNat ws) fun timeout ws =>
      .ok (.transportOpen port baud timeout, ws)
    | 0x32 => .ok (.transportClose, ws)
    | 0x33 =>
      thenRead (readNat ws) fun dev ws =>
      .ok (.sinkAcquire dev, ws)
    | 0x34 => .ok (.sinkRelease, ws)
    | 0x35 =>
      thenRead (readLanes readAxisValue ws) fun axis ws =>
      thenRead (readPair readBit ws) fun btn ws =>
      .ok (.sinkUpdate axis btn, ws)
    | 0x36 =>
      thenRead (readNat ws) fun name ws =>
      .ok (.keyTap name, ws)
    | 0x37 =>
      thenRead (readLanes readByte ws) fun pot ws =>
      thenRead (readPair readByte ws) fun swRaw ws =>
      thenRead (readPair readBit ws) fun swStable ws =>
      thenRead (readBit ws) fun cal ws =>
      .ok (.obsEvent pot swRaw swStable cal, ws)
    | 0x38 =>
      thenRead (readCode ws) fun code ws =>
      .ok (.diag code, ws)
    | 0x39 =>
      thenRead (readCode ws) fun code ws =>
      .ok (.report code, ws)
    | 0x3A => .ok (.now, ws)
    | 0x3B => .ok (.cancelLevel, ws)
    | _ => .error (.unknownOperation id)

/-- The wire format B unit the received bytes begin with (30_encoding R97, R99, R105), and the bytes after it. The tests
stand in the order of 40 R136 and R138: length range, checksum, length 11. -/
def decodeWireB (bs : List Byte) : Except DecodeError (Instr × List Byte) :=
  match bs with
  | b0 :: b1 :: l :: rest =>
    if b0 ≠ 0xAA#8 ∨ b1 ≠ 0x55#8 then .error .noSync
    else if !Machine.lenInRange l then .ok (.frameBBadLenRange l, rest)
    else
      match rest.drop l.toNat with
      | [] => .error .truncated
      | z :: after =>
        if z ≠ Machine.crc8Of (rest.take l.toNat) then .ok (.frameBBadCrc (rest.take l.toNat) z, after)
        else if l ≠ 11#8 then .ok (.frameBOtherLen (rest.take l.toNat), after)
        else
          match rest.take l.toNat with
          | [p0, p1, p2, p3, p4, p5, p6, p7, st, r0, r1] => .ok (.frameB ⟨p0, p1, p2, p3, p4, p5, p6, p7⟩ st r0 r1, after)
          | _ => .error .truncated
  | _ => .error .truncated

/-- The bytes up to the first line feed, and those after it (30_encoding R93). -/
def cutLine : List Byte → Option (List Byte × List Byte)
  | [] => none
  | b :: bs =>
    if b = 0x0A#8 then some ([], bs)
    else
      match cutLine bs with
      | none => none
      | some (line, after) => some (b :: line, after)

/-- The wire format A unit the received bytes begin with (30_encoding R93 to R96), and the bytes after it. -/
def decodeWireA (bs : List Byte) : Except DecodeError (Instr × List Byte) :=
  match cutLine bs with
  | none => .error .truncated
  | some (line, after) =>
    match Machine.judgeLine line, Machine.splitCommas (Machine.stripCr line) with
    | .frame _, [f0, f1, f2, f3, f4, f5, f6, f7, f8, f9] =>
      .ok (.frameA ⟨f0, f1, f2, f3, f4, f5, f6, f7⟩ f8 f9 (line.getLast? == some 0x0D#8), after)
    | _, _ => .ok (.lineADropped line, after)

/-- The unit the received bytes begin with, in the wire format the block runs (30_encoding R90). -/
def decodeWire (fmt : WireFormat) (bs : List Byte) : Except DecodeError (Instr × List Byte) :=
  match fmt with
  | .A => decodeWireA bs
  | .B => decodeWireB bs

/-- DECODE: the instruction an encoding stands for; nothing may follow it. -/
def decode (fmt : WireFormat) (e : Encoding) : Except DecodeError Instr :=
  match e with
  | .words ws =>
    match decodeOp ws with
    | .ok (i, []) => .ok i
    | .ok (_, _ :: _) => .error .trailingWords
    | .error e => .error e
  | .bytes bs =>
    match decodeWire fmt bs with
    | .ok (i, []) => .ok i
    | .ok (_, _ :: _) => .error .trailingWords
    | .error e => .error e

/-! The encoder. -/

def wordOfBit (b : Bool) : Nat := if b then 1 else 0

def wordsOfBytes (bs : List Byte) : List Nat := bs.map BitVec.toNat

def wordsOfLanes {α : Type} (f : α → Nat) (v : Lanes α) : List Nat := v.toList.map f

def wordsOfPair {α : Type} (f : α → Nat) (v : Pair α) : List Nat := [f v.p0, f v.p1]

/-- The words of an operation: its identifier (30_encoding R110) and its operands; none for a wire row. -/
def encodeOp : Instr → List Nat
  | .frameB _ _ _ _ => []
  | .frameBOtherLen _ => []
  | .frameBBadCrc _ _ => []
  | .frameBBadLenRange _ => []
  | .frameA _ _ _ _ => []
  | .lineADropped _ => []
  | .crc8Update c b => [0x01, c.toNat, b.toNat]
  | .crc8 p => 0x02 :: p.length :: wordsOfBytes p
  | .decByteB b => [0x03, b.toNat]
  | .decByteA b => [0x04, b.toNat]
  | .parseLine line => 0x05 :: line.length :: wordsOfBytes line
  | .parseInt field => 0x06 :: field.length :: wordsOfBytes field
  | .decodeCall => [0x07]
  | .median w => 0x10 :: (w.length - 1) :: wordsOfBytes w
  | .swFeed i raw t => [0x11, i.val, raw.toNat, t]
  | .axisMap k raw => [0x18, k.val, Machine.wordOfInt raw]
  | .loopStart => [0x20]
  | .loopIter => [0x21]
  | .processFrame f t =>
    0x22 :: (wordsOfLanes BitVec.toNat f.pot ++ wordsOfPair BitVec.toNat f.swRaw ++ [wordOfBit f.cal, t])
  | .edgeTaps st => 0x23 :: wordsOfPair wordOfBit st
  | .neutralPush => [0x24]
  | .obsPublish t => [0x25, t]
  | .loopStop cause => [0x26, Machine.codeNumber cause]
  | .rxRead => [0x30]
  | .transportOpen port baud timeout => [0x31, port, baud, timeout]
  | .transportClose => [0x32]
  | .sinkAcquire dev => [0x33, dev]
  | .sinkRelease => [0x34]
  | .sinkUpdate axis btn => 0x35 :: (wordsOfLanes (fun v => v - 1) axis ++ wordsOfPair wordOfBit btn)
  | .keyTap name => [0x36, name]
  | .obsEvent pot swRaw swStable cal =>
    0x37 :: (wordsOfLanes BitVec.toNat pot ++ wordsOfPair BitVec.toNat swRaw ++ wordsOfPair wordOfBit swStable
      ++ [wordOfBit cal])
  | .diag code => [0x38, Machine.codeNumber code]
  | .report code => [0x39, Machine.codeNumber code]
  | .now => [0x3A]
  | .cancelLevel => [0x3B]

/-- The eleven payload bytes of FRAME_B (30_encoding R97, R100). -/
def payloadB (pot : Lanes Byte) (status rsv0 rsv1 : Byte) : List Byte := pot.toList ++ [status, rsv0, rsv1]

/-- Sync marker, length byte, payload, trailer (30_encoding R97). -/
def framedB (payload : List Byte) (trailer : Byte) : List Byte :=
  0xAA#8 :: 0x55#8 :: BitVec.ofNat 8 payload.length :: (payload ++ [trailer])

/-- The line of FRAME_A without its terminator: ten fields, nine commas, perhaps a carriage return (30_encoding R91 to
R93). -/
def lineOfFields (pots : Lanes (List Byte)) (s1 s2 : List Byte) (cr : Bool) : List Byte :=
  (pots.toList.flatMap (fun f => f ++ [0x2C#8])) ++ s1 ++ [0x2C#8] ++ s2 ++ (if cr then [0x0D#8] else [])

/-- The bytes of a wire row in order of arrival; none for an operation. -/
def encodeWire : Instr → List Byte
  | .frameB pot st r0 r1 => framedB (payloadB pot st r0 r1) (Machine.crc8Of (payloadB pot st r0 r1))
  | .frameBOtherLen p => framedB p (Machine.crc8Of p)
  | .frameBBadCrc p z => framedB p z
  | .frameBBadLenRange l => [0xAA#8, 0x55#8, l]
  | .frameA pots s1 s2 cr => lineOfFields pots s1 s2 cr ++ [0x0A#8]
  | .lineADropped line => line ++ [0x0A#8]
  | _ => []

/-- The wire format of a wire row; none for an operation. -/
def Instr.wireFormat : Instr → Option WireFormat
  | .frameB _ _ _ _ => some .B
  | .frameBOtherLen _ => some .B
  | .frameBBadCrc _ _ => some .B
  | .frameBBadLenRange _ => some .B
  | .frameA _ _ _ _ => some .A
  | .lineADropped _ => some .A
  | _ => none

/-- ENCODE: the encoding of a well-formed instruction. -/
def encode (i : Instr) : Encoding :=
  match i.wireFormat with
  | some _ => .bytes (encodeWire i)
  | none => .words (encodeOp i)

/-! The numbering of opcode_table.json. -/

/-- The `nbits` bits of `w` as bytes in order of arrival: the table numbers a wire row's bytes as one number whose most
significant byte arrives first (match `0xAA550B`; log entry 9). -/
def tableBytes (nbits w : Nat) : List Byte :=
  (List.range (nbits / 8)).map (fun k => BitVec.ofNat 8 (w >>> (8 * (nbits / 8 - 1 - k))))

/-- The instruction the decoder reads from an instruction whose table bits are `w`: an 8-bit row is an operation identifier
followed by operand words of zeros, a longer row is the first bytes of a wire unit followed by zero bytes. -/
def decodeTableWord (nbits w : Nat) : Option Instr :=
  if nbits ≤ 8 then
    match decodeOp (w :: List.replicate 16 0) with
    | .ok (i, _) => some i
    | .error _ => none
  else
    match decodeWireB (tableBytes nbits w ++ List.replicate 33 0) with
    | .ok (i, _) => some i
    | .error _ =>
      match decodeWireA (tableBytes nbits w ++ List.replicate 33 0) with
      | .ok (i, _) => some i
      | .error _ => none

end Sys2Proof
end

