-- ==== Sys2Proof/Machine/State.lean ====
section
/-! DEFINITION. The state of the block (10_state R20 to R49) and of the environment it is stepped against (20_memory R61,
R77), the output events (20_memory R62), the reasons a step can stop, and the state after power-on reset (10_state R50). -/

namespace Sys2Proof.Machine

/-- The states of the BridgeLoop (10_state R22). -/
inductive LoopState where
  | idle
  | connecting
  | running
  | timeoutNeutral
  | stopping
  | stopped
  deriving DecidableEq, Repr, Inhabited

/-- The states of the wire format B byte machine (10_state R24). -/
inductive BState where
  | hunt
  | gotAA
  | len
  | payload
  | crc
  deriving DecidableEq, Repr, Inhabited

/-- The decoder's working registers (10_state R24 to R26). A buffer is the list of its occupied slots, index 0 first; what a
slot beyond the occupancy holds is any value and read by no rule (93 U5, log entry 15). -/
structure Decoder where
  bState : BState
  bLen : Nat
  bCnt : Nat
  bCrc : Byte
  bBuf : List Byte
  aBuf : List Byte
  aLen : Nat
  aOvf : Bool
  deriving DecidableEq, Repr, Inhabited

/-- One SwitchFilterState (10_state R29, R30). -/
structure SwitchFilter where
  win : List Byte
  stable : Bool
  cand : Bool
  tCand : Nat
  tStable : Nat
  deriving DecidableEq, Repr, Inhabited

/-- The configuration surface (10_state R41 to R49) with the selection of the wire format (00_scope R12): the type both of
the host's own configuration and of the registers LOOP_START latches. `wireFormat = none`: no format has been selected
(70 R312 (2), log entry 18). -/
structure Settings where
  wireFormat : Option WireFormat
  portName : Nat
  baudRate : Nat
  readTimeout : Nat
  outDeviceId : Nat
  keyOn : Pair KeyName
  keyOff : Pair KeyName
  swHigh : Nat
  swLow : Nat
  swW : Nat
  swDebounce : Nat
  swSticky : Nat
  dz : Lanes Nat
  n : Lanes Nat
  inv : Lanes Bool
  idleThreshold : Nat
  obsInterval : Nat
  idleDiagInterval : Nat
  diagCap : Nat
  deriving DecidableEq, Repr, Inhabited

/-- The parameters of the hardware (00_scope R12); no step writes them (log entry 12). -/
structure Params where
  lineMax : Nat
  wMax : Nat
  nMax : Nat
  ticksPerUnit : Nat
  deriving DecidableEq, Repr, Inhabited

/-- The output events (20_memory R62) with the operands R64 to R69 give them. -/
inductive Event where
  | sinkAcquire (outDeviceId : Nat)
  | sinkRelease
  | transportOpen (portName baudRate readTimeout : Nat)
  | transportClose
  | sinkUpdate (axis : Lanes Nat) (btn : Pair Bool)
  | keyTap (name : KeyName)
  | obsPublish (pot : Lanes Byte) (swRaw : Pair Byte) (swStable : Pair Bool) (cal : Bool)
  | diag (code : Code)
  | report (code : Code)
  deriving DecidableEq, Repr

/-- What a decode call returns (40 R146). -/
inductive CallResult where
  | frame (f : Frame)
  /-- `NoFrame EMPTY`. -/
  | empty
  /-- `NoFrame code`. -/
  | dropped (code : Code)
  deriving DecidableEq, Repr

/-- The value an operation returns (00_scope 6.2); the model's own field, so that an operation asked for alone shows its
result (log entry 5). -/
inductive Result where
  | none
  | byte (b : Byte)
  | integer (v : Option Int)
  | decoded (r : DecResult)
  | call (r : CallResult)
  | number (v : Nat)
  | bit (b : Bool)
  /-- `RxRead`: the byte, or none. -/
  | rx (b : Option Byte)
  /-- The answer of a call to the environment: true is `ok`. -/
  | answer (ok : Bool)
  | time (t : Nat)
  deriving DecidableEq, Repr

/-- One line of the event script (30_encoding R111): what the environment does, or asks of the worker, between two steps
(20_memory R77 (5)). -/
inductive Input where
  /-- The worker is asked for the operation with these words. -/
  | op (words : List Nat)
  /-- The worker is asked to decode the wire unit at the head of the receive queue (log entry 11). -/
  | unit
  /-- The transport appends bytes to the receive queue. -/
  | rx (bytes : List Byte)
  /-- The transport, while the block does not hold it, discards the first `count` bytes of what it has kept: which bytes it
  keeps across close and open is its own affair (70 R314, 20_memory R64, 92 D43). DESIGN CHOICE, safe: a script says how
  many (log entry 30). -/
  | discard (count : Nat)
  /-- The time source now answers `t`. -/
  | time (t : Nat)
  /-- The cancellation level is now `level`. -/
  | cancel (level : Bool)
  /-- The host changes its own configuration. -/
  | config (c : Settings)
  /-- The coming answers of `SinkAcquire`, `TransportOpen`, `SinkUpdate` and `KeyTap`. -/
  | answers (acquire opens sinks keys : List Bool)
  deriving DecidableEq, Repr

/-- The environment's side (10_state R34): not state of the block, held here so that a step has its inputs (log entry 2).
An answer list holds the coming answers of one call, true for `ok`; past its end the answer is `ok` (30_encoding R111, log
entry 3). -/
structure Env where
  rxq : List Byte
  clock : Nat
  cancel : Bool
  acquireAns : List Bool
  openAns : List Bool
  sinkAns : List Bool
  keyAns : List Bool
  hostCfg : Settings
  inputs : List Input
  deriving DecidableEq, Repr, Inhabited

/-- The state. -/
structure State where
  /-- `loop_state` (10_state R22). -/
  loopState : LoopState
  /-- `fmt` (10_state R23). -/
  fmt : WireFormat
  /-- `b_state`, `b_len`, `b_cnt`, `b_crc`, `b_buf`, `a_buf`, `a_len`, `a_ovf` (10_state R24 to R26). -/
  dec : Decoder
  /-- `diag_count` (10_state R27). -/
  diagCount : Nat
  /-- `sw[0..1]` (10_state R29). -/
  sw : Pair SwitchFilter
  /-- `fifo[0..7]` (10_state R31). -/
  fifo : Lanes (List Byte)
  /-- `t_last_frame` (10_state R32). -/
  tLastFrame : Nat
  /-- `last_emitted[0..1]` (10_state R32). -/
  lastEmitted : Pair Bool
  /-- `first_seen` (10_state R32). -/
  firstSeen : Bool
  /-- `t_obs` (10_state R32). -/
  tObs : Nat
  /-- `t_idle_diag` (10_state R32). -/
  tIdleDiag : Nat
  /-- `last_frame` (10_state R32). -/
  lastFrame : Frame
  /-- `err_code` (10_state R33). -/
  errCode : Code
  /-- `sink_held` (10_state R33). -/
  sinkHeld : Bool
  /-- `transport_held` (10_state R33). -/
  transportHeld : Bool
  /-- The latched configuration registers (10_state R40 to R49). -/
  cfg : Settings
  /-- The hardware parameters (00_scope R12). -/
  params : Params
  /-- The environment. -/
  env : Env
  /-- The output events so far, oldest first (20_memory R62, log entry 4). -/
  out : List Event
  /-- What the last operation returned (log entry 5). -/
  result : Result
  /-- The last time value the run was given (20_memory R70, log entry 13). -/
  tLast : Nat
  /-- How many free values have been used (log entry 14). -/
  freeCtr : Nat
  deriving DecidableEq, Repr

/-- The block has no fault: "`fault` and `stuck` are not used: the block has no trap to raise for these cases and no state in
which it stops answering" (93_implementation_defined; 60 R260). No step can answer one. Safe: nothing is claimed of a fault. -/
inductive Fault
  deriving DecidableEq, Repr

/-- The reasons a step is refused: "no state change and no event" (93 U6 to U9). All are safe: the model stops where the spec
gives no behaviour. -/
inductive Refusal where
  /-- An instruction without a meaning in this model, raised by `exec` alone; no arm of `exec` raises it now. Safe. -/
  | notModelled (mnemonic : String)
  /-- LOOP_START while a run is in progress (93 U7, 43 R210). Raised by LOOP_START. Safe. -/
  | startInRun
  /-- LOOP_START with an ill-formed configuration (93 U8, 00_scope R14). Raised by LOOP_START. Safe. -/
  | illFormedConfig
  /-- LOOP_ITER when no run is in progress (93 U9), or any other operation but LOOP_START then (10_state R50, log entry 7).
  Raised by every operation but LOOP_START. Safe. -/
  | notInRun
  /-- A time value smaller than one already given in this run (93 U6, 20_memory R70, 70 R320). Raised by every operation that
  takes a time. Safe. -/
  | timeWentBack
  /-- MEDIAN of an empty list, which is no operand of it (41 R172); no encoding decodes to it. Raised by MEDIAN. Safe. -/
  | emptyWindow
  /-- The request decodes to no instruction. Raised by `step`, before any operation. Safe. -/
  | undecodable (e : DecodeError)
  deriving DecidableEq, Repr

/-- All-zero settings with no wire format selected: the reset value of the configuration registers and of the host's own
configuration. DESIGN CHOICE, unsafe: the spec gives none (log entries 1, 2, 18). -/
def Settings.zero : Settings :=
  { wireFormat := none, portName := 0, baudRate := 0, readTimeout := 0, outDeviceId := 0
    keyOn := Pair.all 0, keyOff := Pair.all 0, swHigh := 0, swLow := 0, swW := 0, swDebounce := 0, swSticky := 0
    dz := Lanes.all 0, n := Lanes.all 0, inv := Lanes.all false
    idleThreshold := 0, obsInterval := 0, idleDiagInterval := 0, diagCap := 0 }

/-- The decoder with nothing in progress: `HUNT`, counts 0, buffers unoccupied (10_state R51; at power-on log entry 1). -/
def Decoder.empty : Decoder :=
  { bState := .hunt, bLen := 0, bCnt := 0, bCrc := 0x00#8, bBuf := [], aBuf := [], aLen := 0, aOvf := false }

/-- A switch filter at run start (10_state R51). -/
def SwitchFilter.start (t0 : Nat) : SwitchFilter :=
  { win := [], stable := false, cand := false, tCand := t0, tStable := t0 }

/-- A frame of zeros. -/
def zeroFrame : Frame := { pot := Lanes.all 0, swRaw := Pair.all 0, cal := false }

/-- The environment before it has done anything. DESIGN CHOICE (log entries 2, 3). -/
def Env.silent : Env :=
  { rxq := [], clock := 0, cancel := false, acquireAns := [], openAns := [], sinkAns := [], keyAns := []
    hostCfg := Settings.zero, inputs := [] }

/-- The machine after power-on reset: `Idle`, `err_code = NONE`, nothing held (10_state R50). Every other register is
unspecified there; the values named here are a DESIGN CHOICE, unsafe (log entry 1). The hardware parameters are free
constants (log entry 12). -/
def State.reset : State :=
  { loopState := .idle, fmt := .A, dec := Decoder.empty, diagCount := 0
    sw := Pair.all (SwitchFilter.start 0), fifo := Lanes.all []
    tLastFrame := 0, lastEmitted := Pair.all false, firstSeen := false, tObs := 0, tIdleDiag := 0
    lastFrame := zeroFrame, errCode := .none, sinkHeld := false, transportHeld := false
    cfg := Settings.zero
    params := { lineMax := Config.lineMax, wMax := Config.wMax, nMax := Config.nMax, ticksPerUnit := Config.ticksPerUnit }
    env := Env.silent, out := [], result := .none, tLast := 0, freeCtr := 0 }

end Sys2Proof.Machine
end

