-- ==== Sys2Proof/Machine/Ops.lean ====
section
/-! DEFINITION. The operations every meaning is made of: emitting an event, returning a value, calling the environment
(20_memory R61 to R71), counting a drop (40 R145), entering a run-ending failure and the stop sequence (60 R266, 43 R225),
the enabling conditions, and fetching the next request. -/

namespace Sys2Proof.Machine

/-- The outcome of a step of this machine. -/
abbrev StepOutcome := Host.Outcome State Fault Refusal

/-- `emit E(...)` (00_scope 6.2): append one output event. -/
def State.emit (s : State) (e : Event) : State := { s with out := s.out ++ [e] }

/-- `return v` (00_scope 6.2). -/
def State.ret (s : State) (r : Result) : State := { s with result := r }

/-- The decoder registers written. -/
def State.withDec (s : State) (d : Decoder) : State := { s with dec := d }

/-- The receive queue replaced. -/
def State.withRxq (s : State) (q : List Byte) : State := { s with env := { s.env with rxq := q } }

/-- The requests still to come replaced. -/
def State.withInputs (s : State) (q : List Input) : State := { s with env := { s.env with inputs := q } }

/-- A run is in progress: `loop_state` is `Running` or `TimeoutNeutral` (43 R212, 10_state R50). -/
def State.inRun (s : State) : Bool :=
  match s.loopState with
  | .running => true
  | .timeoutNeutral => true
  | _ => false

/-- A run can start: `loop_state` is `Idle` or `Stopped` (43 R210). -/
def State.canStart (s : State) : Bool :=
  match s.loopState with
  | .idle => true
  | .stopped => true
  | _ => false

/-- What every operation but LOOP_START does outside a run: it is refused (10_state R50, 93 U9, log entry 7). -/
def whenInRun (s : State) (r : StepOutcome) : StepOutcome := if s.inRun then r else .refused .notInRun

/-- An operation given the time value `t`: refused when `t` is smaller than an earlier value of the run (20_memory R70, 93
U6), else it goes on with `t` noted as the last one (log entry 13). -/
def atTime (s : State) (t : Nat) (k : State → StepOutcome) : StepOutcome :=
  if t < s.tLast then .refused .timeWentBack else k { s with tLast := t }

/-! Calls to the environment. -/

/-- The next answer of a call, true for `ok`; past the end of the list it is `ok` (30_encoding R111, log entry 3). -/
def headAnswer (l : List Bool) : Bool := l.headD true

/-- `RxRead()` (20_memory R63): take the first byte of the receive queue. R63 treats a transport error during a read as `None`;
there is no failing read of a byte that the queue holds: a byte that a read fails to get is not in the queue yet, and the
script lets it arrive after the call, or never. DESIGN CHOICE (log entry 31). -/
def callRxRead (s : State) : Option Byte × State :=
  match s.env.rxq with
  | [] => (none, s)
  | b :: q => (some b, s.withRxq q)

/-- `TransportOpen` (20_memory R64): the event, and the environment's answer. The block does not flush; whether the receive
queue still holds the bytes of an earlier run is the transport's affair (70 R314), an `Input.discard` line before the open (log
entry 30). -/
def callTransportOpen (port baud timeout : Nat) (s : State) : Bool × State :=
  (headAnswer s.env.openAns,
    { (s.emit (.transportOpen port baud timeout)) with env := { s.env with openAns := s.env.openAns.tail } })

/-- `TransportClose` (20_memory R64): no answer. The receive queue stays as it is until the transport, no longer held,
discards bytes of it (70 R314, `Input.discard`, log entry 30). -/
def callTransportClose (s : State) : State := s.emit .transportClose

/-- `SinkAcquire` (20_memory R64): the event, and the environment's answer. -/
def callSinkAcquire (dev : Nat) (s : State) : Bool × State :=
  (headAnswer s.env.acquireAns,
    { (s.emit (.sinkAcquire dev)) with env := { s.env with acquireAns := s.env.acquireAns.tail } })

/-- `SinkRelease` (20_memory R64): no answer. -/
def callSinkRelease (s : State) : State := s.emit .sinkRelease

/-- `SinkUpdate` (20_memory R65): one atomic snapshot, and the sink's answer. -/
def callSinkUpdate (axis : Lanes Nat) (btn : Pair Bool) (s : State) : Bool × State :=
  (headAnswer s.env.sinkAns,
    { (s.emit (.sinkUpdate axis btn)) with env := { s.env with sinkAns := s.env.sinkAns.tail } })

/-- `KeyTap` (20_memory R66): one press-then-release, and the key sink's answer. -/
def callKeyTap (name : KeyName) (s : State) : Bool × State :=
  (headAnswer s.env.keyAns,
    { (s.emit (.keyTap name)) with env := { s.env with keyAns := s.env.keyAns.tail } })

/-- The push of the neutral snapshot (43 R218): the sink's answer and the state after it. -/
def callNeutral (s : State) : Bool × State := callSinkUpdate Config.neutralAxes Config.neutralButtons s

/-! Failures. -/

/-- The accounting of `drop(code)` (40 R145): counted and shown only while `diag_count < diag_cap`. -/
def dropCode (code : Code) (s : State) : State :=
  if s.diagCount < s.cfg.diagCap then ({ s with diagCount := s.diagCount + 1 }).emit (.diag code) else s

/-- LOOP_STOP (43 R225), which is also the entry of a run-ending failure (60 R266: `fatal(code)` is `LOOP_STOP(code)`):
`Stopping`, one neutral push whose answer is ignored, the transport closed, the sink released, the cause saved in
`err_code` and reported unless it is `NONE`, `Stopped`. -/
def stopRun (cause : Code) (s : State) : State :=
  let s := { s with loopState := .stopping }
  let s := (callNeutral s).2
  let s := { callTransportClose s with transportHeld := false }
  let s := { callSinkRelease s with sinkHeld := false }
  let s := { s with errCode := cause }
  let s := if cause = .none then s else s.emit (.report cause)
  { s with loopState := .stopped }

/-- `fatal(code)` (60 R266). -/
def fatal (code : Code) (s : State) : State := stopRun code s

/-! The next request. -/

/-- What an environment line of the script does (30_encoding R111, 20_memory R77 (5)); a request of the worker does nothing
here. `held` is `transport_held`: the transport discards bytes only while the block does not hold it, and may keep them all
(70 R314). DESIGN CHOICE, safe (log entry 30). -/
def applyInput (held : Bool) (i : Input) (e : Env) : Env :=
  match i with
  | .op _ => e
  | .unit => e
  | .rx bytes => { e with rxq := e.rxq ++ bytes }
  | .discard count => { e with rxq := if held then e.rxq else e.rxq.drop count }
  | .time t => { e with clock := t }
  | .cancel level => { e with cancel := level }
  | .config c => { e with hostCfg := c }
  | .answers acquire opens sinks keys =>
    { e with acquireAns := acquire, openAns := opens, sinkAns := sinks, keyAns := keys }

/-- What a step finds to do. -/
inductive Fetched where
  /-- Nothing is asked: the worker waits (70 R310). -/
  | wait
  /-- The environment acts; the state after it. -/
  | environment (s : State)
  /-- An instruction, and the state it runs in: its request taken from the script, its bytes from the receive queue. -/
  | instruction (i : Instr) (s : State)
  /-- The request decodes to no instruction. -/
  | bad (e : DecodeError)
  deriving DecidableEq, Repr

/-- Fetch the next request (log entries 2, 11). -/
def fetch (s : State) : Fetched :=
  match s.env.inputs with
  | [] => .wait
  | .op ws :: rest =>
    match decode s.fmt (.words ws) with
    | .ok i => .instruction i (s.withInputs rest)
    | .error e => .bad e
  | .unit :: rest =>
    match decodeWire s.fmt s.env.rxq with
    | .ok (i, after) => .instruction i ((s.withInputs rest).withRxq after)
    | .error e => .bad e
  | i :: rest => .environment { s with env := { applyInput s.transportHeld i s.env with inputs := rest } }

/-- The least well-formed configuration, for `State.withFetchWord` alone (log entry 10): every number at the least value
00_scope R12 allows, wire format A selected. -/
def leastSettings : Settings :=
  { Settings.zero with
    wireFormat := some .A, swHigh := 1, swW := 1, idleThreshold := 1, idleDiagInterval := 1 }

/-- Whether an instruction is enabled only in a run: every one but LOOP_START (10_state R50, log entry 7). -/
def needsRun : Instr → Bool
  | .loopStart => false
  | _ => true

/-- The state in which a loaded instruction is enabled (log entry 10): a run in progress with both resources held (60 R272)
for an operation that needs one, in the wire format of a wire row; for LOOP_START, no run in progress and a configuration
that the host has supplied. -/
def enableFor (i : Instr) (s : State) : State :=
  let s := if needsRun i && !s.inRun then { s with loopState := .running, sinkHeld := true, transportHeld := true } else s
  let s := match i.wireFormat with
    | some f => { s with fmt := f }
    | none => s
  match i with
  | .loopStart =>
    let s := if s.canStart then s else { s with loopState := .idle, sinkHeld := false, transportHeld := false }
    if s.env.hostCfg.wireFormat.isSome then s else { s with env := { s.env with hostCfg := leastSettings } }
  | _ => s

/-- The request of an instruction placed before the requests still to come, its wire bytes before the receive queue. -/
def placeInstr (i : Instr) (s : State) : State :=
  match i.wireFormat with
  | some _ => (s.withRxq (encodeWire i ++ s.env.rxq)).withInputs (.unit :: s.env.inputs)
  | none => s.withInputs (.op (encodeOp i) :: s.env.inputs)

/-- The load that `State.withFetchWord` stands for (log entry 10). -/
def loadTableWord (s : State) (nbits w : Nat) : State :=
  match decodeTableWord nbits w with
  | some i => enableFor i (placeInstr i s)
  | none =>
    if nbits ≤ 8 then s.withInputs (.op [w] :: s.env.inputs)
    else (s.withRxq (tableBytes nbits w ++ s.env.rxq)).withInputs (.unit :: s.env.inputs)

end Sys2Proof.Machine
end

