-- ==== Sys2Proof/Machine/AxisMapper.lean ====
section
/-! DEFINITION. The AxisMapper (42_axis_mapper): AXIS_MAP. -/

namespace Sys2Proof.Machine

/-- The smoothing buffer of a lane after the push of step 2 (42 R192); untouched when `n = 0`. -/
def pushFifo (n : Nat) (fifo : List Byte) (v : Byte) : List Byte :=
  if n = 0 then fifo else (if fifo.length = n then fifo.drop 1 else fifo) ++ [v]

/-- The mean of a non-empty buffer, rounded half up (42 R192). -/
def roundedMean (fifo : List Byte) : Nat :=
  (2 * (fifo.map BitVec.toNat).sum + fifo.length) / (2 * fifo.length)

/-- Step 2 (42 R192): the smoothed value. -/
def smoothed (n : Nat) (fifo : List Byte) (v : Byte) : Nat := if n = 0 then v.toNat else roundedMean (pushFifo n fifo v)

/-- Step 3 (42 R193): a value in the deadzone snaps to 128. -/
def snapped (dz v : Nat) : Nat := if inDeadzone v dz then 128 else v

/-- Step 4 (42 R194). -/
def inverted (inv : Bool) (v : Nat) : Nat := if inv then 255 - v else v

/-- Step 5a (42 R195). -/
def scaled (v : Nat) : Nat := (2 * v * 32767 + 255) / 510

/-- Step 5b (42 R196): `clamp(y, 1, 32767)`. -/
def clampAxis (y : Nat) : Nat := if y < 1 then 1 else if 32767 < y then 32767 else y

/-- AXIS_MAP's result on one lane (42 R197). -/
def axisValue (dz : Nat) (inv : Bool) (n : Nat) (fifo : List Byte) (raw : Int) : Nat :=
  clampAxis (scaled (inverted inv (snapped dz (smoothed n fifo (saturate raw)))))

/-- The result of lane `k` in a state. -/
def laneValue (s : State) (k : Fin 8) (raw : Int) : Nat :=
  axisValue (s.cfg.dz.get k) (s.cfg.inv.get k) (s.cfg.n.get k) (s.fifo.get k) raw

/-- The smoothing buffer of lane `k` after AXIS_MAP. -/
def laneFifo (s : State) (k : Fin 8) (raw : Int) : List Byte := pushFifo (s.cfg.n.get k) (s.fifo.get k) (saturate raw)

/-- AXIS_MAP (42 R190): returns an axis value, writes `fifo[k]`. -/
def execAxisMap (k : Fin 8) (raw : Int) (s : State) : StepOutcome :=
  whenInRun s (.next (({ s with fifo := s.fifo.set k (laneFifo s k raw) }).ret (.number (laneValue s k raw))))

end Sys2Proof.Machine
end

