-- ==== Sys2Proof/Machine/FrameDecoder.lean ====
section
/-! DEFINITION. The FrameDecoder (40_frame_decoder): the two byte machines, the decode call, and the meanings of the six wire
rows and the seven decoder operations. -/

namespace Sys2Proof.Machine

/-- State `HUNT` (40 R134). -/
def huntB (d : Decoder) (b : Byte) : Decoder × DecResult :=
  (if b = 0xAA#8 then { d with bState := .gotAA } else d, .nothing)

/-- State `GOT_AA` (40 R135). -/
def gotAAB (d : Decoder) (b : Byte) : Decoder × DecResult :=
  (if b = 0x55#8 then { d with bState := .len }
    else if b = 0xAA#8 then { d with bState := .gotAA }
    else { d with bState := .hunt }, .nothing)

/-- State `LEN` (40 R136). -/
def lenB (d : Decoder) (b : Byte) : Decoder × DecResult :=
  if lenInRange b then
    ({ d with bLen := b.toNat, bCnt := 0, bCrc := 0x00#8, bState := .payload }, .nothing)
  else ({ d with bState := .hunt }, .dropped .badLenRange)

/-- State `PAYLOAD` (40 R137): `b_buf[b_cnt] <- b`, the slots below it kept. -/
def payloadByteB (d : Decoder) (b : Byte) : Decoder × DecResult :=
  ({ d with
      bBuf := d.bBuf.take d.bCnt ++ [b]
      bCrc := crcUpdate d.bCrc b
      bCnt := d.bCnt + 1
      bState := if d.bCnt + 1 = d.bLen then .crc else .payload }, .nothing)

/-- State `CRC` (40 R138): the checksum is tested before the length 11. -/
def crcB (d : Decoder) (b : Byte) : Decoder × DecResult :=
  ({ d with bState := .hunt },
    if b ≠ d.bCrc then .dropped .badCrc
    else if d.bLen ≠ 11 then .dropped .badLen
    else .frame (buildFrameB d.bBuf))

/-- The byte machine of wire format B (40 R133), before `drop` is accounted. -/
def machineB (d : Decoder) (b : Byte) : Decoder × DecResult :=
  match d.bState with
  | .hunt => huntB d b
  | .gotAA => gotAAB d b
  | .len => lenB d b
  | .payload => payloadByteB d b
  | .crc => crcB d b

/-- The line machine of wire format A (40 R140), before `drop` is accounted. -/
def machineA (lineMax : Nat) (d : Decoder) (b : Byte) : Decoder × DecResult :=
  if b ≠ 0x0A#8 then
    (if d.aLen < lineMax then { d with aBuf := d.aBuf.take d.aLen ++ [b], aLen := d.aLen + 1 }
      else { d with aOvf := true }, .nothing)
  else
    ({ d with aLen := 0, aOvf := false },
      if d.aOvf then .dropped .lineTooLong else judgeLine (d.aBuf.take d.aLen))

/-- A decoder result with its drop, if it is one, accounted (40 R145). -/
def accountDrop (r : DecResult) (s : State) : State :=
  match r with
  | .dropped code => dropCode code s
  | .nothing => s
  | .frame _ => s

/-- DEC_BYTE_B (40 R133). -/
def decByteB (b : Byte) (s : State) : DecResult × State :=
  ((machineB s.dec b).2, accountDrop (machineB s.dec b).2 (s.withDec (machineB s.dec b).1))

/-- DEC_BYTE_A (40 R140). -/
def decByteA (b : Byte) (s : State) : DecResult × State :=
  ((machineA s.params.lineMax s.dec b).2,
    accountDrop (machineA s.params.lineMax s.dec b).2 (s.withDec (machineA s.params.lineMax s.dec b).1))

/-- The byte machine `fmt` selects (40 R146). -/
def decByte (b : Byte) (s : State) : DecResult × State :=
  match s.fmt with
  | .A => decByteA b s
  | .B => decByteB b s

/-- The loop of DECODE_CALL (40 R146) over the bytes the receive queue holds; each `RxRead` takes the first. A
transport error, which R63 treats as `None`, is the end of these bytes (log entry 31). -/
def decodeLoop : List Byte → State → CallResult × State
  | [], s => (.empty, s.withRxq [])
  | b :: q, s =>
    match decByte b s with
    | (.nothing, s') => decodeLoop q s'
    | (.frame f, s') => (.frame f, s'.withRxq q)
    | (.dropped code, s') => (.dropped code, s'.withRxq q)

/-- DECODE_CALL (40 R146). -/
def callDecode (s : State) : CallResult × State := decodeLoop s.env.rxq s

/-- A wire unit received: its bytes stand at the head of the receive queue and one decode call is made (log entry 11). -/
def receiveUnit (bytes : List Byte) (s : State) : State :=
  ((callDecode (s.withRxq (bytes ++ s.env.rxq))).2).ret (.call (callDecode (s.withRxq (bytes ++ s.env.rxq))).1)

/-! The meanings. -/

/-- FRAME_B (40 R139; R133 to R138). -/
def execFrameB (pot : Lanes Byte) (status rsv0 rsv1 : Byte) (s : State) : StepOutcome :=
  whenInRun s (.next (receiveUnit (encodeWire (.frameB pot status rsv0 rsv1)) s))

/-- FRAME_B_OTHERLEN (40 R138): framed, checked and dropped with BAD_LEN. -/
def execFrameBOtherLen (payload : List Byte) (s : State) : StepOutcome :=
  whenInRun s (.next (receiveUnit (encodeWire (.frameBOtherLen payload)) s))

/-- FRAME_B_BADCRC (40 R138): dropped with BAD_CRC, all its bytes consumed. -/
def execFrameBBadCrc (payload : List Byte) (trailer : Byte) (s : State) : StepOutcome :=
  whenInRun s (.next (receiveUnit (encodeWire (.frameBBadCrc payload trailer)) s))

/-- FRAME_B_BADLENRANGE (40 R136): dropped at the length byte. -/
def execFrameBBadLenRange (l : Byte) (s : State) : StepOutcome :=
  whenInRun s (.next (receiveUnit (encodeWire (.frameBBadLenRange l)) s))

/-- FRAME_A (40 R140 to R144). -/
def execFrameA (pots : Lanes (List Byte)) (s1 s2 : List Byte) (cr : Bool) (s : State) : StepOutcome :=
  whenInRun s (.next (receiveUnit (encodeWire (.frameA pots s1 s2 cr)) s))

/-- LINE_A_DROPPED (40 R140, R141). -/
def execLineADropped (line : List Byte) (s : State) : StepOutcome :=
  whenInRun s (.next (receiveUnit (encodeWire (.lineADropped line)) s))

/-- CRC8_UPDATE (40 R130): a pure function; as an operation it needs a run (10_state R50). -/
def execCrc8Update (c b : Byte) (s : State) : StepOutcome := whenInRun s (.next (s.ret (.byte (crcUpdate c b))))

/-- CRC8 (40 R131): a pure function; as an operation it needs a run (10_state R50). -/
def execCrc8 (p : List Byte) (s : State) : StepOutcome := whenInRun s (.next (s.ret (.byte (crc8Of p))))

/-- DEC_BYTE_B (40 R133). -/
def execDecByteB (b : Byte) (s : State) : StepOutcome :=
  whenInRun s (.next ((decByteB b s).2.ret (.decoded (decByteB b s).1)))

/-- DEC_BYTE_A (40 R140). -/
def execDecByteA (b : Byte) (s : State) : StepOutcome :=
  whenInRun s (.next ((decByteA b s).2.ret (.decoded (decByteA b s).1)))

/-- PARSE_LINE (40 R141); `drop` is its only effect. -/
def execParseLine (line : List Byte) (s : State) : StepOutcome :=
  whenInRun s (.next ((accountDrop (judgeLine line) s).ret (.decoded (judgeLine line))))

/-- PARSE_INT (40 R142): a pure function; as an operation it needs a run (10_state R50). -/
def execParseInt (field : List Byte) (s : State) : StepOutcome := whenInRun s (.next (s.ret (.integer (parseInteger field))))

/-- DECODE_CALL (40 R146). -/
def execDecodeCall (s : State) : StepOutcome :=
  whenInRun s (.next ((callDecode s).2.ret (.call (callDecode s).1)))

end Sys2Proof.Machine
end

