-- ==== Sys2Proof/Machine/SwitchFilter.lean ====
section
/-! DEFINITION. The SwitchFilter (41_switch_filter): MEDIAN and SW_FEED. -/

namespace Sys2Proof.Machine

/-- A number put in its place in a non-decreasing list. -/
def insertSorted (x : Nat) : List Nat → List Nat
  | [] => [x]
  | y :: ys => if x ≤ y then x :: y :: ys else y :: insertSorted x ys

/-- The numbers in non-decreasing order (41 R172). -/
def sortNumbers : List Nat → List Nat
  | [] => []
  | x :: xs => insertSorted x (sortNumbers xs)

/-- MEDIAN of a non-empty list (41 R172): the middle entry of an odd count, the floor of the mean of the two middle entries
of an even count. -/
def medianOf (w : List Byte) : Nat :=
  let s := sortNumbers (w.map BitVec.toNat)
  let n := w.length
  if n % 2 = 1 then s.getD ((n - 1) / 2) 0 else (s.getD (n / 2 - 1) 0 + s.getD (n / 2) 0) / 2

/-- Step 1 (41 R171): the newest sample in, the oldest out when the window is full. -/
def pushWindow (w : Nat) (win : List Byte) (raw : Byte) : List Byte :=
  (if win.length = w then win.drop 1 else win) ++ [raw]

/-- SW_FEED of one filter (41 R178), with the shared configuration; the committed value is the result's `stable`. -/
def feedFilter (cfg : Settings) (f : SwitchFilter) (raw : Byte) (now : Nat) : SwitchFilter :=
  let win := pushWindow cfg.swW f.win raw
  let cand := classify cfg.swLow cfg.swHigh (medianOf win) f.cand
  let tCand := if cand ≠ f.cand then now else f.tCand
  let f := { f with win := win, cand := cand, tCand := tCand }
  if stickyHolds now f.tStable cfg.swSticky then f
  else if debounced now f.tCand cfg.swDebounce && f.cand != f.stable then { f with stable := f.cand, tStable := now }
  else f

/-- SW_FEED on switch `i` (41 R170). -/
def feedSwitch (i : Fin 2) (raw : Byte) (now : Nat) (s : State) : State :=
  { s with sw := s.sw.set i (feedFilter s.cfg (s.sw.get i) raw now) }

/-- MEDIAN (41 R172): a pure function; as an operation it needs a run (10_state R50). -/
def execMedian (w : List Byte) (s : State) : StepOutcome :=
  whenInRun s
    (match w with
    | [] => .refused .emptyWindow
    | b :: bs => .next (s.ret (.number (medianOf (b :: bs)))))

/-- SW_FEED (41 R170): returns the committed value. -/
def execSwFeed (i : Fin 2) (raw : Byte) (t : Nat) (s : State) : StepOutcome :=
  whenInRun s (atTime s t fun s => .next ((feedSwitch i raw t s).ret (.bit ((feedSwitch i raw t s).sw.get i).stable)))

end Sys2Proof.Machine
end

