-- ==== Sys2Proof/Machine/BridgeLoop.lean ====
section
/-! DEFINITION. The BridgeLoop (43_bridge_loop): starting a run, one iteration, the idle policy, the edge detector, the
observer and the stop sequence. -/

namespace Sys2Proof.Machine

/-- A well-formed configuration (00_scope R14): every parameter in the range of R12, every configuration register in the range
of 10_state R40 to R48, a wire format selected (70 R312 (2)). -/
def wellFormedConfig (p : Params) (c : Settings) : Bool :=
  c.wireFormat.isSome
  && (39 ≤ p.lineMax) && (1 ≤ p.wMax) && (1 ≤ p.ticksPerUnit)
  && (1 ≤ c.swW && c.swW ≤ p.wMax)
  && (c.swLow < c.swHigh && c.swHigh ≤ 255)
  && c.dz.forall (fun d => d ≤ 255)
  && c.n.forall (fun m => m ≤ p.nMax)
  && (0 < c.idleThreshold) && (0 < c.idleDiagInterval)

/-- The per-run state as 10_state R51 sets it at run start, `t0` being the time sampled. `last_frame` is unspecified there: a
free value (log entry 14). -/
def startRun (t0 : Nat) (s : State) : State :=
  { s with
    loopState := .running
    dec := Decoder.empty
    diagCount := 0
    sw := Pair.all (SwitchFilter.start t0)
    fifo := Lanes.all []
    tLastFrame := t0
    lastEmitted := Pair.all false
    firstSeen := false
    tObs := t0
    tIdleDiag := t0
    lastFrame := Config.freeFrame s.freeCtr
    freeCtr := s.freeCtr + 1
    tLast := t0 }

/-- A failed start (43 R210): the cause saved and reported, `Stopped`. -/
def failStart (code : Code) (s : State) : State :=
  { ({ s with errCode := code }).emit (.report code) with loopState := .stopped }

/-- LOOP_START once it is accepted (43 R210): sink first, then transport; the time is sampled when both are held. -/
def acceptStart (s : State) : State :=
  let c := s.env.hostCfg
  let s := { s with loopState := .connecting, errCode := .none, cfg := c, fmt := c.wireFormat.getD .A }
  let (sinkOk, s) := callSinkAcquire c.outDeviceId s
  if sinkOk then
    let s := { s with sinkHeld := true }
    let (transportOk, s) := callTransportOpen c.portName c.baudRate c.readTimeout s
    if transportOk then startRun s.env.clock { s with transportHeld := true }
    else
      let s := (callNeutral s).2
      failStart .transportOpenFailure { callSinkRelease s with sinkHeld := false }
  else failStart .outputSinkFailure s

/-- The key tapped for switch `i` in the state `on` (43 R217). -/
def tapName (cfg : Settings) (i : Fin 2) (on : Bool) : KeyName := if on then cfg.keyOn.get i else cfg.keyOff.get i

/-- One switch of EDGE_TAPS (43 R217): a tap on the first frame or when the value differs from the last emitted one; a failed
tap gives a diagnostic. -/
def edgeTap (i : Fin 2) (on : Bool) (s : State) : State :=
  if !s.firstSeen || on != s.lastEmitted.get i then
    let (ok, s) := callKeyTap (tapName s.cfg i on) s
    if ok then s else s.emit (.diag .keyInjectionFailure)
  else s

/-- EDGE_TAPS (43 R217): switch 0, then switch 1. -/
def edgeTaps (st : Pair Bool) (s : State) : State := edgeTap 1 st.p1 (edgeTap 0 st.p0 s)

/-- OBS_PUBLISH (43 R224). -/
def obsPublish (now : Nat) (s : State) : State :=
  if obsDue now s.tObs s.cfg.obsInterval then
    { s.emit (.obsPublish s.lastFrame.pot s.lastFrame.swRaw ⟨s.sw.p0.stable, s.sw.p1.stable⟩ s.lastFrame.cal) with
      tObs := now }
  else s

/-- The eight axis values of a frame (43 R215). -/
def frameAxes (f : Frame) (s : State) : Lanes Nat := Lanes.ofFn fun k => laneValue s k (f.pot.get k).toNat

/-- The smoothing buffers and switch filters after a frame (43 R215); the lanes and the switches are independent (42 R200,
41 R179). -/
def conditioned (f : Frame) (now : Nat) (s : State) : State :=
  { s with
    fifo := Lanes.ofFn fun k => laneFifo s k (f.pot.get k).toNat
    sw := ⟨feedFilter s.cfg s.sw.p0 f.swRaw.p0 now, feedFilter s.cfg s.sw.p1 f.swRaw.p1 now⟩ }

/-- The bookkeeping of a processed frame (43 R215). -/
def bookFrame (f : Frame) (st : Pair Bool) (now : Nat) (s : State) : State :=
  { s with lastEmitted := st, firstSeen := true, lastFrame := f, tLastFrame := now, loopState := .running }

/-- PROCESS_FRAME (43 R215): map, filter, push; on a failed push the run ends (R216); else taps, bookkeeping, observer. -/
def processFrame (f : Frame) (now : Nat) (s : State) : State :=
  let axes := frameAxes f s
  let s := conditioned f now s
  let st : Pair Bool := ⟨s.sw.p0.stable, s.sw.p1.stable⟩
  let (ok, s) := callSinkUpdate axes st s
  if ok then obsPublish now (bookFrame f st now (edgeTaps st s)) else fatal .outputSinkFailure s

/-- NEUTRAL_PUSH (43 R220, R222). -/
def neutralPush (s : State) : State :=
  let (ok, s) := callNeutral s
  if ok then s else fatal .outputSinkFailure s

/-- The idle diagnostic of IDLE_BRANCH (43 R219, R223) and the entry into `TimeoutNeutral`. -/
def idleDiag (now : Nat) (s : State) : State :=
  if s.loopState = .running then
    ({ s with loopState := .timeoutNeutral, tIdleDiag := now }).emit (.diag .idleTimeout)
  else if idleDiagDue now s.tIdleDiag s.cfg.idleDiagInterval then
    ({ s with tIdleDiag := now }).emit (.diag .idleTimeout)
  else s

/-- IDLE_BRANCH (43 R219). -/
def idleBranch (now : Nat) (s : State) : State :=
  if idleElapsed now s.tLastFrame s.cfg.idleThreshold then neutralPush (idleDiag now s) else s

/-- The part of LOOP_ITER after the time is sampled (43 R212). -/
def afterDecode (r : CallResult) (now : Nat) (s : State) : State :=
  match r with
  | .frame f => processFrame f now s
  | .empty => idleBranch now s
  | .dropped _ => idleBranch now s

/-! The meanings. -/

/-- LOOP_START (43 R210). -/
def execLoopStart (s : State) : StepOutcome :=
  if !s.canStart then .refused .startInRun
  else if !wellFormedConfig s.params s.env.hostCfg then .refused .illFormedConfig
  else .next ((acceptStart s).ret .none)

/-- LOOP_ITER (43 R212 to R214): cancellation first, then one decode call, then one time sample. -/
def execLoopIter (s : State) : StepOutcome :=
  whenInRun s
    (if s.env.cancel then .next ((stopRun .none s).ret .none)
      else atTime (callDecode s).2 s.env.clock fun s' =>
        .next ((afterDecode (callDecode s).1 s.env.clock s').ret .none))

/-- PROCESS_FRAME (43 R215). -/
def execProcessFrame (f : Frame) (t : Nat) (s : State) : StepOutcome :=
  whenInRun s (atTime s t fun s => .next ((processFrame f t s).ret .none))

/-- EDGE_TAPS (43 R217). -/
def execEdgeTaps (st : Pair Bool) (s : State) : StepOutcome := whenInRun s (.next ((edgeTaps st s).ret .none))

/-- NEUTRAL_PUSH (43 R220). -/
def execNeutralPush (s : State) : StepOutcome := whenInRun s (.next ((neutralPush s).ret .none))

/-- OBS_PUBLISH (43 R224). -/
def execObsPublish (t : Nat) (s : State) : StepOutcome :=
  whenInRun s (atTime s t fun s => .next ((obsPublish t s).ret .none))

/-- LOOP_STOP (43 R225). -/
def execLoopStop (cause : Code) (s : State) : StepOutcome := whenInRun s (.next ((stopRun cause s).ret .none))

end Sys2Proof.Machine
end

