-- ==== Sys2Proof/Machine/Primitives.lean ====
section
/-! DEFINITION. The meanings of the twelve primitives (20_memory R63 to R71) asked for alone. Like every
operation but LOOP_START they need a run (10_state R50, 70 R310); LOOP_START and LOOP_STOP make these calls as parts of
theirs. -/

namespace Sys2Proof.Machine

/-- RX_READ (20_memory R63). -/
def execRxRead (s : State) : StepOutcome :=
  whenInRun s (.next ((callRxRead s).2.ret (.rx (callRxRead s).1)))

/-- TRANSPORT_OPEN (20_memory R64). -/
def execTransportOpen (port baud timeout : Nat) (s : State) : StepOutcome :=
  whenInRun s (.next ((callTransportOpen port baud timeout s).2.ret (.answer (callTransportOpen port baud timeout s).1)))

/-- TRANSPORT_CLOSE (20_memory R64). -/
def execTransportClose (s : State) : StepOutcome :=
  whenInRun s (.next ((callTransportClose s).ret .none))

/-- SINK_ACQUIRE (20_memory R64). -/
def execSinkAcquire (dev : Nat) (s : State) : StepOutcome :=
  whenInRun s (.next ((callSinkAcquire dev s).2.ret (.answer (callSinkAcquire dev s).1)))

/-- SINK_RELEASE (20_memory R64). -/
def execSinkRelease (s : State) : StepOutcome :=
  whenInRun s (.next ((callSinkRelease s).ret .none))

/-- SINK_UPDATE (20_memory R65). -/
def execSinkUpdate (axis : Lanes Nat) (btn : Pair Bool) (s : State) : StepOutcome :=
  whenInRun s (.next ((callSinkUpdate axis btn s).2.ret (.answer (callSinkUpdate axis btn s).1)))

/-- KEY_TAP (20_memory R66). -/
def execKeyTap (name : KeyName) (s : State) : StepOutcome :=
  whenInRun s (.next ((callKeyTap name s).2.ret (.answer (callKeyTap name s).1)))

/-- OBS_EVENT (20_memory R67): fire and forget. -/
def execObsEvent (pot : Lanes Byte) (swRaw : Pair Byte) (swStable : Pair Bool) (cal : Bool) (s : State) : StepOutcome :=
  whenInRun s (.next ((s.emit (.obsPublish pot swRaw swStable cal)).ret .none))

/-- DIAG (20_memory R68): no answer. -/
def execDiag (code : Code) (s : State) : StepOutcome :=
  whenInRun s (.next ((s.emit (.diag code)).ret .none))

/-- REPORT (20_memory R69). -/
def execReport (code : Code) (s : State) : StepOutcome :=
  whenInRun s (.next ((s.emit (.report code)).ret .none))

/-- NOW (20_memory R70): the time source's answer; an answer smaller than an earlier one is refused. -/
def execNow (s : State) : StepOutcome := whenInRun s (atTime s s.env.clock fun s' => .next (s'.ret (.time s.env.clock)))

/-- CANCEL_LEVEL (20_memory R71): no side effect. -/
def execCancelLevel (s : State) : StepOutcome :=
  whenInRun s (.next (s.ret (.bit s.env.cancel)))

end Sys2Proof.Machine
end

