-- ==== Sys2Proof/Machine/Dispatch.lean ====
section
/-! DEFINITION. exec: each instruction's meaning, one arm for each row of opcode_table.json. -/
namespace Sys2Proof.Machine
open Sys2Proof

def exec (i : Instr) (s : State) : Host.Outcome State Fault Refusal :=
  match i with
  | .frameB pot st r0 r1 => Sys2Proof.Machine.execFrameB pot st r0 r1 s
  | .frameBOtherLen p => Sys2Proof.Machine.execFrameBOtherLen p s
  | .frameBBadCrc p z => Sys2Proof.Machine.execFrameBBadCrc p z s
  | .frameBBadLenRange l => Sys2Proof.Machine.execFrameBBadLenRange l s
  | .frameA pots s1 s2 cr => Sys2Proof.Machine.execFrameA pots s1 s2 cr s
  | .lineADropped line => Sys2Proof.Machine.execLineADropped line s
  | .crc8Update c b => Sys2Proof.Machine.execCrc8Update c b s
  | .crc8 p => Sys2Proof.Machine.execCrc8 p s
  | .decByteB b => Sys2Proof.Machine.execDecByteB b s
  | .decByteA b => Sys2Proof.Machine.execDecByteA b s
  | .parseLine line => Sys2Proof.Machine.execParseLine line s
  | .parseInt field => Sys2Proof.Machine.execParseInt field s
  | .decodeCall => Sys2Proof.Machine.execDecodeCall s
  | .median w => Sys2Proof.Machine.execMedian w s
  | .swFeed k raw t => Sys2Proof.Machine.execSwFeed k raw t s
  | .axisMap k raw => Sys2Proof.Machine.execAxisMap k raw s
  | .loopStart => Sys2Proof.Machine.execLoopStart s
  | .loopIter => Sys2Proof.Machine.execLoopIter s
  | .processFrame f t => Sys2Proof.Machine.execProcessFrame f t s
  | .edgeTaps st => Sys2Proof.Machine.execEdgeTaps st s
  | .neutralPush => Sys2Proof.Machine.execNeutralPush s
  | .obsPublish t => Sys2Proof.Machine.execObsPublish t s
  | .loopStop cause => Sys2Proof.Machine.execLoopStop cause s
  | .rxRead => Sys2Proof.Machine.execRxRead s
  | .transportOpen port baud timeout => Sys2Proof.Machine.execTransportOpen port baud timeout s
  | .transportClose => Sys2Proof.Machine.execTransportClose s
  | .sinkAcquire dev => Sys2Proof.Machine.execSinkAcquire dev s
  | .sinkRelease => Sys2Proof.Machine.execSinkRelease s
  | .sinkUpdate axis btn => Sys2Proof.Machine.execSinkUpdate axis btn s
  | .keyTap name => Sys2Proof.Machine.execKeyTap name s
  | .obsEvent pot raw stable cal => Sys2Proof.Machine.execObsEvent pot raw stable cal s
  | .diag code => Sys2Proof.Machine.execDiag code s
  | .report code => Sys2Proof.Machine.execReport code s
  | .now => Sys2Proof.Machine.execNow s
  | .cancelLevel => Sys2Proof.Machine.execCancelLevel s

end Sys2Proof.Machine
end

