-- ==== Sys2Proof/Machine/Step.lean ====
section
/-! DEFINITION. One step of the machine: the next request of the event script (30_encoding R111) is taken and run. -/

namespace Sys2Proof.Machine

/-- One step. With nothing asked the worker waits and nothing changes (70 R310); an environment line changes the environment
alone; a request runs its instruction; a request that decodes to none is refused. -/
def step (s : State) : Host.Outcome State Fault Refusal :=
  match fetch s with
  | .wait => .next s
  | .environment s' => .next s'
  | .instruction i s' => exec i s'
  | .bad e => .refused (.undecodable e)

/-- `s` with the instruction of these table bits placed where `step` fetches, and enabled (log entry 10). -/
def State.withFetchWord (s : State) (nbits w : Nat) : State := loadTableWord s nbits w

end Sys2Proof.Machine
end

