-- ==== Sys2Proof/Safety.lean ====
section
/-! DEFINITION. What counts as a safe state and a safe run, in the terms the claims use: the invariants the rules state of
the block's registers, and the range of what it sends to the sink. -/

namespace Sys2Proof.Machine

/-- `Connecting` and `Stopping` are never observed between steps (10_state R22). -/
def RestsBetweenSteps (s : State) : Prop := s.loopState ≠ .connecting ∧ s.loopState ≠ .stopping

/-- `sink_held` and `transport_held` are true exactly in `Running` and `TimeoutNeutral` (60 R272 (1)). -/
def HoldsExactlyInRun (s : State) : Prop := s.sinkHeld = s.inRun ∧ s.transportHeld = s.inRun

/-- The ranges of the byte machine's registers (10_state R25) and what they mean while a payload is collected: the count and
the running CRC-8 are those of the collected bytes. -/
def DecoderBOk (d : Decoder) : Prop :=
  (d.bState = .payload →
    1 ≤ d.bLen ∧ d.bLen ≤ 32 ∧ d.bCnt < d.bLen ∧ d.bCnt ≤ d.bBuf.length ∧ d.bCrc = crc8Of (d.bBuf.take d.bCnt))
  ∧ (d.bState = .crc →
    1 ≤ d.bLen ∧ d.bLen ≤ 32 ∧ d.bCnt = d.bLen ∧ d.bBuf.length = d.bLen ∧ d.bCrc = crc8Of d.bBuf)

/-- The ranges of the line machine's registers (10_state R26): `a_ovf` is set only when the buffer is full, and the line in
progress holds no terminator. -/
def DecoderAOk (lineMax : Nat) (d : Decoder) : Prop :=
  d.aLen ≤ lineMax ∧ d.aLen ≤ d.aBuf.length ∧ (d.aOvf = true → d.aLen = lineMax) ∧ 0x0A#8 ∉ d.aBuf.take d.aLen

/-- A switch filter's window is within its size (10_state R30) and its times are not in the future (20_memory R70). -/
def FilterOk (cfg : Settings) (tLast : Nat) (f : SwitchFilter) : Prop :=
  f.win.length ≤ cfg.swW ∧ f.tCand ≤ tLast ∧ f.tStable ≤ tLast

/-- What holds of the registers while a run is in progress. -/
structure RunOk (s : State) : Prop where
  configWellFormed : wellFormedConfig s.params s.cfg = true
  formatLatched : s.cfg.wireFormat = some s.fmt
  noError : s.errCode = .none
  decoderB : DecoderBOk s.dec
  decoderA : DecoderAOk s.params.lineMax s.dec
  diagCapped : s.diagCount ≤ s.cfg.diagCap
  filter0 : FilterOk s.cfg s.tLast s.sw.p0
  filter1 : FilterOk s.cfg s.tLast s.sw.p1
  fifos : ∀ k : Fin 8, (s.fifo.get k).length ≤ s.cfg.n.get k
  lastFrameTime : s.tLastFrame ≤ s.tLast
  obsTime : s.tObs ≤ s.tLast
  idleDiagTime : s.tIdleDiag ≤ s.tLast
  idleMeansSilence : s.loopState = .timeoutNeutral → s.cfg.idleThreshold < s.tLast - s.tLastFrame

/-- The invariant of the machine. -/
structure Inv (s : State) : Prop where
  rests : RestsBetweenSteps s
  holds : HoldsExactlyInRun s
  run : s.inRun = true → RunOk s

/-- A snapshot's axis values lie in `1..32767` (00_scope R15). -/
def EventInRange : Event → Prop
  | .sinkUpdate axis _ => ∀ k : Fin 8, 1 ≤ axis.get k ∧ axis.get k ≤ 32767
  | _ => True

/-- Every snapshot sent so far is in range. -/
def OutputsInRange (s : State) : Prop := ∀ e ∈ s.out, EventInRange e

/-- A step that goes on. -/
def Completes (o : StepOutcome) : Prop := ∃ t, o = .next t

end Sys2Proof.Machine
end

