-- ==== Sys2Proof/Certificates/Slice0/Obligations.lean ====
section
/-! DEFINITION. The statements for the provers, and the reference terms they are written in (the tables the spec prints, the
accounting of a drop, the median of a sorted list, the rows of the transition table). No proof of an obligation stands here. -/

namespace Sys2Proof.Stated
open Sys2Proof.Machine

/-- Table T1 (40 R132), as the spec prints it: sixteen rows of sixteen entries. -/
def crcTable : List Byte :=
  [0x00#8, 0x5E#8, 0xBC#8, 0xE2#8, 0x61#8, 0x3F#8, 0xDD#8, 0x83#8, 0xC2#8, 0x9C#8, 0x7E#8, 0x20#8, 0xA3#8, 0xFD#8, 0x1F#8, 0x41#8]
  ++ [0x9D#8, 0xC3#8, 0x21#8, 0x7F#8, 0xFC#8, 0xA2#8, 0x40#8, 0x1E#8, 0x5F#8, 0x01#8, 0xE3#8, 0xBD#8, 0x3E#8, 0x60#8, 0x82#8, 0xDC#8]
  ++ [0x23#8, 0x7D#8, 0x9F#8, 0xC1#8, 0x42#8, 0x1C#8, 0xFE#8, 0xA0#8, 0xE1#8, 0xBF#8, 0x5D#8, 0x03#8, 0x80#8, 0xDE#8, 0x3C#8, 0x62#8]
  ++ [0xBE#8, 0xE0#8, 0x02#8, 0x5C#8, 0xDF#8, 0x81#8, 0x63#8, 0x3D#8, 0x7C#8, 0x22#8, 0xC0#8, 0x9E#8, 0x1D#8, 0x43#8, 0xA1#8, 0xFF#8]
  ++ [0x46#8, 0x18#8, 0xFA#8, 0xA4#8, 0x27#8, 0x79#8, 0x9B#8, 0xC5#8, 0x84#8, 0xDA#8, 0x38#8, 0x66#8, 0xE5#8, 0xBB#8, 0x59#8, 0x07#8]
  ++ [0xDB#8, 0x85#8, 0x67#8, 0x39#8, 0xBA#8, 0xE4#8, 0x06#8, 0x58#8, 0x19#8, 0x47#8, 0xA5#8, 0xFB#8, 0x78#8, 0x26#8, 0xC4#8, 0x9A#8]
  ++ [0x65#8, 0x3B#8, 0xD9#8, 0x87#8, 0x04#8, 0x5A#8, 0xB8#8, 0xE6#8, 0xA7#8, 0xF9#8, 0x1B#8, 0x45#8, 0xC6#8, 0x98#8, 0x7A#8, 0x24#8]
  ++ [0xF8#8, 0xA6#8, 0x44#8, 0x1A#8, 0x99#8, 0xC7#8, 0x25#8, 0x7B#8, 0x3A#8, 0x64#8, 0x86#8, 0xD8#8, 0x5B#8, 0x05#8, 0xE7#8, 0xB9#8]
  ++ [0x8C#8, 0xD2#8, 0x30#8, 0x6E#8, 0xED#8, 0xB3#8, 0x51#8, 0x0F#8, 0x4E#8, 0x10#8, 0xF2#8, 0xAC#8, 0x2F#8, 0x71#8, 0x93#8, 0xCD#8]
  ++ [0x11#8, 0x4F#8, 0xAD#8, 0xF3#8, 0x70#8, 0x2E#8, 0xCC#8, 0x92#8, 0xD3#8, 0x8D#8, 0x6F#8, 0x31#8, 0xB2#8, 0xEC#8, 0x0E#8, 0x50#8]
  ++ [0xAF#8, 0xF1#8, 0x13#8, 0x4D#8, 0xCE#8, 0x90#8, 0x72#8, 0x2C#8, 0x6D#8, 0x33#8, 0xD1#8, 0x8F#8, 0x0C#8, 0x52#8, 0xB0#8, 0xEE#8]
  ++ [0x32#8, 0x6C#8, 0x8E#8, 0xD0#8, 0x53#8, 0x0D#8, 0xEF#8, 0xB1#8, 0xF0#8, 0xAE#8, 0x4C#8, 0x12#8, 0x91#8, 0xCF#8, 0x2D#8, 0x73#8]
  ++ [0xCA#8, 0x94#8, 0x76#8, 0x28#8, 0xAB#8, 0xF5#8, 0x17#8, 0x49#8, 0x08#8, 0x56#8, 0xB4#8, 0xEA#8, 0x69#8, 0x37#8, 0xD5#8, 0x8B#8]
  ++ [0x57#8, 0x09#8, 0xEB#8, 0xB5#8, 0x36#8, 0x68#8, 0x8A#8, 0xD4#8, 0x95#8, 0xCB#8, 0x29#8, 0x77#8, 0xF4#8, 0xAA#8, 0x48#8, 0x16#8]
  ++ [0xE9#8, 0xB7#8, 0x55#8, 0x0B#8, 0x88#8, 0xD6#8, 0x34#8, 0x6A#8, 0x2B#8, 0x75#8, 0x97#8, 0xC9#8, 0x4A#8, 0x14#8, 0xF6#8, 0xA8#8]
  ++ [0x74#8, 0x2A#8, 0xC8#8, 0x96#8, 0x15#8, 0x4B#8, 0xA9#8, 0xF7#8, 0xB6#8, 0xE8#8, 0x0A#8, 0x54#8, 0xD7#8, 0x89#8, 0x6B#8, 0x35#8]

/-- Table T2 (42 R198), as the spec prints it: thirty-two rows of eight entries. -/
def scaleTable : List Nat :=
  [0, 128, 257, 385, 514, 642, 771, 899]
  ++ [1028, 1156, 1285, 1413, 1542, 1670, 1799, 1927]
  ++ [2056, 2184, 2313, 2441, 2570, 2698, 2827, 2955]
  ++ [3084, 3212, 3341, 3469, 3598, 3726, 3855, 3983]
  ++ [4112, 4240, 4369, 4497, 4626, 4754, 4883, 5011]
  ++ [5140, 5268, 5397, 5525, 5654, 5782, 5911, 6039]
  ++ [6168, 6296, 6425, 6553, 6682, 6810, 6939, 7067]
  ++ [7196, 7324, 7453, 7581, 7710, 7838, 7967, 8095]
  ++ [8224, 8352, 8481, 8609, 8738, 8866, 8995, 9123]
  ++ [9252, 9380, 9509, 9637, 9766, 9894, 10023, 10151]
  ++ [10280, 10408, 10537, 10665, 10794, 10922, 11051, 11179]
  ++ [11308, 11436, 11565, 11693, 11822, 11950, 12079, 12207]
  ++ [12336, 12464, 12593, 12721, 12850, 12978, 13107, 13235]
  ++ [13364, 13492, 13621, 13749, 13878, 14006, 14135, 14263]
  ++ [14392, 14520, 14649, 14777, 14906, 15034, 15163, 15291]
  ++ [15420, 15548, 15677, 15805, 15934, 16062, 16191, 16319]
  ++ [16448, 16576, 16705, 16833, 16962, 17090, 17219, 17347]
  ++ [17476, 17604, 17733, 17861, 17990, 18118, 18247, 18375]
  ++ [18504, 18632, 18761, 18889, 19018, 19146, 19275, 19403]
  ++ [19532, 19660, 19789, 19917, 20046, 20174, 20303, 20431]
  ++ [20560, 20688, 20817, 20945, 21074, 21202, 21331, 21459]
  ++ [21588, 21716, 21845, 21973, 22102, 22230, 22359, 22487]
  ++ [22616, 22744, 22873, 23001, 23130, 23258, 23387, 23515]
  ++ [23644, 23772, 23901, 24029, 24158, 24286, 24415, 24543]
  ++ [24672, 24800, 24929, 25057, 25186, 25314, 25443, 25571]
  ++ [25700, 25828, 25957, 26085, 26214, 26342, 26471, 26599]
  ++ [26728, 26856, 26985, 27113, 27242, 27370, 27499, 27627]
  ++ [27756, 27884, 28013, 28141, 28270, 28398, 28527, 28655]
  ++ [28784, 28912, 29041, 29169, 29298, 29426, 29555, 29683]
  ++ [29812, 29940, 30069, 30197, 30326, 30454, 30583, 30711]
  ++ [30840, 30968, 31097, 31225, 31354, 31482, 31611, 31739]
  ++ [31868, 31996, 32125, 32253, 32382, 32510, 32639, 32767]

/-- The running checksum after one byte, by table T1 (40 R132). -/
def crcByTable (c b : Byte) : Byte := crcTable.getD (c ^^^ b).toNat 0

/-- The accounting of `drop(code)` (40 R145). -/
def afterDrop (code : Code) (s : State) : State :=
  if s.diagCount < s.cfg.diagCap then { s with diagCount := s.diagCount + 1, out := s.out ++ [.diag code] } else s

/-- The seven codes of `drop` (40 R145). -/
def dropCodes : List Code :=
  [.badLenRange, .badCrc, .badLen, .emptyLine, .fieldCount, .notInteger, .lineTooLong]

/-- The operation that absorbs one byte in a wire format (40 R146). -/
def byteOp (fmt : WireFormat) (b : Byte) : Instr :=
  match fmt with
  | .A => .decByteA b
  | .B => .decByteB b

/-- The receive queue holds `q`. -/
def withQueue (q : List Byte) (s : State) : State := { s with env := { s.env with rxq := q } }

/-- The wire format A registers are the same in two decoders (10_state R26). -/
def sameLineRegisters (d d' : Decoder) : Prop := d'.aBuf = d.aBuf ∧ d'.aLen = d.aLen ∧ d'.aOvf = d.aOvf

/-- The wire format B registers are the same in two decoders (10_state R24, R25). -/
def sameFrameRegisters (d d' : Decoder) : Prop :=
  d'.bState = d.bState ∧ d'.bLen = d.bLen ∧ d'.bCnt = d.bCnt ∧ d'.bCrc = d.bCrc ∧ d'.bBuf = d.bBuf

/-- No frame is in progress in wire format B: the next byte starts the search, or the last byte may be the marker's first. -/
def searching (d : Decoder) : Prop := d.bState = .hunt ∨ d.bState = .gotAA

/-- No unit is in progress in the format of the run. -/
def atUnitStart (s : State) : Prop :=
  match s.fmt with
  | .A => s.dec.aLen = 0 ∧ s.dec.aOvf = false
  | .B => searching s.dec

/-- `clamp(v, 0, 255)` as a byte (40 R143, 42 R191). -/
def saturated (v : Int) : Byte := BitVec.ofNat 8 (max 0 (min v 255)).toNat

/-- The Frame of eleven payload bytes (40 R139). -/
def frameOfPayload (pot : Lanes Byte) (status : Byte) : Frame :=
  { pot := pot
    swRaw := ⟨if status.getLsbD 0 then 255 else 0, if status.getLsbD 1 then 255 else 0⟩
    cal := status.getLsbD 2 }

/-- The Frame of ten field values (40 R144). -/
def frameOfFields (v : Lanes Int) (v8 v9 : Int) : Frame :=
  { pot := Lanes.ofFn fun k => saturated (v.get k), swRaw := ⟨saturated v8, saturated v9⟩, cal := false }

/-- The fields of a line put back together with a comma between each two (30_encoding R94). -/
def joinFields (fields : List (List Byte)) : List Byte := [0x2C#8].intercalate fields

/-- The decimal number that digits spell (30_encoding R95). -/
def spelled (digits : List Byte) : Nat := digits.foldl (fun m d => 10 * m + (d.toNat - 0x30)) 0

/-- The grammar of a field that parses as an integer, with its value (30_encoding R95). -/
def Spells (field : List Byte) (v : Int) : Prop :=
  ∃ lead sign digits trail,
    field = lead ++ sign ++ digits ++ trail ∧
    (∀ b ∈ lead, b = 0x20#8 ∨ b = 0x09#8) ∧ (∀ b ∈ trail, b = 0x20#8 ∨ b = 0x09#8) ∧
    digits ≠ [] ∧ (∀ d ∈ digits, 0x30 ≤ d.toNat ∧ d.toNat ≤ 0x39) ∧
    ((sign = [] ∨ sign = [0x2B#8]) ∧ v = spelled digits ∨ sign = [0x2D#8] ∧ v = -(spelled digits : Int))

/-- The median of a list already in order (41 R172). -/
def middle (l : List Nat) : Nat :=
  if l.length % 2 = 1 then l.getD ((l.length - 1) / 2) 0
  else (l.getD (l.length / 2 - 1) 0 + l.getD (l.length / 2) 0) / 2

/-- A list in order that holds the readings of a window (41 R172). -/
def SortedReadings (win : List Byte) (l : List Nat) : Prop := l.Perm (win.map BitVec.toNat) ∧ l.Pairwise (· ≤ ·)

/-- The window after the push (41 R171). -/
def pushed (size : Nat) (win : List Byte) (raw : Byte) : List Byte :=
  (if win.length = size then win.tail else win) ++ [raw]

/-- A filter after a feed whose median is `m` (41 R173 to R177). -/
def fed (cfg : Settings) (f : SwitchFilter) (raw : Byte) (m : Nat) (now : Nat) : SwitchFilter :=
  let cand := if m ≤ cfg.swLow then false else if cfg.swHigh ≤ m then true else f.cand
  let tCand := if cand = f.cand then f.tCand else now
  if f.tStable + cfg.swSticky ≤ now ∧ tCand + cfg.swDebounce ≤ now ∧ cand ≠ f.stable then
    { win := pushed cfg.swW f.win raw, stable := cand, cand := cand, tCand := tCand, tStable := now }
  else { win := pushed cfg.swW f.win raw, stable := f.stable, cand := cand, tCand := tCand, tStable := f.tStable }

/-- The times at which switch `i` commits while it is fed a list of readings (41 R176). -/
def commitTimes (i : Fin 2) : List (Byte × Nat) → State → List Nat
  | [], _ => []
  | (raw, t) :: feeds, s =>
    match exec (.swFeed i raw t) s with
    | .next s' =>
      if (s'.sw.get i).stable = (s.sw.get i).stable then commitTimes i feeds s' else t :: commitTimes i feeds s'
    | .fault _ => []
    | .refused _ => []

/-- AXIS_MAP after the smoothing: the deadzone snap, the inversion and the scale table with its clamp (42 R193 to R198). -/
def axisOutput (dz : Nat) (inv : Bool) (v : Nat) : Nat :=
  let v := if 128 ≤ v + dz ∧ v ≤ 127 + dz then 128 else v
  let v := if inv then 255 - v else v
  max 1 (min (scaleTable.getD v 0) 32767)

/-- `AXIS_MAP(k, v) = y` in every lane without smoothing that has this deadzone and inversion (42 R201). -/
def MapsTo (dz : Nat) (inv : Bool) (v y : Nat) : Prop :=
  ∀ (s : State) (k : Fin 8), s.inRun = true → s.cfg.n.get k = 0 → s.cfg.dz.get k = dz → s.cfg.inv.get k = inv →
    exec (.axisMap k v) s = .next { s with result := .number y }

/-- The neutral snapshot (43 R218). -/
def neutral : Event := .sinkUpdate (Lanes.all 16448) (Pair.all false)

/-- A well-formed configuration (00_scope R14), each range spelled out (00_scope R12, 10_state R40 to R48). -/
def WellFormed (p : Params) (c : Settings) : Prop :=
  c.wireFormat ≠ none ∧ 39 ≤ p.lineMax ∧ 1 ≤ p.wMax ∧ 1 ≤ p.ticksPerUnit ∧
  1 ≤ c.swW ∧ c.swW ≤ p.wMax ∧ c.swLow < c.swHigh ∧ c.swHigh ≤ 255 ∧
  (∀ k, c.dz.get k ≤ 255) ∧ (∀ k, c.n.get k ≤ p.nMax) ∧ 0 < c.idleThreshold ∧ 0 < c.idleDiagInterval

/-- The next answer of a call is `ok`; past the end of the list it is (30_encoding R111, log entry 3). -/
def answersOk (l : List Bool) : Prop := l.headD true = true

/-- The state after LOOP_STOP (43 R225): the neutral snapshot, the transport closed, the sink released, the cause saved and,
unless it is NONE, reported. -/
def stoppedBy (cause : Code) (s : State) : State :=
  { s with
    loopState := .stopped
    transportHeld := false
    sinkHeld := false
    errCode := cause
    env := { s.env with sinkAns := s.env.sinkAns.tail }
    out := s.out ++ [neutral, .transportClose, .sinkRelease] ++ (if cause = .none then [] else [.report cause])
    result := .none }

/-- The state after one snapshot was pushed: its event, and one answer of the sink taken (20_memory R65). -/
def pushedSnapshot (e : Event) (s : State) : State :=
  { s with out := s.out ++ [e], env := { s.env with sinkAns := s.env.sinkAns.tail } }

/-- Switch `i` is due a tap (43 R217). -/
def tapDue (i : Fin 2) (st : Pair Bool) (s : State) : Prop :=
  s.firstSeen = false ∨ st.get i ≠ s.lastEmitted.get i

/-- The key name of switch `i` in the state `st` gives it (43 R217). -/
def tapKey (i : Fin 2) (st : Pair Bool) (s : State) : KeyName :=
  if st.get i = true then s.cfg.keyOn.get i else s.cfg.keyOff.get i

/-- The state after one tap, taken or failed (43 R217, 60 R267). -/
def afterTap (name : KeyName) (s : State) : State :=
  { s with
    out := s.out ++ (if s.env.keyAns.headD true = true then [.keyTap name] else [.keyTap name, .diag .keyInjectionFailure])
    env := { s.env with keyAns := s.env.keyAns.tail } }

/-- The state after OBS_PUBLISH at `now` (43 R224). -/
def afterObserver (now : Nat) (s : State) : State :=
  { s with
    tObs := now
    out := s.out ++ [.obsPublish s.lastFrame.pot s.lastFrame.swRaw ⟨s.sw.p0.stable, s.sw.p1.stable⟩ s.lastFrame.cal] }

/-- The decode call made in a state gives `r`. -/
def CallGives (s : State) (r : CallResult) : Prop := ∃ d, exec .decodeCall s = .next d ∧ d.result = .call r

/-- A decode call that gives no frame (40 R146). -/
def NoFrame (r : CallResult) : Prop := r = .empty ∨ ∃ code, r = .dropped code

/-- No or one diagnostic of a drop (43 R226). -/
def DropDiag (evs : List Event) : Prop := evs = [] ∨ ∃ code ∈ dropCodes, evs = [.diag code]

/-- No or one key tap, perhaps followed by its diagnostic (43 R226). -/
def TapGroup (evs : List Event) : Prop :=
  evs = [] ∨ ∃ name, evs = [.keyTap name] ∨ evs = [.keyTap name, .diag .keyInjectionFailure]

/-- The events of an iteration that processes a frame (43 R226). -/
def FrameEvents (evs : List Event) : Prop :=
  ∃ axis btn g0 g1 obs, evs = .sinkUpdate axis btn :: (g0 ++ g1 ++ obs) ∧ TapGroup g0 ∧ TapGroup g1 ∧
    (obs = [] ∨ ∃ pot raw st cal, obs = [.obsPublish pot raw st cal])

/-- The events of the stop sequence with a failed sink (43 R225, R226). -/
def failureTail : List Event := [neutral, .transportClose, .sinkRelease, .report .outputSinkFailure]

/-- The rows of the transition table for LOOP_ITER (43 R226): the state it starts in, the state it ends in, its events. -/
inductive IterRow (s : State) : LoopState → List Event → Prop
  | frame (f : Frame) (evs : List Event) :
      s.env.cancel = false → CallGives s (.frame f) → answersOk s.env.sinkAns → FrameEvents evs →
      IterRow s .running evs
  | frameSinkFails (f : Frame) (axis : Lanes Nat) (btn : Pair Bool) :
      s.env.cancel = false → CallGives s (.frame f) → ¬ answersOk s.env.sinkAns →
      IterRow s .stopped (.sinkUpdate axis btn :: failureTail)
  | quiet (r : CallResult) (d : List Event) :
      s.loopState = .running → s.env.cancel = false → CallGives s r → NoFrame r →
      s.env.clock ≤ s.tLastFrame + s.cfg.idleThreshold → DropDiag d →
      IterRow s .running d
  | idleEntry (r : CallResult) (d : List Event) :
      s.loopState = .running → s.env.cancel = false → CallGives s r → NoFrame r →
      s.tLastFrame + s.cfg.idleThreshold < s.env.clock → answersOk s.env.sinkAns → DropDiag d →
      IterRow s .timeoutNeutral (d ++ [.diag .idleTimeout, neutral])
  | idleEntrySinkFails (r : CallResult) (d : List Event) :
      s.loopState = .running → s.env.cancel = false → CallGives s r → NoFrame r →
      s.tLastFrame + s.cfg.idleThreshold < s.env.clock → ¬ answersOk s.env.sinkAns → DropDiag d →
      IterRow s .stopped (d ++ [.diag .idleTimeout, neutral] ++ failureTail)
  | idle (r : CallResult) (d i : List Event) :
      s.loopState = .timeoutNeutral → s.env.cancel = false → CallGives s r → NoFrame r → answersOk s.env.sinkAns →
      DropDiag d → i = [] ∨ i = [.diag .idleTimeout] →
      IterRow s .timeoutNeutral (d ++ i ++ [neutral])
  | idleSinkFails (r : CallResult) (d i : List Event) :
      s.loopState = .timeoutNeutral → s.env.cancel = false → CallGives s r → NoFrame r → ¬ answersOk s.env.sinkAns →
      DropDiag d → i = [] ∨ i = [.diag .idleTimeout] →
      IterRow s .stopped (d ++ i ++ [neutral] ++ failureTail)
  | cancelled :
      s.env.cancel = true → IterRow s .stopped [neutral, .transportClose, .sinkRelease]

/-- The rows of the transition table for LOOP_START (43 R226). -/
inductive StartRow (s : State) : LoopState → List Event → Prop
  | runs : answersOk s.env.acquireAns → answersOk s.env.openAns →
      StartRow s .running
        [.sinkAcquire s.env.hostCfg.outDeviceId,
          .transportOpen s.env.hostCfg.portName s.env.hostCfg.baudRate s.env.hostCfg.readTimeout]
  | noSink : ¬ answersOk s.env.acquireAns →
      StartRow s .stopped [.sinkAcquire s.env.hostCfg.outDeviceId, .report .outputSinkFailure]
  | noTransport : answersOk s.env.acquireAns → ¬ answersOk s.env.openAns →
      StartRow s .stopped
        [.sinkAcquire s.env.hostCfg.outDeviceId,
          .transportOpen s.env.hostCfg.portName s.env.hostCfg.baudRate s.env.hostCfg.readTimeout,
          neutral, .sinkRelease, .report .transportOpenFailure]

/-- The host's own configuration replaced. -/
def withHostConfig (c : Settings) (s : State) : State := { s with env := { s.env with hostCfg := c } }

/-- An outcome with its next state changed. -/
def mapNext (g : State → State) : StepOutcome → StepOutcome
  | .next s => .next (g s)
  | .fault r => .fault r
  | .refused r => .refused r

/-- Whether an event is a report. -/
def isReport : Event → Bool
  | .report _ => true
  | _ => false

/-- Whether an event is an observer snapshot. -/
def isSnapshot : Event → Bool
  | .obsPublish _ _ _ _ => true
  | _ => false

end Sys2Proof.Stated

section Statements
open Sys2Proof Sys2Proof.Machine Sys2Proof.Stated

/-! Encoding. -/

/-- Decoding the encoding of a well-formed instruction gives it back, in the wire format it belongs to. -/
def Obligations.EncodedInstructionsDecodeToThemselves : Prop :=
  ∀ (i : Instr) (fmt : WireFormat), i.wf = true → (∀ f, i.wireFormat = some f → f = fmt) →
    decode fmt (encode i) = .ok i

/-- Each encoding has one meaning: what was decoded is well formed, belongs to the wire format it was decoded in, and its
encoding is what was decoded. -/
def Obligations.DecodedInstructionsEncodeBack : Prop :=
  ∀ (fmt : WireFormat) (e : Encoding) (i : Instr), decode fmt e = .ok i →
    i.wf = true ∧ (∀ f, i.wireFormat = some f → f = fmt) ∧ encode i = e

/-- A unit's end is found whatever bytes follow it (30_encoding R107). -/
def Obligations.WireUnitsEndWhereTheySay : Prop :=
  ∀ (i : Instr) (f : WireFormat) (rest : List Byte), i.wf = true → i.wireFormat = some f →
    decodeWire f (encodeWire i ++ rest) = .ok (i, rest)

/-- The identifiers of 30_encoding R110 and the two fixed-width wire rows decode to the instruction they stand for; operand
words are zeros (the layout of operand words is the model's choice, log entry 8). -/
def Obligations.TableWordsDecode : Prop :=
  decodeTableWord 8 0x01 = some (.crc8Update 0 0) ∧ decodeTableWord 8 0x02 = some (.crc8 []) ∧
  decodeTableWord 8 0x03 = some (.decByteB 0) ∧ decodeTableWord 8 0x04 = some (.decByteA 0) ∧
  decodeTableWord 8 0x05 = some (.parseLine []) ∧ decodeTableWord 8 0x06 = some (.parseInt []) ∧
  decodeTableWord 8 0x07 = some .decodeCall ∧ decodeTableWord 8 0x10 = some (.median [0]) ∧
  decodeTableWord 8 0x11 = some (.swFeed 0 0 0) ∧ decodeTableWord 8 0x18 = some (.axisMap 0 0) ∧
  decodeTableWord 8 0x20 = some .loopStart ∧ decodeTableWord 8 0x21 = some .loopIter ∧
  decodeTableWord 8 0x22 = some (.processFrame zeroFrame 0) ∧ decodeTableWord 8 0x23 = some (.edgeTaps ⟨false, false⟩) ∧
  decodeTableWord 8 0x24 = some .neutralPush ∧ decodeTableWord 8 0x25 = some (.obsPublish 0) ∧
  decodeTableWord 8 0x26 = some (.loopStop .none) ∧ decodeTableWord 8 0x30 = some .rxRead ∧
  decodeTableWord 8 0x31 = some (.transportOpen 0 0 0) ∧ decodeTableWord 8 0x32 = some .transportClose ∧
  decodeTableWord 8 0x33 = some (.sinkAcquire 0) ∧ decodeTableWord 8 0x34 = some .sinkRelease ∧
  decodeTableWord 8 0x35 = some (.sinkUpdate (Lanes.all 1) ⟨false, false⟩) ∧ decodeTableWord 8 0x36 = some (.keyTap 0) ∧
  decodeTableWord 8 0x37 = some (.obsEvent (Lanes.all 0) ⟨0, 0⟩ ⟨false, false⟩ false) ∧
  decodeTableWord 8 0x38 = some (.diag .none) ∧ decodeTableWord 8 0x39 = some (.report .none) ∧
  decodeTableWord 8 0x3A = some .now ∧ decodeTableWord 8 0x3B = some .cancelLevel ∧
  decodeTableWord 24 0xAA550B = some (.frameB (Lanes.all 0) 0 0 0) ∧
  decodeTableWord 24 0xAA5500 = some (.frameBBadLenRange 0) ∧ decodeTableWord 24 0xAA5521 = some (.frameBBadLenRange 33)

/-! The step. -/

/-- A step runs the instruction its request decodes to; an environment line changes the environment alone; with nothing asked
nothing happens (the requests, how they are laid out and the environment's lines are the model's choice, log entries 2, 8, 11,
22 and 30). -/
def Obligations.StepRunsTheDecodedInstruction : Prop :=
  ∀ s : State,
    (s.env.inputs = [] → step s = .next s) ∧
    (∀ ws rest i, s.env.inputs = .op ws :: rest → decode s.fmt (.words ws) = .ok i →
      step s = exec i { s with env := { s.env with inputs := rest } }) ∧
    (∀ ws rest e, s.env.inputs = .op ws :: rest → decode s.fmt (.words ws) = .error e →
      step s = .refused (.undecodable e)) ∧
    (∀ rest i after, s.env.inputs = .unit :: rest → decodeWire s.fmt s.env.rxq = .ok (i, after) →
      step s = exec i { s with env := { s.env with inputs := rest, rxq := after } }) ∧
    (∀ rest e, s.env.inputs = .unit :: rest → decodeWire s.fmt s.env.rxq = .error e →
      step s = .refused (.undecodable e)) ∧
    (∀ bytes rest, s.env.inputs = .rx bytes :: rest →
      step s = .next { s with env := { s.env with rxq := s.env.rxq ++ bytes, inputs := rest } }) ∧
    (∀ count rest, s.env.inputs = .discard count :: rest →
      step s = .next { s with
        env := { s.env with rxq := if s.transportHeld then s.env.rxq else s.env.rxq.drop count, inputs := rest } }) ∧
    (∀ t rest, s.env.inputs = .time t :: rest →
      step s = .next { s with env := { s.env with clock := t, inputs := rest } }) ∧
    (∀ level rest, s.env.inputs = .cancel level :: rest →
      step s = .next { s with env := { s.env with cancel := level, inputs := rest } }) ∧
    (∀ c rest, s.env.inputs = .config c :: rest →
      step s = .next { s with env := { s.env with hostCfg := c, inputs := rest } }) ∧
    (∀ a o k y rest, s.env.inputs = .answers a o k y :: rest →
      step s = .next { s with
        env := { s.env with acquireAns := a, openAns := o, sinkAns := k, keyAns := y, inputs := rest } })

/-- Each of the six wire rows is its bytes at the head of the receive queue and one decode call. -/
def Obligations.WireRowsAreOneDecodeCall : Prop :=
  ∀ (s : State) (i : Instr), s.inRun = true → i.wireFormat ≠ none →
    exec i s = exec .decodeCall (withQueue (encodeWire i ++ s.env.rxq) s)

/-- Asking for the unit at the head of the receive queue is asking for a decode call on that queue. -/
def Obligations.UnitRequestsDecodeTheQueueAsItStands : Prop :=
  ∀ (s : State) (rest : List Input) (i : Instr) (after : List Byte), s.inRun = true →
    s.env.inputs = .unit :: rest → decodeWire s.fmt s.env.rxq = .ok (i, after) →
    step s = exec .decodeCall { s with env := { s.env with inputs := rest } }

/-! The frame decoder. -/

/-- CRC8_UPDATE asked for in a run (10_state R50) is the table form on every pair of bytes (40 R132), and writes nothing but
its result. -/
def Obligations.Crc8UpdateIsTheTableForm : Prop :=
  ∀ (s : State) (c b : Byte), s.inRun = true →
    exec (.crc8Update c b) s = .next { s with result := .byte (crcTable.getD (c ^^^ b).toNat 0) }

/-- CRC8 of a payload (40 R131), asked for in a run (10_state R50): the table form folded from 0x00, its corner cases, and
nothing written but its result. -/
def Obligations.Crc8FoldsThePayloadFromZero : Prop :=
  ∀ (s : State) (p : List Byte), s.inRun = true →
    exec (.crc8 p) s = .next { s with result := .byte (p.foldl crcByTable 0x00#8) } ∧
    exec (.crc8 (p ++ [p.foldl crcByTable 0x00#8])) s = .next { s with result := .byte 0x00#8 } ∧
    ∀ n, exec (.crc8 (List.replicate n 0x00#8)) s = .next { s with result := .byte 0x00#8 }

/-- The byte machine of wire format B, state by state (40 R133 to R138), with its frame. The buffer is spoken of slot by slot:
how it is held is the model's (log entry 15). -/
def Obligations.FormatBByteMachine : Prop :=
  ∀ (s : State) (b : Byte), s.inRun = true →
    (s.dec.bState = .hunt →
      (b = 0xAA#8 →
        exec (.decByteB b) s = .next { s with dec := { s.dec with bState := .gotAA }, result := .decoded .nothing }) ∧
      (b ≠ 0xAA#8 → exec (.decByteB b) s = .next { s with result := .decoded .nothing })) ∧
    (s.dec.bState = .gotAA →
      (b = 0x55#8 →
        exec (.decByteB b) s = .next { s with dec := { s.dec with bState := .len }, result := .decoded .nothing }) ∧
      (b = 0xAA#8 → exec (.decByteB b) s = .next { s with result := .decoded .nothing }) ∧
      (b ≠ 0x55#8 → b ≠ 0xAA#8 →
        exec (.decByteB b) s = .next { s with dec := { s.dec with bState := .hunt }, result := .decoded .nothing })) ∧
    (s.dec.bState = .len →
      (1 ≤ b.toNat ∧ b.toNat ≤ 32 →
        exec (.decByteB b) s = .next { s with
          dec := { s.dec with bLen := b.toNat, bCnt := 0, bCrc := 0x00#8, bState := .payload }
          result := .decoded .nothing }) ∧
      (¬ (1 ≤ b.toNat ∧ b.toNat ≤ 32) →
        exec (.decByteB b) s =
          .next { afterDrop .badLenRange { s with dec := { s.dec with bState := .hunt } } with
            result := .decoded (.dropped .badLenRange) })) ∧
    (s.dec.bState = .payload → s.dec.bCnt ≤ s.dec.bBuf.length →
      ∃ buf, (∀ j, j < s.dec.bCnt → buf[j]? = s.dec.bBuf[j]?) ∧ buf[s.dec.bCnt]? = some b ∧
        exec (.decByteB b) s = .next { s with
          dec := { s.dec with
            bBuf := buf
            bCrc := crcByTable s.dec.bCrc b
            bCnt := s.dec.bCnt + 1
            bState := if s.dec.bCnt + 1 = s.dec.bLen then .crc else .payload }
          result := .decoded .nothing }) ∧
    (s.dec.bState = .crc →
      (b ≠ s.dec.bCrc →
        exec (.decByteB b) s =
          .next { afterDrop .badCrc { s with dec := { s.dec with bState := .hunt } } with
            result := .decoded (.dropped .badCrc) }) ∧
      (b = s.dec.bCrc → s.dec.bLen ≠ 11 →
        exec (.decByteB b) s =
          .next { afterDrop .badLen { s with dec := { s.dec with bState := .hunt } } with
            result := .decoded (.dropped .badLen) }) ∧
      (b = s.dec.bCrc → s.dec.bLen = 11 → ∀ pot status rsv0 rsv1, s.dec.bBuf = pot.toList ++ [status, rsv0, rsv1] →
        exec (.decByteB b) s =
          .next { s with
            dec := { s.dec with bState := .hunt }
            result := .decoded (.frame (frameOfPayload pot status)) }))

/-- FRAME_B met while no frame is in progress gives its Frame, consumes exactly its bytes and writes nothing but the wire
format B registers (40 R139; R104: the reserved bytes and status bits 7 to 3 do not matter). -/
def Obligations.WholeFrameBIsAccepted : Prop :=
  ∀ (s : State) (pot : Lanes Byte) (status rsv0 rsv1 : Byte), s.inRun = true → s.fmt = .B → searching s.dec →
    ∃ d, sameLineRegisters s.dec d ∧ d.bState = .hunt ∧
      exec (.frameB pot status rsv0 rsv1) s =
        .next { s with dec := d, result := .call (.frame (frameOfPayload pot status)) }

/-- The three wire format B rows that carry no Frame, met while no frame is in progress: all their bytes are consumed and each
is dropped with its code (40 R136, R138, R145). -/
def Obligations.BadFramesOfFormatBAreDropped : Prop :=
  ∀ (s : State) (i : Instr) (code : Code), s.inRun = true → s.fmt = .B → searching s.dec → i.wf = true →
    ((∃ p, i = .frameBOtherLen p) ∧ code = .badLen ∨ (∃ p z, i = .frameBBadCrc p z) ∧ code = .badCrc ∨
      (∃ l, i = .frameBBadLenRange l) ∧ code = .badLenRange) →
    ∃ d, sameLineRegisters s.dec d ∧ d.bState = .hunt ∧
      exec i s = .next { afterDrop code { s with dec := d } with result := .call (.dropped code) }

/-- The decoder operations never fail outward (40 R147): in a run each answers with one of its results, in every decoder state
and for every queue. -/
def Obligations.DecoderIsTotalInARun : Prop :=
  ∀ s : State, s.inRun = true →
    (∀ b, ∃ t r, exec (.decByteA b) s = .next t ∧ t.result = .decoded r) ∧
    (∀ b, ∃ t r, exec (.decByteB b) s = .next t ∧ t.result = .decoded r) ∧
    (∃ t r, exec .decodeCall s = .next t ∧ t.result = .call r)

/-- DECODE_CALL (40 R146): an empty queue ends it with EMPTY; else the first byte is taken and absorbed, and the call goes on,
or ends with the Frame or the drop and leaves the bytes after it. -/
def Obligations.DecodeCallTakesOneByteAtATime : Prop :=
  ∀ s : State, s.inRun = true →
    (s.env.rxq = [] → exec .decodeCall s = .next { s with result := .call .empty }) ∧
    (∀ b q, s.env.rxq = b :: q →
      ∃ t r, exec (byteOp s.fmt b) (withQueue q s) = .next t ∧ t.result = .decoded r ∧
        exec .decodeCall s =
          match r with
          | .nothing => exec .decodeCall t
          | .frame f => .next { t with result := .call (.frame f) }
          | .dropped code => .next { t with result := .call (.dropped code) })

/-- Partial data is kept (10_state R28, 40 R150), and bytes after the one that ended a call stay in the queue (40 R146): a
call on a longer queue is the call on its beginning, continued only if that one found nothing. -/
def Obligations.DecodingGoesOnWhereItStopped : Prop :=
  ∀ (s t : State) (q1 q2 : List Byte), s.inRun = true → exec .decodeCall (withQueue q1 s) = .next t →
    (t.result = .call .empty →
      t = { withQueue [] s with dec := t.dec, result := .call .empty } ∧
      exec .decodeCall (withQueue (q1 ++ q2) s) = exec .decodeCall (withQueue q2 t)) ∧
    (t.result ≠ .call .empty →
      exec .decodeCall (withQueue (q1 ++ q2) s) = .next (withQueue (t.env.rxq ++ q2) t))

/-- A truncated unit gives no frame, no diagnostic and no other change than the decoder's registers (40 R150). -/
def Obligations.TruncatedUnitsGiveNoFrame : Prop :=
  ∀ (s : State) (i : Instr) (bs missing : List Byte), s.inRun = true → atUnitStart s → i.wf = true →
    i.wireFormat = some s.fmt → encodeWire i = bs ++ missing → missing ≠ [] →
    ∃ d, exec .decodeCall (withQueue bs s) = .next { withQueue [] s with dec := d, result := .call .empty }

/-- A frame with one payload byte altered and its checksum left is dropped with BAD_CRC, whatever the byte; two altered bytes
can pass (40 R152). -/
def Obligations.OneAlteredByteIsAlwaysCaught : Prop :=
  (∀ (s : State) (p q : List Byte) (k : Nat) (b : Byte), s.inRun = true → s.fmt = .B → searching s.dec →
    p.length ≤ 32 → k < p.length → p[k]? ≠ some b →
    ∃ d, sameLineRegisters s.dec d ∧ d.bState = .hunt ∧
      exec .decodeCall (withQueue (framedB (p.set k b) (p.foldl crcByTable 0x00#8) ++ q) s) =
        .next { afterDrop .badCrc { withQueue q s with dec := d } with result := .call (.dropped .badCrc) }) ∧
  (∃ p p' : List Byte, p.length = 11 ∧ p'.length = 11 ∧ p ≠ p' ∧ p.foldl crcByTable 0x00#8 = p'.foldl crcByTable 0x00#8 ∧
    ∃ j k : Nat, j ≠ k ∧ ∀ n : Nat, n ≠ j → n ≠ k → p[n]? = p'[n]?)

/-- DEC_BYTE_A (40 R140), with its frame: bytes up to LINE_MAX are stored, more set the overflow flag, the terminator clears
both and drops the line or parses it. -/
def Obligations.FormatALineMachine : Prop :=
  ∀ (s : State) (b : Byte), s.inRun = true → s.dec.aLen ≤ s.dec.aBuf.length →
    (b ≠ 0x0A#8 → s.dec.aLen < s.params.lineMax →
      ∃ buf, (∀ j, j < s.dec.aLen → buf[j]? = s.dec.aBuf[j]?) ∧ buf[s.dec.aLen]? = some b ∧
        exec (.decByteA b) s =
          .next { s with dec := { s.dec with aBuf := buf, aLen := s.dec.aLen + 1 }, result := .decoded .nothing }) ∧
    (b ≠ 0x0A#8 → s.params.lineMax ≤ s.dec.aLen →
      exec (.decByteA b) s = .next { s with dec := { s.dec with aOvf := true }, result := .decoded .nothing }) ∧
    (b = 0x0A#8 → s.dec.aOvf = true →
      exec (.decByteA b) s =
        .next { afterDrop .lineTooLong { s with dec := { s.dec with aLen := 0, aOvf := false } } with
          result := .decoded (.dropped .lineTooLong) }) ∧
    (b = 0x0A#8 → s.dec.aOvf = false →
      exec (.decByteA b) s =
        exec (.parseLine (s.dec.aBuf.take s.dec.aLen)) { s with dec := { s.dec with aLen := 0, aOvf := false } })

/-- PARSE_LINE (40 R141 to R144) of a line given by its fields: one trailing carriage return is removed; an empty line, a
field count other than 10 and a field that is no integer are dropped with their codes; ten integers give the Frame of their
saturated values. Nothing but the drop's accounting is written. -/
def Obligations.LinesAreParsedFieldByField : Prop :=
  ∀ (s : State) (fields : List (List Byte)) (cr : Bool), s.inRun = true → fields ≠ [] →
    (∀ f ∈ fields, 0x2C#8 ∉ f) → (cr = false → (joinFields fields).getLast? ≠ some 0x0D#8) →
    let line := joinFields fields ++ (if cr then [0x0D#8] else [])
    (joinFields fields = [] →
      exec (.parseLine line) s = .next { afterDrop .emptyLine s with result := .decoded (.dropped .emptyLine) }) ∧
    (joinFields fields ≠ [] → fields.length ≠ 10 →
      exec (.parseLine line) s = .next { afterDrop .fieldCount s with result := .decoded (.dropped .fieldCount) }) ∧
    (fields.length = 10 → (∃ f ∈ fields, ∀ v, ¬ Spells f v) →
      exec (.parseLine line) s = .next { afterDrop .notInteger s with result := .decoded (.dropped .notInteger) }) ∧
    (∀ (v : Lanes Int) (v8 v9 : Int), List.Forall₂ Spells fields (v.toList ++ [v8, v9]) →
      exec (.parseLine line) s = .next { s with result := .decoded (.frame (frameOfFields v v8 v9)) })

/-- PARSE_INT (40 R142), asked for in a run (10_state R50), accepts exactly the grammar of 30_encoding R95 and gives the
number the digits spell. -/
def Obligations.ParsedIntegersAreTheGrammars : Prop :=
  ∀ (s : State) (field : List Byte), s.inRun = true →
    (∀ v, Spells field v → exec (.parseInt field) s = .next { s with result := .integer (some v) }) ∧
    ((∀ v, ¬ Spells field v) → exec (.parseInt field) s = .next { s with result := .integer none })

/-- FRAME_A met at the start of a line: its Frame, with every field saturated, when the line fits the buffer, else a drop with
LINE_TOO_LONG (40 R140 to R144). -/
def Obligations.WholeLinesOfFormatAGiveTheirFrame : Prop :=
  ∀ (s : State) (pots : Lanes (List Byte)) (s1 s2 : List Byte) (cr : Bool) (v : Lanes Int) (v8 v9 : Int),
    s.inRun = true → s.fmt = .A → s.dec.aLen = 0 → s.dec.aOvf = false →
    (∀ k, Spells (pots.get k) (v.get k)) → Spells s1 v8 → Spells s2 v9 →
    ∃ d, sameFrameRegisters s.dec d ∧ d.aLen = 0 ∧ d.aOvf = false ∧
      ((lineOfFields pots s1 s2 cr).length ≤ s.params.lineMax →
        exec (.frameA pots s1 s2 cr) s =
          .next { s with dec := d, result := .call (.frame (frameOfFields v v8 v9)) }) ∧
      (s.params.lineMax < (lineOfFields pots s1 s2 cr).length →
        exec (.frameA pots s1 s2 cr) s =
          .next { afterDrop .lineTooLong { s with dec := d } with result := .call (.dropped .lineTooLong) })

/-- LINE_A_DROPPED met at the start of a line: the code of its first fault, in the order of the tests (40 R140, R141). -/
def Obligations.BadLinesOfFormatAAreDropped : Prop :=
  ∀ (s : State) (line : List Byte), s.inRun = true → s.fmt = .A → s.dec.aLen = 0 → s.dec.aOvf = false →
    (Instr.lineADropped line).wf = true →
    let code : Code :=
      if s.params.lineMax < line.length then .lineTooLong
      else if line = [] ∨ line = [0x0D#8] then .emptyLine
      else if line.count 0x2C#8 ≠ 9 then .fieldCount
      else .notInteger
    ∃ d, sameFrameRegisters s.dec d ∧ d.aLen = 0 ∧ d.aOvf = false ∧
      exec (.lineADropped line) s = .next { afterDrop code { s with dec := d } with result := .call (.dropped code) }

/-- A Frame is only ever constructed from a payload that passed its integrity check (00_scope R15): in format B the eleven
payload bytes whose checksum is the trailer, in format A ten fields that are integers. The decoder's own invariants are
premises; `StepsKeepTheInvariant` states them of every step. -/
def Obligations.FramesComeFromCheckedPayloads : Prop :=
  ∀ (s t : State) (b : Byte) (f : Frame), s.inRun = true →
    (DecoderBOk s.dec → exec (.decByteB b) s = .next t → t.result = .decoded (.frame f) →
      ∃ pot status rsv0 rsv1, s.dec.bState = .crc ∧ s.dec.bBuf = pot.toList ++ [status, rsv0, rsv1] ∧
        b = (pot.toList ++ [status, rsv0, rsv1]).foldl crcByTable 0x00#8 ∧ f = frameOfPayload pot status) ∧
    (exec (.decByteA b) s = .next t → t.result = .decoded (.frame f) →
      b = 0x0A#8 ∧ s.dec.aOvf = false ∧ ∃ fields v v8 v9,
        (s.dec.aBuf.take s.dec.aLen = joinFields fields ∨ s.dec.aBuf.take s.dec.aLen = joinFields fields ++ [0x0D#8]) ∧
        List.Forall₂ Spells fields (Lanes.toList v ++ [v8, v9]) ∧ f = frameOfFields v v8 v9)

/-! The switch filter. -/

/-- MEDIAN (41 R172), asked for in a run (10_state R50): of a non-empty list, by any arrangement of it in order. -/
def Obligations.MedianIsTheMiddleOfTheSortedList : Prop :=
  ∀ (s : State) (w : List Byte) (l : List Nat), s.inRun = true → w ≠ [] → SortedReadings w l →
    exec (.median w) s = .next { s with result := .number (middle l) }

/-- SW_FEED (41 R170 to R178), whole: the filter fed, its committed value returned, the other filter and everything else as
before (41 R179). The premises on the filter's times are the invariant's (20_memory R70). -/
def Obligations.SwitchFeedFollowsTheSevenSteps : Prop :=
  ∀ (s : State) (i : Fin 2) (raw : Byte) (t : Nat) (l : List Nat), s.inRun = true → s.tLast ≤ t →
    (s.sw.get i).tCand ≤ s.tLast → (s.sw.get i).tStable ≤ s.tLast →
    SortedReadings (pushed s.cfg.swW (s.sw.get i).win raw) l →
    let f := fed s.cfg (s.sw.get i) raw (middle l) t
    exec (.swFeed i raw t) s = .next { s with sw := s.sw.set i f, tLast := t, result := .bit f.stable }

/-- Two successive commits of one switch are at least the sticky window apart, and so is the first from the last commit before
it, which at run start is `t0` (41 R180): for every list of readings. -/
def Obligations.CommitsAreAStickyWindowApart : Prop :=
  ∀ (s : State) (i : Fin 2) (feeds : List (Byte × Nat)), s.inRun = true → (s.sw.get i).tStable ≤ s.tLast →
    ((s.sw.get i).tStable :: commitTimes i feeds s).IsChain (fun a b => a + s.cfg.swSticky ≤ b)

/-! The axis mapper. -/

/-- AXIS_MAP (42 R190 to R198), whole, by the scale table, with its frame: it writes its lane's buffer alone. -/
def Obligations.AxisMapFollowsTheFiveSteps : Prop :=
  ∀ (s : State) (k : Fin 8) (raw : Int), s.inRun = true →
    let n := s.cfg.n.get k
    let v := saturated raw
    let fifo := if n = 0 then s.fifo.get k else pushed n (s.fifo.get k) v
    let sum := (fifo.map BitVec.toNat).sum
    let mean := if n = 0 then v.toNat else (2 * sum + fifo.length) / (2 * fifo.length)
    exec (.axisMap k raw) s =
      .next { s with
        fifo := s.fifo.set k fifo
        result := .number (axisOutput (s.cfg.dz.get k) (s.cfg.inv.get k) mean) }

/-- The properties (a) to (f) of 42 R201, without smoothing. -/
def Obligations.AxisResultsHaveTheStatedProperties : Prop :=
  (∀ dz inv v, v ≤ 255 → ∃ y, MapsTo dz inv v y ∧ 1 ≤ y ∧ y ≤ 32767) ∧
  (∀ dz, MapsTo dz false 128 16448) ∧ (∀ dz inv v, v ≤ 255 → ¬ MapsTo dz inv v 16384) ∧
  (MapsTo 1 false 127 16448 ∧ MapsTo 1 false 128 16448 ∧ MapsTo 1 false 129 16576) ∧
  (∀ v, 126 ≤ v → v ≤ 129 → MapsTo 2 false v 16448) ∧
  (∀ dz v, v ≤ 255 → v + dz < 128 ∨ 127 + dz < v → ∀ y, MapsTo dz true v y ↔ MapsTo dz false (255 - v) y) ∧
  (∀ dz v, v ≤ 255 → 128 ≤ v + dz → v ≤ 127 + dz → MapsTo dz true v 16319 ∧ MapsTo dz false (255 - v) 16448) ∧
  (∀ dz v w y z, v ≤ w → w ≤ 255 → MapsTo dz false v y → MapsTo dz false w z → y ≤ z) ∧
  (∀ dz v w y z, v ≤ w → w ≤ 255 → MapsTo dz true v y → MapsTo dz true w z → z ≤ y) ∧
  (∀ dz, dz ≤ 127 →
    MapsTo dz false 0 1 ∧ MapsTo dz false 255 32767 ∧ MapsTo dz true 0 32767 ∧ MapsTo dz true 255 1)

/-- The result of AXIS_MAP and its lane's buffer depend on the operand, the lane's configuration and the lane's buffer alone
(42 R199), and the other lanes' buffers are as before (42 R200). -/
def Obligations.AxisLanesAreIndependent : Prop :=
  ∀ (s u : State) (k : Fin 8) (raw : Int), s.inRun = true → u.inRun = true →
    s.cfg.dz.get k = u.cfg.dz.get k → s.cfg.inv.get k = u.cfg.inv.get k → s.cfg.n.get k = u.cfg.n.get k →
    s.fifo.get k = u.fifo.get k →
    ∃ s' u', exec (.axisMap k raw) s = .next s' ∧ exec (.axisMap k raw) u = .next u' ∧
      s'.result = u'.result ∧ s'.fifo.get k = u'.fifo.get k ∧ ∀ j, j ≠ k → s'.fifo.get j = s.fifo.get j

/-! The loop. -/

/-- A successful LOOP_START (43 R210): the two resource calls, and every register at the value 10_state R51 gives.
`last_frame` and the two buffers are unspecified there; how the free values are counted is the model's. -/
def Obligations.RunStartSetsEveryRegister : Prop :=
  ∀ (s : State) (fm : WireFormat), s.loopState = .idle ∨ s.loopState = .stopped → WellFormed s.params s.env.hostCfg →
    s.env.hostCfg.wireFormat = some fm → answersOk s.env.acquireAns → answersOk s.env.openAns →
    ∃ frame bBuf aBuf ctr,
      exec .loopStart s =
        .next { s with
          loopState := .running
          fmt := fm
          dec := { bState := .hunt, bLen := 0, bCnt := 0, bCrc := 0x00#8, bBuf := bBuf, aBuf := aBuf, aLen := 0, aOvf := false }
          diagCount := 0
          sw := Pair.all { win := [], stable := false, cand := false, tCand := s.env.clock, tStable := s.env.clock }
          fifo := Lanes.all []
          tLastFrame := s.env.clock
          lastEmitted := Pair.all false
          firstSeen := false
          tObs := s.env.clock
          tIdleDiag := s.env.clock
          lastFrame := frame
          errCode := .none
          sinkHeld := true
          transportHeld := true
          cfg := s.env.hostCfg
          env := { s.env with acquireAns := s.env.acquireAns.tail, openAns := s.env.openAns.tail }
          out := s.out ++ [.sinkAcquire s.env.hostCfg.outDeviceId,
            .transportOpen s.env.hostCfg.portName s.env.hostCfg.baudRate s.env.hostCfg.readTimeout]
          result := .none
          tLast := s.env.clock
          freeCtr := ctr }

/-- The two failures of LOOP_START (43 R210): what is acquired, pushed, released, saved and reported. The per-run registers,
which 10_state R53 then leaves unspecified, are as before (the model's choice, log entry 16). -/
def Obligations.FailedStartsReportAndRelease : Prop :=
  ∀ (s : State) (fm : WireFormat), s.loopState = .idle ∨ s.loopState = .stopped → WellFormed s.params s.env.hostCfg →
    s.env.hostCfg.wireFormat = some fm →
    (¬ answersOk s.env.acquireAns →
      exec .loopStart s =
        .next { s with
          loopState := .stopped
          fmt := fm
          cfg := s.env.hostCfg
          errCode := .outputSinkFailure
          env := { s.env with acquireAns := s.env.acquireAns.tail }
          out := s.out ++ [.sinkAcquire s.env.hostCfg.outDeviceId, .report .outputSinkFailure]
          result := .none }) ∧
    (answersOk s.env.acquireAns → ¬ answersOk s.env.openAns →
      exec .loopStart s =
        .next { s with
          loopState := .stopped
          fmt := fm
          cfg := s.env.hostCfg
          errCode := .transportOpenFailure
          sinkHeld := false
          env := { s.env with
            acquireAns := s.env.acquireAns.tail, openAns := s.env.openAns.tail, sinkAns := s.env.sinkAns.tail }
          out := s.out ++ [.sinkAcquire s.env.hostCfg.outDeviceId,
            .transportOpen s.env.hostCfg.portName s.env.hostCfg.baudRate s.env.hostCfg.readTimeout,
            neutral, .sinkRelease, .report .transportOpenFailure]
          result := .none })

/-- LOOP_START is refused during a run and with an ill-formed configuration (43 R210, 93 U7, U8), and never otherwise. -/
def Obligations.LoopStartIsRefusedExactlyWhenTold : Prop :=
  ∀ s : State,
    (s.loopState ≠ .idle ∧ s.loopState ≠ .stopped → exec .loopStart s = .refused .startInRun) ∧
    (s.loopState = .idle ∨ s.loopState = .stopped →
      (¬ WellFormed s.params s.env.hostCfg → exec .loopStart s = .refused .illFormedConfig) ∧
      (WellFormed s.params s.env.hostCfg → ∃ t, exec .loopStart s = .next t))

/-- An iteration that sees the cancellation level stops the run without a decode call (43 R213, R225). -/
def Obligations.CancellationStopsTheIteration : Prop :=
  ∀ s : State, s.inRun = true → s.env.cancel = true → exec .loopIter s = .next (stoppedBy .none s)

/-- LOOP_ITER (43 R212, R214, R219): one decode call, then one time sample, then the frame or the idle branch. A time that
goes back is refused (93 U6). The premise on `t_idle_diag` is the invariant's. -/
def Obligations.IterationDecodesThenBranches : Prop :=
  ∀ s : State, s.inRun = true → s.env.cancel = false → s.tIdleDiag ≤ s.tLast →
    ∃ d r, exec .decodeCall s = .next d ∧ d.result = .call r ∧
      (s.env.clock < s.tLast → exec .loopIter s = .refused .timeWentBack) ∧
      (s.tLast ≤ s.env.clock →
        (∀ f, r = .frame f → exec .loopIter s = exec (.processFrame f s.env.clock) d) ∧
        (NoFrame r → s.env.clock ≤ s.tLastFrame + s.cfg.idleThreshold →
          exec .loopIter s = .next { d with tLast := s.env.clock, result := .none }) ∧
        (NoFrame r → s.tLastFrame + s.cfg.idleThreshold < s.env.clock →
          (s.loopState = .running →
            exec .loopIter s = exec .neutralPush { d with
              tLast := s.env.clock, loopState := .timeoutNeutral, tIdleDiag := s.env.clock
              out := d.out ++ [.diag .idleTimeout] }) ∧
          (s.loopState = .timeoutNeutral → s.tIdleDiag + s.cfg.idleDiagInterval ≤ s.env.clock →
            exec .loopIter s = exec .neutralPush { d with
              tLast := s.env.clock, tIdleDiag := s.env.clock, out := d.out ++ [.diag .idleTimeout] }) ∧
          (s.loopState = .timeoutNeutral → s.env.clock < s.tIdleDiag + s.cfg.idleDiagInterval →
            exec .loopIter s = exec .neutralPush { d with tLast := s.env.clock })))

/-- LOOP_ITER answers a next state in every run whose time does not go back, and makes every transition and emits every list
of events that the table of 43 R226 gives, and no other; LOOP_START likewise. -/
def Obligations.TransitionsAreTheTables : Prop :=
  (∀ s : State, Inv s → s.inRun = true → s.env.cancel = true ∨ s.tLast ≤ s.env.clock →
    ∃ t evs, exec .loopIter s = .next t ∧ t.out = s.out ++ evs ∧ IterRow s t.loopState evs) ∧
  (∀ s : State, s.loopState = .idle ∨ s.loopState = .stopped → WellFormed s.params s.env.hostCfg →
    ∃ t evs, exec .loopStart s = .next t ∧ t.out = s.out ++ evs ∧ StartRow s t.loopState evs)

/-- PROCESS_FRAME (43 R215, R216), by the operations it is made of: eight AXIS_MAPs, two SW_FEEDs, the snapshot, and, when the
sink takes it, the taps, the bookkeeping and the observer; when it does not, the stop sequence and nothing else. -/
def Obligations.ProcessFrameIsItsOperationsInOrder : Prop :=
  ∀ (s : State) (f : Frame) (t : Nat), s.inRun = true → s.tLast ≤ t →
    ∃ (axis : Lanes Nat) (fifo : Lanes (List Byte)) (sw : Pair SwitchFilter),
      (∀ k, exec (.axisMap k (f.pot.get k).toNat) s =
        .next { s with fifo := s.fifo.set k (fifo.get k), result := .number (axis.get k) }) ∧
      (∀ i, exec (.swFeed i (f.swRaw.get i) t) s =
        .next { s with sw := s.sw.set i (sw.get i), tLast := t, result := .bit (sw.get i).stable }) ∧
      let st : Pair Bool := ⟨sw.p0.stable, sw.p1.stable⟩
      let u := pushedSnapshot (.sinkUpdate axis st) { s with fifo := fifo, sw := sw, tLast := t }
      (¬ answersOk s.env.sinkAns → exec (.processFrame f t) s = .next (stoppedBy .outputSinkFailure u)) ∧
      (answersOk s.env.sinkAns →
        ∃ e o, exec (.edgeTaps st) u = .next e ∧
          exec (.obsPublish t)
            { e with lastEmitted := st, firstSeen := true, lastFrame := f, tLastFrame := t, loopState := .running } =
              .next o ∧
          exec (.processFrame f t) s = .next o)

/-- EDGE_TAPS (43 R217, 60 R267): switch 0 then switch 1, each tapped once when due, a failed tap shown and not retried; no
register is written. -/
def Obligations.EdgeTapsTapOnChange : Prop :=
  ∀ (s : State) (st : Pair Bool), s.inRun = true →
    (¬ tapDue 0 st s → ¬ tapDue 1 st s → exec (.edgeTaps st) s = .next { s with result := .none }) ∧
    (tapDue 0 st s → ¬ tapDue 1 st s →
      exec (.edgeTaps st) s = .next { afterTap (tapKey 0 st s) s with result := .none }) ∧
    (¬ tapDue 0 st s → tapDue 1 st s →
      exec (.edgeTaps st) s = .next { afterTap (tapKey 1 st s) s with result := .none }) ∧
    (tapDue 0 st s → tapDue 1 st s →
      exec (.edgeTaps st) s = .next { afterTap (tapKey 1 st s) (afterTap (tapKey 0 st s) s) with result := .none })

/-- NEUTRAL_PUSH (43 R220, R222): one neutral snapshot and nothing else, or the stop sequence when the sink does not take
it. -/
def Obligations.NeutralPushPushesOnceOrStops : Prop :=
  ∀ s : State, s.inRun = true →
    (answersOk s.env.sinkAns → exec .neutralPush s = .next { pushedSnapshot neutral s with result := .none }) ∧
    (¬ answersOk s.env.sinkAns →
      exec .neutralPush s = .next (stoppedBy .outputSinkFailure (pushedSnapshot neutral s)))

/-- OBS_PUBLISH (43 R224): when the interval has passed, one snapshot of the last frame and the stable switches, and the time
noted; else nothing. The premise on `t_obs` is the invariant's. -/
def Obligations.ObserverPublishesWhenDue : Prop :=
  ∀ (s : State) (t : Nat), s.inRun = true → s.tLast ≤ t → s.tObs ≤ s.tLast →
    (s.tObs + s.cfg.obsInterval ≤ t →
      exec (.obsPublish t) s = .next { afterObserver t s with tLast := t, result := .none }) ∧
    (t < s.tObs + s.cfg.obsInterval → exec (.obsPublish t) s = .next { s with tLast := t, result := .none })

/-- LOOP_STOP (43 R225): the neutral snapshot whatever the sink answers, the transport closed, the sink released, the cause
saved, and reported unless it is NONE. -/
def Obligations.LoopStopNeutralisesAndReleases : Prop :=
  ∀ (s : State) (cause : Code), s.inRun = true → exec (.loopStop cause) s = .next (stoppedBy cause s)

/-- A no-frame iteration touches no filter, no smoothing buffer, no frame bookkeeping, and sends nothing but diagnostics, the
neutral snapshot and, if the sink fails, the stop sequence: no key tap and no observer snapshot (43 R220). -/
def Obligations.SilentIterationsLeaveTheFiltersAlone : Prop :=
  ∀ (s : State) (r : CallResult), s.inRun = true → s.env.cancel = false → s.tLast ≤ s.env.clock →
    CallGives s r → NoFrame r →
    ∃ t evs, exec .loopIter s = .next t ∧ t.out = s.out ++ evs ∧
      t.sw = s.sw ∧ t.fifo = s.fifo ∧ t.lastEmitted = s.lastEmitted ∧ t.firstSeen = s.firstSeen ∧
      t.lastFrame = s.lastFrame ∧ t.tLastFrame = s.tLastFrame ∧ t.tObs = s.tObs ∧
      ∀ e ∈ evs, e = neutral ∨ e = .transportClose ∨ e = .sinkRelease ∨ e = .report .outputSinkFailure ∨
        ∃ code, e = .diag code

/-- Outside a run every operation but LOOP_START is refused and changes nothing: it reads no byte, samples no time and emits
no event (10_state R50, 70 R310, 93 U9; that R50's operations take in every row asked for alone is log entry 7). -/
def Obligations.RunOperationsAreRefusedOutsideARun : Prop :=
  ∀ (s : State) (i : Instr), s.loopState ≠ .running → s.loopState ≠ .timeoutNeutral → i ≠ .loopStart →
    exec i s = .refused .notInRun

/-- A time value smaller than one already given is refused by every operation that takes a time (93 U6, 20_memory R70). -/
def Obligations.TimeGoingBackIsRefused : Prop :=
  ∀ (s : State) (t : Nat),
    (s.inRun = true → t < s.tLast →
      (∀ i raw, exec (.swFeed i raw t) s = .refused .timeWentBack) ∧
      (∀ f, exec (.processFrame f t) s = .refused .timeWentBack) ∧
      exec (.obsPublish t) s = .refused .timeWentBack) ∧
    (s.inRun = true → s.env.clock < s.tLast → exec .now s = .refused .timeWentBack) ∧
    (s.inRun = true → s.env.cancel = false → s.env.clock < s.tLast → exec .loopIter s = .refused .timeWentBack)

/-! The primitives. -/

/-- The four calls that answer (20_memory R64 to R66), asked for in a run (10_state R50): one event, and the environment's
next answer taken and returned (answers as a list is the model's choice, log entry 3). -/
def Obligations.AnsweredCallsEmitAndReturnTheAnswer : Prop :=
  ∀ s : State, s.inRun = true →
    (∀ port baud timeout, exec (.transportOpen port baud timeout) s =
      .next { s with
        out := s.out ++ [.transportOpen port baud timeout]
        env := { s.env with openAns := s.env.openAns.tail }
        result := .answer (s.env.openAns.headD true) }) ∧
    (∀ dev, exec (.sinkAcquire dev) s =
      .next { s with
        out := s.out ++ [.sinkAcquire dev]
        env := { s.env with acquireAns := s.env.acquireAns.tail }
        result := .answer (s.env.acquireAns.headD true) }) ∧
    (∀ axis btn, exec (.sinkUpdate axis btn) s =
      .next { s with
        out := s.out ++ [.sinkUpdate axis btn]
        env := { s.env with sinkAns := s.env.sinkAns.tail }
        result := .answer (s.env.sinkAns.headD true) }) ∧
    (∀ name, exec (.keyTap name) s =
      .next { s with
        out := s.out ++ [.keyTap name]
        env := { s.env with keyAns := s.env.keyAns.tail }
        result := .answer (s.env.keyAns.headD true) })

/-- The five calls without an answer (20_memory R64, R67 to R69), asked for in a run (10_state R50): one event and nothing
else. -/
def Obligations.UnansweredCallsOnlyEmit : Prop :=
  ∀ s : State, s.inRun = true →
    exec .transportClose s = .next { s with out := s.out ++ [.transportClose], result := .none } ∧
    exec .sinkRelease s = .next { s with out := s.out ++ [.sinkRelease], result := .none } ∧
    (∀ pot raw st cal, exec (.obsEvent pot raw st cal) s =
      .next { s with out := s.out ++ [.obsPublish pot raw st cal], result := .none }) ∧
    (∀ code, exec (.diag code) s = .next { s with out := s.out ++ [.diag code], result := .none }) ∧
    (∀ code, exec (.report code) s = .next { s with out := s.out ++ [.report code], result := .none })

/-- RX_READ, NOW and CANCEL_LEVEL (20_memory R63, R70, R71), asked for in a run (10_state R50): the first byte of the queue,
taken away, or none; the time; the level. Nothing else of the block changes but the note of the time (the model's own, log
entry 13). -/
def Obligations.InputPrimitivesReadTheEnvironment : Prop :=
  ∀ s : State, s.inRun = true →
    (s.env.rxq = [] → exec .rxRead s = .next { s with result := .rx none }) ∧
    (∀ b q, s.env.rxq = b :: q → exec .rxRead s = .next { withQueue q s with result := .rx (some b) }) ∧
    (s.tLast ≤ s.env.clock → exec .now s = .next { s with tLast := s.env.clock, result := .time s.env.clock }) ∧
    exec .cancelLevel s = .next { s with result := .bit s.env.cancel }

/-! The whole machine. -/

/-- After power-on reset (10_state R50). -/
def Obligations.ResetStateIsIdleAndHoldsNothing : Prop :=
  State.reset.loopState = .idle ∧ State.reset.errCode = .none ∧ State.reset.sinkHeld = false ∧
  State.reset.transportHeld = false

/-- After reset the block waits (70 R310), and in every state, as long as nothing is asked of the worker, a step changes
nothing of the block: it samples no time and emits no event (20_memory R77), and takes no byte off the receive queue, which
can lose bytes only when the transport, not held, discards them (70 R314). The step with
nothing asked and the lines of the environment are the model's (log entries 2, 22 and 30). -/
def Obligations.UnaskedBlockDoesNothing : Prop :=
  step State.reset = .next State.reset ∧
  ∀ s t : State, (∀ ws, s.env.inputs.head? ≠ some (.op ws)) → s.env.inputs.head? ≠ some .unit → step s = .next t →
    t = { s with env := t.env } ∧
    (s.env.rxq <+: t.env.rxq ∨
      ∃ count rest, s.env.inputs = .discard count :: rest ∧ s.transportHeld = false ∧ t.env.rxq = s.env.rxq.drop count)

/-- The invariant holds after reset. -/
def Obligations.ResetStateMeetsTheInvariant : Prop := Inv State.reset

/-- Every step keeps the invariant: `Connecting` and `Stopping` are never observed, both resources are held exactly in a run,
and in a run the registers keep their ranges and meanings (10_state R22, R25 to R33, 60 R272). -/
def Obligations.StepsKeepTheInvariant : Prop :=
  ∀ s t : State, Inv s → step s = .next t → Inv t

/-- Every step keeps the snapshots it sends within `1..32767` on every axis (00_scope R15). -/
def Obligations.StepsKeepTheAxesInRange : Prop :=
  ∀ s t : State, OutputsInRange s → step s = .next t → OutputsInRange t

/-- The latched configuration and the wire format are written by an accepted LOOP_START alone, from the host's configuration
(10_state R40, R23). -/
def Obligations.ConfigurationIsWrittenByLoopStartAlone : Prop :=
  ∀ s t : State, step s = .next t →
    (t.cfg = s.cfg ∧ t.fmt = s.fmt) ∨
    (∃ rest, s.env.inputs = .op [0x20] :: rest ∧ s.inRun = false ∧ t.cfg = s.env.hostCfg ∧
      s.env.hostCfg.wireFormat = some t.fmt)

/-- No other instruction than LOOP_START can tell the host's configurations apart (20_memory R79, 70 R327). -/
def Obligations.HostConfigurationIsSeenAtLoopStartAlone : Prop :=
  ∀ (i : Instr) (s : State) (c : Settings), i ≠ .loopStart →
    exec i (withHostConfig c s) = mapNext (withHostConfig c) (exec i s)

/-- The list of output events only ever grows at its end (20_memory R62: events come in step order). That all events since
reset are kept in one list, from which no step removes one, is the model's choice (log entry 4). -/
def Obligations.OutputEventsAreOnlyAppended : Prop :=
  ∀ s t : State, step s = .next t → s.out <+: t.out

/-- An iteration takes bytes from the front of the receive queue only, each once, and none when it sees the cancellation level
(20_memory R63, 43 R213). -/
def Obligations.IterationsConsumeThePrefixTheyDecode : Prop :=
  ∀ s t : State, exec .loopIter s = .next t →
    (∃ used, s.env.rxq = used ++ t.env.rxq) ∧ (s.env.cancel = true → t.env.rxq = s.env.rxq)

/-- What the worker's steps report and show (60 R268): reports carry only the two run-ending codes, at most one a step and
only in a step that ends in `Stopped`; diagnostics carry only the drop codes, KEY_INJECTION_FAILURE and IDLE_TIMEOUT. -/
def Obligations.ReportsAndDiagnosticsCarryOnlyTheirCodes : Prop :=
  ∀ (s t : State) (i : Instr), i = .loopStart ∨ i = .loopIter → exec i s = .next t →
    ∃ evs, t.out = s.out ++ evs ∧
      (∀ code, .report code ∈ evs →
        (code = .transportOpenFailure ∨ code = .outputSinkFailure) ∧ t.loopState = .stopped ∧ t.errCode = code) ∧
      (∀ code, .diag code ∈ evs → code ∈ dropCodes ∨ code = .keyInjectionFailure ∨ code = .idleTimeout) ∧
      evs.countP isReport ≤ 1

/-- Outside a run only LOOP_START changes `loop_state` (60 R271: only a new LOOP_START leaves `Stopped`). -/
def Obligations.OnlyLoopStartLeavesIdleAndStopped : Prop :=
  ∀ s t : State, s.loopState = .idle ∨ s.loopState = .stopped → step s = .next t →
    t.loopState = s.loopState ∨
    (∃ rest, s.env.inputs = .op [0x20] :: rest ∧ (t.loopState = .running ∨ t.loopState = .stopped))

/-- A run goes on with both resources held and no error saved, or ends in `Stopped` with both released (10_state R33). -/
def Obligations.RunsEndReleased : Prop :=
  ∀ s t : State, s.inRun = true → step s = .next t →
    (t.inRun = true ∧ t.errCode = s.errCode ∧ t.sinkHeld = s.sinkHeld ∧ t.transportHeld = s.transportHeld) ∨
    (t.loopState = .stopped ∧ t.sinkHeld = false ∧ t.transportHeld = false)

/-- What is rate-limited is spaced (43 R223, R224). An iteration shows at most one snapshot and at most one IDLE_TIMEOUT.
One that publishes finds the observer interval passed and notes the time in `t_obs`; one that does not leaves `t_obs` as it
was. One that shows IDLE_TIMEOUT enters the idle state or finds the diagnostic interval passed, and notes the time in
`t_idle_diag`; one that does not leaves `t_idle_diag` as it was. So two iterations' snapshots lie the observer interval
apart, and two idle diagnostics of one idle state the diagnostic interval. The premises on the two times are the invariant's. -/
def Obligations.SnapshotsAndIdleDiagnosticsAreSpaced : Prop :=
  ∀ s t : State, s.tObs ≤ s.tLast → s.tIdleDiag ≤ s.tLast → exec .loopIter s = .next t →
    ∃ evs, t.out = s.out ++ evs ∧
      evs.countP isSnapshot ≤ 1 ∧ evs.count (.diag .idleTimeout) ≤ 1 ∧
      (1 ≤ evs.countP isSnapshot → s.tObs + s.cfg.obsInterval ≤ s.env.clock ∧ t.tObs = s.env.clock) ∧
      (evs.countP isSnapshot = 0 → t.tObs = s.tObs) ∧
      (.diag .idleTimeout ∈ evs →
        (s.loopState = .running ∨ s.tIdleDiag + s.cfg.idleDiagInterval ≤ s.env.clock) ∧ t.tIdleDiag = s.env.clock) ∧
      (.diag .idleTimeout ∉ evs → t.tIdleDiag = s.tIdleDiag)

end Statements
end

