-- ==== Sys2Proof/Laws/Checksum.lean ====
section
/-! SUPPORT. CRC8_UPDATE is linear, so one table of 256 entries gives it (40 R130, R132). -/

namespace Sys2Proof.Machine

theorem crcBit_xor (x y : Byte) (p q : Bool) : crcBit (x ^^^ y) (p ^^ q) = crcBit x p ^^^ crcBit y q := by
  unfold crcBit
  rw [BitVec.getLsbD_xor, BitVec.ushiftRight_xor_distrib]
  generalize x >>> 1 = u
  generalize y >>> 1 = v
  generalize 0x8C#8 = k
  cases x.getLsbD 0 <;> cases y.getLsbD 0 <;> cases p <;> cases q <;>
    simp only [Bool.xor_false, Bool.xor_true, Bool.not_true, Bool.not_false, if_true, if_false, Bool.false_eq_true] <;>
    first | rfl | (ext i hi; simp only [BitVec.getElem_xor]; cases u[i] <;> cases v[i] <;> cases k[i] <;> rfl)

theorem crcUpdate_xor (x y a b : Byte) : crcUpdate (x ^^^ y) (a ^^^ b) = crcUpdate x a ^^^ crcUpdate y b := by
  simp only [crcUpdate, List.foldl, BitVec.getLsbD_xor, crcBit_xor]

theorem crcUpdate_zero_right (c : Byte) : crcUpdate c 0#8 = crcUpdate 0#8 c := by
  revert c; decide +kernel

/-- The update depends on the two bytes' xor alone. -/
theorem crcUpdate_eq (c b : Byte) : crcUpdate c b = crcUpdate 0#8 (c ^^^ b) := by
  calc crcUpdate c b = crcUpdate (c ^^^ 0#8) (0#8 ^^^ b) := by simp
    _ = crcUpdate c 0#8 ^^^ crcUpdate 0#8 b := crcUpdate_xor ..
    _ = crcUpdate 0#8 c ^^^ crcUpdate 0#8 b := by rw [crcUpdate_zero_right]
    _ = crcUpdate (0#8 ^^^ 0#8) (c ^^^ b) := (crcUpdate_xor ..).symm
    _ = _ := by simp

theorem crcUpdate_self (c : Byte) : crcUpdate c c = 0#8 := by
  rw [crcUpdate_eq, BitVec.xor_self]; decide

end Sys2Proof.Machine
end

