-- ==== Sys2Proof/Laws/State.lean ====
section
/-! SUPPORT. One lemma for each field of State and each named update of Machine/Ops.lean, so that no proof unfolds a record
update; and the lanes and pairs read after being written. -/

namespace Sys2Proof

@[simp] theorem Lanes.get_ofFn {α : Type} (f : Fin 8 → α) (k : Fin 8) : (Lanes.ofFn f).get k = f k := by
  fin_cases k <;> rfl

@[simp] theorem Lanes.get_all {α : Type} (x : α) (k : Fin 8) : (Lanes.all x).get k = x := by
  fin_cases k <;> rfl

@[simp] theorem Lanes.get_set_same {α : Type} (v : Lanes α) (k : Fin 8) (x : α) : (v.set k x).get k = x := by
  fin_cases k <;> rfl

theorem Lanes.get_set_other {α : Type} (v : Lanes α) (j k : Fin 8) (x : α) (h : j ≠ k) : (v.set k x).get j = v.get j := by
  fin_cases k <;> fin_cases j <;> first | rfl | exact absurd rfl h

@[simp] theorem Lanes.set_get {α : Type} (v : Lanes α) (k : Fin 8) : v.set k (v.get k) = v := by
  fin_cases k <;> rfl

theorem Lanes.ext_get {α : Type} (v w : Lanes α) (h : ∀ k, v.get k = w.get k) : v = w := by
  cases v; cases w
  have h0 := h 0; have h1 := h 1; have h2 := h 2; have h3 := h 3
  have h4 := h 4; have h5 := h 5; have h6 := h 6; have h7 := h 7
  simp only [Lanes.get] at h0 h1 h2 h3 h4 h5 h6 h7
  simp [*]

@[simp] theorem Pair.get_set_same {α : Type} (v : Pair α) (i : Fin 2) (x : α) : (v.set i x).get i = x := by
  fin_cases i <;> rfl

theorem Pair.get_set_other {α : Type} (v : Pair α) (i j : Fin 2) (x : α) (h : j ≠ i) : (v.set i x).get j = v.get j := by
  fin_cases i <;> fin_cases j <;> first | rfl | exact absurd rfl h

namespace Machine

@[simp] theorem State.emit_loopState (s : State) (e : Event) : (s.emit e).loopState = s.loopState := rfl
@[simp] theorem State.emit_fmt (s : State) (e : Event) : (s.emit e).fmt = s.fmt := rfl
@[simp] theorem State.emit_dec (s : State) (e : Event) : (s.emit e).dec = s.dec := rfl
@[simp] theorem State.emit_diagCount (s : State) (e : Event) : (s.emit e).diagCount = s.diagCount := rfl
@[simp] theorem State.emit_sw (s : State) (e : Event) : (s.emit e).sw = s.sw := rfl
@[simp] theorem State.emit_fifo (s : State) (e : Event) : (s.emit e).fifo = s.fifo := rfl
@[simp] theorem State.emit_tLastFrame (s : State) (e : Event) : (s.emit e).tLastFrame = s.tLastFrame := rfl
@[simp] theorem State.emit_lastEmitted (s : State) (e : Event) : (s.emit e).lastEmitted = s.lastEmitted := rfl
@[simp] theorem State.emit_firstSeen (s : State) (e : Event) : (s.emit e).firstSeen = s.firstSeen := rfl
@[simp] theorem State.emit_tObs (s : State) (e : Event) : (s.emit e).tObs = s.tObs := rfl
@[simp] theorem State.emit_tIdleDiag (s : State) (e : Event) : (s.emit e).tIdleDiag = s.tIdleDiag := rfl
@[simp] theorem State.emit_lastFrame (s : State) (e : Event) : (s.emit e).lastFrame = s.lastFrame := rfl
@[simp] theorem State.emit_errCode (s : State) (e : Event) : (s.emit e).errCode = s.errCode := rfl
@[simp] theorem State.emit_sinkHeld (s : State) (e : Event) : (s.emit e).sinkHeld = s.sinkHeld := rfl
@[simp] theorem State.emit_transportHeld (s : State) (e : Event) : (s.emit e).transportHeld = s.transportHeld := rfl
@[simp] theorem State.emit_cfg (s : State) (e : Event) : (s.emit e).cfg = s.cfg := rfl
@[simp] theorem State.emit_params (s : State) (e : Event) : (s.emit e).params = s.params := rfl
@[simp] theorem State.emit_env (s : State) (e : Event) : (s.emit e).env = s.env := rfl
@[simp] theorem State.emit_out (s : State) (e : Event) : (s.emit e).out = s.out ++ [e] := rfl
@[simp] theorem State.emit_result (s : State) (e : Event) : (s.emit e).result = s.result := rfl
@[simp] theorem State.emit_tLast (s : State) (e : Event) : (s.emit e).tLast = s.tLast := rfl
@[simp] theorem State.emit_freeCtr (s : State) (e : Event) : (s.emit e).freeCtr = s.freeCtr := rfl
@[simp] theorem State.emit_inRun (s : State) (e : Event) : (s.emit e).inRun = s.inRun := rfl
@[simp] theorem State.emit_canStart (s : State) (e : Event) : (s.emit e).canStart = s.canStart := rfl

@[simp] theorem State.ret_loopState (s : State) (r : Result) : (s.ret r).loopState = s.loopState := rfl
@[simp] theorem State.ret_fmt (s : State) (r : Result) : (s.ret r).fmt = s.fmt := rfl
@[simp] theorem State.ret_dec (s : State) (r : Result) : (s.ret r).dec = s.dec := rfl
@[simp] theorem State.ret_diagCount (s : State) (r : Result) : (s.ret r).diagCount = s.diagCount := rfl
@[simp] theorem State.ret_sw (s : State) (r : Result) : (s.ret r).sw = s.sw := rfl
@[simp] theorem State.ret_fifo (s : State) (r : Result) : (s.ret r).fifo = s.fifo := rfl
@[simp] theorem State.ret_tLastFrame (s : State) (r : Result) : (s.ret r).tLastFrame = s.tLastFrame := rfl
@[simp] theorem State.ret_lastEmitted (s : State) (r : Result) : (s.ret r).lastEmitted = s.lastEmitted := rfl
@[simp] theorem State.ret_firstSeen (s : State) (r : Result) : (s.ret r).firstSeen = s.firstSeen := rfl
@[simp] theorem State.ret_tObs (s : State) (r : Result) : (s.ret r).tObs = s.tObs := rfl
@[simp] theorem State.ret_tIdleDiag (s : State) (r : Result) : (s.ret r).tIdleDiag = s.tIdleDiag := rfl
@[simp] theorem State.ret_lastFrame (s : State) (r : Result) : (s.ret r).lastFrame = s.lastFrame := rfl
@[simp] theorem State.ret_errCode (s : State) (r : Result) : (s.ret r).errCode = s.errCode := rfl
@[simp] theorem State.ret_sinkHeld (s : State) (r : Result) : (s.ret r).sinkHeld = s.sinkHeld := rfl
@[simp] theorem State.ret_transportHeld (s : State) (r : Result) : (s.ret r).transportHeld = s.transportHeld := rfl
@[simp] theorem State.ret_cfg (s : State) (r : Result) : (s.ret r).cfg = s.cfg := rfl
@[simp] theorem State.ret_params (s : State) (r : Result) : (s.ret r).params = s.params := rfl
@[simp] theorem State.ret_env (s : State) (r : Result) : (s.ret r).env = s.env := rfl
@[simp] theorem State.ret_out (s : State) (r : Result) : (s.ret r).out = s.out := rfl
@[simp] theorem State.ret_result (s : State) (r : Result) : (s.ret r).result = r := rfl
@[simp] theorem State.ret_tLast (s : State) (r : Result) : (s.ret r).tLast = s.tLast := rfl
@[simp] theorem State.ret_freeCtr (s : State) (r : Result) : (s.ret r).freeCtr = s.freeCtr := rfl
@[simp] theorem State.ret_inRun (s : State) (r : Result) : (s.ret r).inRun = s.inRun := rfl
@[simp] theorem State.ret_canStart (s : State) (r : Result) : (s.ret r).canStart = s.canStart := rfl

@[simp] theorem State.withDec_loopState (s : State) (d : Decoder) : (s.withDec d).loopState = s.loopState := rfl
@[simp] theorem State.withDec_fmt (s : State) (d : Decoder) : (s.withDec d).fmt = s.fmt := rfl
@[simp] theorem State.withDec_dec (s : State) (d : Decoder) : (s.withDec d).dec = d := rfl
@[simp] theorem State.withDec_diagCount (s : State) (d : Decoder) : (s.withDec d).diagCount = s.diagCount := rfl
@[simp] theorem State.withDec_sw (s : State) (d : Decoder) : (s.withDec d).sw = s.sw := rfl
@[simp] theorem State.withDec_fifo (s : State) (d : Decoder) : (s.withDec d).fifo = s.fifo := rfl
@[simp] theorem State.withDec_tLastFrame (s : State) (d : Decoder) : (s.withDec d).tLastFrame = s.tLastFrame := rfl
@[simp] theorem State.withDec_lastEmitted (s : State) (d : Decoder) : (s.withDec d).lastEmitted = s.lastEmitted := rfl
@[simp] theorem State.withDec_firstSeen (s : State) (d : Decoder) : (s.withDec d).firstSeen = s.firstSeen := rfl
@[simp] theorem State.withDec_tObs (s : State) (d : Decoder) : (s.withDec d).tObs = s.tObs := rfl
@[simp] theorem State.withDec_tIdleDiag (s : State) (d : Decoder) : (s.withDec d).tIdleDiag = s.tIdleDiag := rfl
@[simp] theorem State.withDec_lastFrame (s : State) (d : Decoder) : (s.withDec d).lastFrame = s.lastFrame := rfl
@[simp] theorem State.withDec_errCode (s : State) (d : Decoder) : (s.withDec d).errCode = s.errCode := rfl
@[simp] theorem State.withDec_sinkHeld (s : State) (d : Decoder) : (s.withDec d).sinkHeld = s.sinkHeld := rfl
@[simp] theorem State.withDec_transportHeld (s : State) (d : Decoder) : (s.withDec d).transportHeld = s.transportHeld := rfl
@[simp] theorem State.withDec_cfg (s : State) (d : Decoder) : (s.withDec d).cfg = s.cfg := rfl
@[simp] theorem State.withDec_params (s : State) (d : Decoder) : (s.withDec d).params = s.params := rfl
@[simp] theorem State.withDec_env (s : State) (d : Decoder) : (s.withDec d).env = s.env := rfl
@[simp] theorem State.withDec_out (s : State) (d : Decoder) : (s.withDec d).out = s.out := rfl
@[simp] theorem State.withDec_result (s : State) (d : Decoder) : (s.withDec d).result = s.result := rfl
@[simp] theorem State.withDec_tLast (s : State) (d : Decoder) : (s.withDec d).tLast = s.tLast := rfl
@[simp] theorem State.withDec_freeCtr (s : State) (d : Decoder) : (s.withDec d).freeCtr = s.freeCtr := rfl
@[simp] theorem State.withDec_inRun (s : State) (d : Decoder) : (s.withDec d).inRun = s.inRun := rfl
@[simp] theorem State.withDec_canStart (s : State) (d : Decoder) : (s.withDec d).canStart = s.canStart := rfl

@[simp] theorem State.withRxq_loopState (s : State) (q : List Byte) : (s.withRxq q).loopState = s.loopState := rfl
@[simp] theorem State.withRxq_fmt (s : State) (q : List Byte) : (s.withRxq q).fmt = s.fmt := rfl
@[simp] theorem State.withRxq_dec (s : State) (q : List Byte) : (s.withRxq q).dec = s.dec := rfl
@[simp] theorem State.withRxq_diagCount (s : State) (q : List Byte) : (s.withRxq q).diagCount = s.diagCount := rfl
@[simp] theorem State.withRxq_sw (s : State) (q : List Byte) : (s.withRxq q).sw = s.sw := rfl
@[simp] theorem State.withRxq_fifo (s : State) (q : List Byte) : (s.withRxq q).fifo = s.fifo := rfl
@[simp] theorem State.withRxq_tLastFrame (s : State) (q : List Byte) : (s.withRxq q).tLastFrame = s.tLastFrame := rfl
@[simp] theorem State.withRxq_lastEmitted (s : State) (q : List Byte) : (s.withRxq q).lastEmitted = s.lastEmitted := rfl
@[simp] theorem State.withRxq_firstSeen (s : State) (q : List Byte) : (s.withRxq q).firstSeen = s.firstSeen := rfl
@[simp] theorem State.withRxq_tObs (s : State) (q : List Byte) : (s.withRxq q).tObs = s.tObs := rfl
@[simp] theorem State.withRxq_tIdleDiag (s : State) (q : List Byte) : (s.withRxq q).tIdleDiag = s.tIdleDiag := rfl
@[simp] theorem State.withRxq_lastFrame (s : State) (q : List Byte) : (s.withRxq q).lastFrame = s.lastFrame := rfl
@[simp] theorem State.withRxq_errCode (s : State) (q : List Byte) : (s.withRxq q).errCode = s.errCode := rfl
@[simp] theorem State.withRxq_sinkHeld (s : State) (q : List Byte) : (s.withRxq q).sinkHeld = s.sinkHeld := rfl
@[simp] theorem State.withRxq_transportHeld (s : State) (q : List Byte) : (s.withRxq q).transportHeld = s.transportHeld := rfl
@[simp] theorem State.withRxq_cfg (s : State) (q : List Byte) : (s.withRxq q).cfg = s.cfg := rfl
@[simp] theorem State.withRxq_params (s : State) (q : List Byte) : (s.withRxq q).params = s.params := rfl
@[simp] theorem State.withRxq_out (s : State) (q : List Byte) : (s.withRxq q).out = s.out := rfl
@[simp] theorem State.withRxq_result (s : State) (q : List Byte) : (s.withRxq q).result = s.result := rfl
@[simp] theorem State.withRxq_tLast (s : State) (q : List Byte) : (s.withRxq q).tLast = s.tLast := rfl
@[simp] theorem State.withRxq_freeCtr (s : State) (q : List Byte) : (s.withRxq q).freeCtr = s.freeCtr := rfl
@[simp] theorem State.withRxq_env_rxq (s : State) (q : List Byte) : (s.withRxq q).env.rxq = q := rfl
@[simp] theorem State.withRxq_env_clock (s : State) (q : List Byte) : (s.withRxq q).env.clock = s.env.clock := rfl
@[simp] theorem State.withRxq_env_cancel (s : State) (q : List Byte) : (s.withRxq q).env.cancel = s.env.cancel := rfl
@[simp] theorem State.withRxq_env_acquireAns (s : State) (q : List Byte) : (s.withRxq q).env.acquireAns = s.env.acquireAns := rfl
@[simp] theorem State.withRxq_env_openAns (s : State) (q : List Byte) : (s.withRxq q).env.openAns = s.env.openAns := rfl
@[simp] theorem State.withRxq_env_sinkAns (s : State) (q : List Byte) : (s.withRxq q).env.sinkAns = s.env.sinkAns := rfl
@[simp] theorem State.withRxq_env_keyAns (s : State) (q : List Byte) : (s.withRxq q).env.keyAns = s.env.keyAns := rfl
@[simp] theorem State.withRxq_env_hostCfg (s : State) (q : List Byte) : (s.withRxq q).env.hostCfg = s.env.hostCfg := rfl
@[simp] theorem State.withRxq_env_inputs (s : State) (q : List Byte) : (s.withRxq q).env.inputs = s.env.inputs := rfl
@[simp] theorem State.withRxq_inRun (s : State) (q : List Byte) : (s.withRxq q).inRun = s.inRun := rfl
@[simp] theorem State.withRxq_canStart (s : State) (q : List Byte) : (s.withRxq q).canStart = s.canStart := rfl

@[simp] theorem State.withInputs_loopState (s : State) (q : List Input) : (s.withInputs q).loopState = s.loopState := rfl
@[simp] theorem State.withInputs_fmt (s : State) (q : List Input) : (s.withInputs q).fmt = s.fmt := rfl
@[simp] theorem State.withInputs_dec (s : State) (q : List Input) : (s.withInputs q).dec = s.dec := rfl
@[simp] theorem State.withInputs_diagCount (s : State) (q : List Input) : (s.withInputs q).diagCount = s.diagCount := rfl
@[simp] theorem State.withInputs_sw (s : State) (q : List Input) : (s.withInputs q).sw = s.sw := rfl
@[simp] theorem State.withInputs_fifo (s : State) (q : List Input) : (s.withInputs q).fifo = s.fifo := rfl
@[simp] theorem State.withInputs_tLastFrame (s : State) (q : List Input) : (s.withInputs q).tLastFrame = s.tLastFrame := rfl
@[simp] theorem State.withInputs_lastEmitted (s : State) (q : List Input) : (s.withInputs q).lastEmitted = s.lastEmitted := rfl
@[simp] theorem State.withInputs_firstSeen (s : State) (q : List Input) : (s.withInputs q).firstSeen = s.firstSeen := rfl
@[simp] theorem State.withInputs_tObs (s : State) (q : List Input) : (s.withInputs q).tObs = s.tObs := rfl
@[simp] theorem State.withInputs_tIdleDiag (s : State) (q : List Input) : (s.withInputs q).tIdleDiag = s.tIdleDiag := rfl
@[simp] theorem State.withInputs_lastFrame (s : State) (q : List Input) : (s.withInputs q).lastFrame = s.lastFrame := rfl
@[simp] theorem State.withInputs_errCode (s : State) (q : List Input) : (s.withInputs q).errCode = s.errCode := rfl
@[simp] theorem State.withInputs_sinkHeld (s : State) (q : List Input) : (s.withInputs q).sinkHeld = s.sinkHeld := rfl
@[simp] theorem State.withInputs_transportHeld (s : State) (q : List Input) : (s.withInputs q).transportHeld = s.transportHeld := rfl
@[simp] theorem State.withInputs_cfg (s : State) (q : List Input) : (s.withInputs q).cfg = s.cfg := rfl
@[simp] theorem State.withInputs_params (s : State) (q : List Input) : (s.withInputs q).params = s.params := rfl
@[simp] theorem State.withInputs_out (s : State) (q : List Input) : (s.withInputs q).out = s.out := rfl
@[simp] theorem State.withInputs_result (s : State) (q : List Input) : (s.withInputs q).result = s.result := rfl
@[simp] theorem State.withInputs_tLast (s : State) (q : List Input) : (s.withInputs q).tLast = s.tLast := rfl
@[simp] theorem State.withInputs_freeCtr (s : State) (q : List Input) : (s.withInputs q).freeCtr = s.freeCtr := rfl
@[simp] theorem State.withInputs_env_rxq (s : State) (q : List Input) : (s.withInputs q).env.rxq = s.env.rxq := rfl
@[simp] theorem State.withInputs_env_clock (s : State) (q : List Input) : (s.withInputs q).env.clock = s.env.clock := rfl
@[simp] theorem State.withInputs_env_cancel (s : State) (q : List Input) : (s.withInputs q).env.cancel = s.env.cancel := rfl
@[simp] theorem State.withInputs_env_acquireAns (s : State) (q : List Input) : (s.withInputs q).env.acquireAns = s.env.acquireAns := rfl
@[simp] theorem State.withInputs_env_openAns (s : State) (q : List Input) : (s.withInputs q).env.openAns = s.env.openAns := rfl
@[simp] theorem State.withInputs_env_sinkAns (s : State) (q : List Input) : (s.withInputs q).env.sinkAns = s.env.sinkAns := rfl
@[simp] theorem State.withInputs_env_keyAns (s : State) (q : List Input) : (s.withInputs q).env.keyAns = s.env.keyAns := rfl
@[simp] theorem State.withInputs_env_hostCfg (s : State) (q : List Input) : (s.withInputs q).env.hostCfg = s.env.hostCfg := rfl
@[simp] theorem State.withInputs_env_inputs (s : State) (q : List Input) : (s.withInputs q).env.inputs = q := rfl
@[simp] theorem State.withInputs_inRun (s : State) (q : List Input) : (s.withInputs q).inRun = s.inRun := rfl
@[simp] theorem State.withInputs_canStart (s : State) (q : List Input) : (s.withInputs q).canStart = s.canStart := rfl

@[simp] theorem State.ret_ret (s : State) (r r' : Result) : (s.ret r).ret r' = s.ret r' := rfl

@[simp] theorem State.withRxq_withRxq (s : State) (q q' : List Byte) : (s.withRxq q).withRxq q' = s.withRxq q' := rfl

@[simp] theorem State.withRxq_self (s : State) : s.withRxq s.env.rxq = s := rfl

theorem State.inRun_iff (s : State) : s.inRun = true ↔ s.loopState = .running ∨ s.loopState = .timeoutNeutral := by
  unfold State.inRun; cases s.loopState <;> simp

theorem State.canStart_iff (s : State) : s.canStart = true ↔ s.loopState = .idle ∨ s.loopState = .stopped := by
  unfold State.canStart; cases s.loopState <;> simp

end Machine

end Sys2Proof
end

