-- ==== Sys2Proof/Laws/Ops.lean ====
section
/-! SUPPORT. One lemma for each shared operation of Machine/Ops.lean that says all it can do. -/

namespace Sys2Proof.Machine

theorem whenInRun_next {s t : State} {r : StepOutcome} (h : whenInRun s r = .next t) : s.inRun = true ∧ r = .next t := by
  unfold whenInRun at h
  split at h
  · exact ⟨‹_›, h⟩
  · cases h

@[simp] theorem whenInRun_inRun {s : State} (r : StepOutcome) (h : s.inRun = true) : whenInRun s r = r := by
  simp [whenInRun, h]

@[simp] theorem whenInRun_notInRun {s : State} (r : StepOutcome) (h : s.inRun = false) :
    whenInRun s r = .refused .notInRun := by
  simp [whenInRun, h]

theorem atTime_next {s t : State} {τ : Nat} {k : State → StepOutcome} (h : atTime s τ k = .next t) :
    s.tLast ≤ τ ∧ k { s with tLast := τ } = .next t := by
  unfold atTime at h
  split at h
  · cases h
  · exact ⟨Nat.le_of_not_lt ‹_›, h⟩

theorem atTime_of_le {s : State} {τ : Nat} (k : State → StepOutcome) (h : s.tLast ≤ τ) :
    atTime s τ k = k { s with tLast := τ } := by
  simp [atTime, Nat.not_lt.mpr h]

theorem atTime_of_lt {s : State} {τ : Nat} (k : State → StepOutcome) (h : τ < s.tLast) :
    atTime s τ k = .refused .timeWentBack := by
  simp [atTime, h]

theorem callSinkUpdate_eq (axis : Lanes Nat) (btn : Pair Bool) (s : State) :
    callSinkUpdate axis btn s =
      (headAnswer s.env.sinkAns,
        { s with out := s.out ++ [.sinkUpdate axis btn], env := { s.env with sinkAns := s.env.sinkAns.tail } }) := rfl

theorem callKeyTap_eq (name : KeyName) (s : State) :
    callKeyTap name s =
      (headAnswer s.env.keyAns,
        { s with out := s.out ++ [.keyTap name], env := { s.env with keyAns := s.env.keyAns.tail } }) := rfl

theorem callSinkAcquire_eq (dev : Nat) (s : State) :
    callSinkAcquire dev s =
      (headAnswer s.env.acquireAns,
        { s with out := s.out ++ [.sinkAcquire dev], env := { s.env with acquireAns := s.env.acquireAns.tail } }) := rfl

theorem callTransportOpen_eq (port baud timeout : Nat) (s : State) :
    callTransportOpen port baud timeout s =
      (headAnswer s.env.openAns,
        { s with
          out := s.out ++ [.transportOpen port baud timeout]
          env := { s.env with openAns := s.env.openAns.tail } }) := rfl

/-- `drop` writes `diag_count` and the output list, together or not at all (40 R145). -/
theorem dropCode_eq (code : Code) (s : State) :
    dropCode code s =
      { s with
        diagCount := if s.diagCount < s.cfg.diagCap then s.diagCount + 1 else s.diagCount
        out := if s.diagCount < s.cfg.diagCap then s.out ++ [.diag code] else s.out } := by
  unfold dropCode
  split <;> rfl

/-- The stop sequence, whole (43 R225). -/
theorem stopRun_eq (cause : Code) (s : State) :
    stopRun cause s =
      { s with
        loopState := .stopped
        transportHeld := false
        sinkHeld := false
        errCode := cause
        env := { s.env with sinkAns := s.env.sinkAns.tail }
        out := s.out ++ .sinkUpdate Config.neutralAxes Config.neutralButtons :: .transportClose :: .sinkRelease ::
          (if cause = .none then [] else [.report cause]) } := by
  by_cases h : cause = .none <;>
    simp [stopRun, callNeutral, callSinkUpdate_eq, callTransportClose, callSinkRelease, State.emit, h]

theorem fatal_eq_stopRun (code : Code) (s : State) : fatal code s = stopRun code s := rfl

theorem callRxRead_nil {s : State} (h : s.env.rxq = []) : callRxRead s = (none, s) := by
  simp [callRxRead, h]

theorem callRxRead_cons {s : State} {b : Byte} {q : List Byte} (h : s.env.rxq = b :: q) :
    callRxRead s = (some b, s.withRxq q) := by
  simp [callRxRead, h]

/-- What a step finds to do, case by case. -/
theorem fetch_cases (s : State) :
    (s.env.inputs = [] ∧ fetch s = .wait) ∨
    (∃ ws rest i, s.env.inputs = .op ws :: rest ∧ decode s.fmt (.words ws) = .ok i ∧
      fetch s = .instruction i (s.withInputs rest)) ∨
    (∃ ws rest e, s.env.inputs = .op ws :: rest ∧ decode s.fmt (.words ws) = .error e ∧ fetch s = .bad e) ∨
    (∃ rest i after, s.env.inputs = .unit :: rest ∧ decodeWire s.fmt s.env.rxq = .ok (i, after) ∧
      fetch s = .instruction i ((s.withInputs rest).withRxq after)) ∨
    (∃ rest e, s.env.inputs = .unit :: rest ∧ decodeWire s.fmt s.env.rxq = .error e ∧ fetch s = .bad e) ∨
    (∃ i rest, s.env.inputs = i :: rest ∧ (∀ ws, i ≠ .op ws) ∧ i ≠ .unit ∧
      fetch s = .environment { s with env := { applyInput s.transportHeld i s.env with inputs := rest } }) := by
  unfold fetch
  cases hi : s.env.inputs with
  | nil => exact .inl ⟨rfl, rfl⟩
  | cons i rest =>
    cases i with
    | op ws =>
      cases hd : decode s.fmt (.words ws) with
      | ok i => exact .inr (.inl ⟨ws, rest, i, rfl, hd, by simp [hd]⟩)
      | error e => exact .inr (.inr (.inl ⟨ws, rest, e, rfl, hd, by simp [hd]⟩))
    | unit =>
      cases hd : decodeWire s.fmt s.env.rxq with
      | ok p => exact .inr (.inr (.inr (.inl ⟨rest, p.1, p.2, rfl, rfl, by simp⟩)))
      | error e => exact .inr (.inr (.inr (.inr (.inl ⟨rest, e, rfl, rfl, by simp⟩))))
    | rx b => exact .inr (.inr (.inr (.inr (.inr ⟨_, rest, rfl, by simp, by simp, rfl⟩))))
    | discard b => exact .inr (.inr (.inr (.inr (.inr ⟨_, rest, rfl, by simp, by simp, rfl⟩))))
    | time b => exact .inr (.inr (.inr (.inr (.inr ⟨_, rest, rfl, by simp, by simp, rfl⟩))))
    | cancel b => exact .inr (.inr (.inr (.inr (.inr ⟨_, rest, rfl, by simp, by simp, rfl⟩))))
    | config b => exact .inr (.inr (.inr (.inr (.inr ⟨_, rest, rfl, by simp, by simp, rfl⟩))))
    | answers a o k y => exact .inr (.inr (.inr (.inr (.inr ⟨_, rest, rfl, by simp, by simp, rfl⟩))))

end Sys2Proof.Machine
end

