-- ==== Sys2Proof/Laws/FrameDecoder.lean ====
section
/-! SUPPORT. What the decoder can do: the registers it writes, and the decode call case by case. -/

namespace Sys2Proof.Machine

/-- The states that differ from `s` only in what a decoder operation writes: the decoder registers, `diag_count`, the output
list (by at most one diagnostic) and the receive queue (40 R145, R146). -/
def DecoderStep (s t : State) : Prop :=
  ∃ d c evs q, t = { s with dec := d, diagCount := c, out := s.out ++ evs, env := { s.env with rxq := q } } ∧
    (evs = [] ∧ c = s.diagCount ∨
      ∃ code, evs = [.diag code] ∧ c = s.diagCount + 1 ∧ s.diagCount < s.cfg.diagCap)

theorem DecoderStep.quiet (s : State) (d : Decoder) (q : List Byte) : DecoderStep s ((s.withDec d).withRxq q) :=
  ⟨d, s.diagCount, [], q, by simp [State.withDec, State.withRxq], .inl ⟨rfl, rfl⟩⟩

theorem accountDrop_nothing (s : State) : accountDrop .nothing s = s := rfl

theorem accountDrop_frame (f : Frame) (s : State) : accountDrop (.frame f) s = s := rfl

theorem accountDrop_dropped (code : Code) (s : State) : accountDrop (.dropped code) s = dropCode code s := rfl

/-- One byte writes the decoder registers, and counts a drop if it ends in one. -/
theorem accountDrop_step (r : DecResult) (s : State) (d : Decoder) (q : List Byte) :
    DecoderStep s ((accountDrop r (s.withDec d)).withRxq q) := by
  cases r with
  | nothing => exact DecoderStep.quiet s d q
  | frame f => exact DecoderStep.quiet s d q
  | dropped code =>
    rw [accountDrop_dropped, dropCode_eq]
    by_cases h : s.diagCount < s.cfg.diagCap
    · exact ⟨d, s.diagCount + 1, [.diag code], q, by simp [State.withDec, State.withRxq, h],
        .inr ⟨code, rfl, rfl, h⟩⟩
    · exact ⟨d, s.diagCount, [], q, by simp [State.withDec, State.withRxq, h], .inl ⟨rfl, rfl⟩⟩

/-- One byte in the format of the run, as a register update and the accounting of its result. -/
theorem decByte_eq (b : Byte) (s : State) :
    ∃ d r, decByte b s = (r, accountDrop r (s.withDec d)) ∧
      (d, r) = (match s.fmt with | .A => machineA s.params.lineMax s.dec b | .B => machineB s.dec b) := by
  unfold decByte
  cases s.fmt
  · exact ⟨_, _, rfl, rfl⟩
  · exact ⟨_, _, rfl, rfl⟩

/-- A decode call writes nothing but what a decoder operation writes (40 R146: "State written"). -/
theorem decodeLoop_step (q : List Byte) (s : State) : DecoderStep s (decodeLoop q s).2 := by
  induction q generalizing s with
  | nil => exact DecoderStep.quiet s s.dec []
  | cons b q ih =>
    obtain ⟨d, r, he, -⟩ := decByte_eq b s
    unfold decodeLoop
    rw [he]
    cases r with
    | nothing =>
      simp only [accountDrop_nothing]
      obtain ⟨d', c, evs, q', ht, hc⟩ := ih (s.withDec d)
      refine ⟨d', c, evs, q', ?_, by simpa using hc⟩
      rw [ht]
      simp [State.withDec]
    | frame f => exact accountDrop_step (.frame f) s d q
    | dropped code => exact accountDrop_step (.dropped code) s d q

theorem callDecode_step (s : State) : DecoderStep s (callDecode s).2 := decodeLoop_step _ _

theorem receiveUnit_eq_callDecode (bytes : List Byte) (s : State) :
    receiveUnit bytes s =
      (callDecode (s.withRxq (bytes ++ s.env.rxq))).2.ret (.call (callDecode (s.withRxq (bytes ++ s.env.rxq))).1) := rfl

theorem decodeLoop_nil (s : State) : decodeLoop [] s = (.empty, s.withRxq []) := rfl

theorem decodeLoop_cons (b : Byte) (q : List Byte) (s : State) :
    decodeLoop (b :: q) s =
      match (decByte b s).1 with
      | .nothing => decodeLoop q (decByte b s).2
      | .frame f => (.frame f, (decByte b s).2.withRxq q)
      | .dropped code => (.dropped code, (decByte b s).2.withRxq q) := by
  conv_lhs => unfold decodeLoop
  obtain ⟨r, t⟩ := decByte b s
  cases r <;> rfl

end Sys2Proof.Machine
end

