-- ==== Sys2Proof/Laws/Decoder.lean ====
section
/-! SUPPORT. The decoder's invariants byte by byte, and what one byte and one decode call emit (40 R133, R140, R145, R146). -/

namespace Sys2Proof.Machine

/-- The seven codes of `drop` (40 R145). -/
def IsDropCode (code : Code) : Prop :=
  code = .badLenRange ∨ code = .badCrc ∨ code = .badLen ∨ code = .emptyLine ∨ code = .fieldCount ∨ code = .notInteger ∨
    code = .lineTooLong

/-- What a decoder operation can emit: nothing, or one diagnostic with a code of `drop`. -/
def DropEvents (evs : List Event) : Prop := evs = [] ∨ ∃ code, IsDropCode code ∧ evs = [.diag code]

/-- One byte of wire format B keeps the invariant of the byte machine and the registers of the line machine. -/
theorem machineB_keeps {d : Decoder} (b : Byte) (h : DecoderBOk d) :
    DecoderBOk (machineB d b).1 ∧
      (machineB d b).1.aBuf = d.aBuf ∧ (machineB d b).1.aLen = d.aLen ∧ (machineB d b).1.aOvf = d.aOvf := by
  unfold machineB
  cases hs : d.bState with
  | hunt =>
    simp only [huntB]
    split
    · exact ⟨⟨by simp, by simp⟩, rfl, rfl, rfl⟩
    · exact ⟨h, rfl, rfl, rfl⟩
  | gotAA =>
    simp only [gotAAB]
    split
    · exact ⟨⟨by simp, by simp⟩, rfl, rfl, rfl⟩
    · split <;> exact ⟨⟨by simp, by simp⟩, rfl, rfl, rfl⟩
  | len =>
    simp only [lenB]
    split
    · rename_i hl
      simp only [lenInRange, Bool.and_eq_true, decide_eq_true_eq] at hl
      refine ⟨⟨fun _ => ⟨hl.1, hl.2, by simp; omega, by simp, by simp [crc8Of]⟩, by simp⟩, ?_, ?_, ?_⟩ <;> trivial
    · exact ⟨⟨by simp, by simp⟩, rfl, rfl, rfl⟩
  | payload =>
    obtain ⟨h1, h2, h3, h4, h5⟩ := h.1 hs
    simp only [payloadByteB]
    refine ⟨⟨?_, ?_⟩, by trivial, by trivial, by trivial⟩
    · intro hp
      simp only at hp ⊢
      have hne : d.bCnt + 1 ≠ d.bLen := by intro he; rw [if_pos he] at hp; cases hp
      refine ⟨h1, h2, by omega, by simp; omega, ?_⟩
      have hl : (List.take d.bCnt d.bBuf ++ [b]).length = d.bCnt + 1 := by simp; omega
      rw [h5, ← hl, List.take_length]
      simp [crc8Of]
    · intro hp
      simp only at hp ⊢
      have he : d.bCnt + 1 = d.bLen := by by_contra he; rw [if_neg he] at hp; cases hp
      refine ⟨h1, h2, he, by simp; omega, ?_⟩
      rw [h5]; simp [crc8Of]
  | crc =>
    exact ⟨⟨by simp [crcB], by simp [crcB]⟩, rfl, rfl, rfl⟩

/-- One byte of wire format A keeps the invariant of the line machine and the registers of the byte machine. -/
theorem machineA_keeps {lineMax : Nat} {d : Decoder} (b : Byte) (h : DecoderAOk lineMax d) :
    DecoderAOk lineMax (machineA lineMax d b).1 ∧
      (machineA lineMax d b).1.bState = d.bState ∧ (machineA lineMax d b).1.bLen = d.bLen ∧
      (machineA lineMax d b).1.bCnt = d.bCnt ∧ (machineA lineMax d b).1.bCrc = d.bCrc ∧
      (machineA lineMax d b).1.bBuf = d.bBuf := by
  obtain ⟨h1, h2, h3, h4⟩ := h
  unfold machineA
  split
  · rename_i hb
    simp only
    split
    · rename_i hl
      refine ⟨⟨by simp only; omega, by simp; omega, ?_, ?_⟩, rfl, rfl, rfl, rfl, rfl⟩
      · intro ho; have := h3 ho; omega
      · have he : (List.take d.aLen d.aBuf ++ [b]).length = d.aLen + 1 := by simp; omega
        simp only
        rw [← he, List.take_length]
        simp only [List.mem_append, List.mem_singleton, not_or]
        exact ⟨h4, Ne.symm hb⟩
    · exact ⟨⟨h1, h2, fun _ => by simp only; omega, h4⟩, rfl, rfl, rfl, rfl, rfl⟩
  · exact ⟨⟨by simp, by simp, by simp, by simp⟩, rfl, rfl, rfl, rfl, rfl⟩

/-- PARSE_LINE never answers that it absorbed a byte, and drops with its own codes alone (40 R141). -/
theorem judgeLine_dropped {line : List Byte} {code : Code} (h : judgeLine line = .dropped code) :
    code = .emptyLine ∨ code = .fieldCount ∨ code = .notInteger := by
  unfold judgeLine at h
  split at h
  · cases h; simp
  · split at h
    · cases h; simp
    · split at h <;> cases h; simp

theorem decByte_dropped {b : Byte} {s : State} {code : Code} (h : (decByte b s).1 = .dropped code) : IsDropCode code := by
  unfold IsDropCode
  unfold decByte at h
  cases hf : s.fmt with
  | A =>
    rw [hf] at h
    simp only [decByteA, machineA] at h
    split at h
    · cases h
    · simp only at h
      split at h
      · cases h; simp
      · rcases judgeLine_dropped h with rfl | rfl | rfl <;> simp
  | B =>
    rw [hf] at h
    simp only [decByteB, machineB] at h
    split at h
    · cases h
    · cases h
    · unfold lenB at h; split at h <;> cases h; simp
    · cases h
    · simp only [crcB] at h
      split at h
      · cases h; simp
      · split at h <;> cases h; simp

/-- One byte, by its result: the decoder registers written, and a drop accounted. -/
theorem decByte_cases (b : Byte) (s : State) :
    match (decByte b s).1 with
    | .dropped code => IsDropCode code ∧ ∃ d, (decByte b s).2 = dropCode code (s.withDec d)
    | .nothing => ∃ d, (decByte b s).2 = s.withDec d
    | .frame _ => ∃ d, (decByte b s).2 = s.withDec d := by
  have hc : ∀ code, (decByte b s).1 = .dropped code → IsDropCode code := fun _ h => decByte_dropped h
  obtain ⟨d, r, he, -⟩ := decByte_eq b s
  rw [he] at hc ⊢
  cases r with
  | nothing => exact ⟨d, rfl⟩
  | frame f => exact ⟨d, rfl⟩
  | dropped code => exact ⟨hc code rfl, d, rfl⟩

/-- A decode call over the bytes `l`: what it writes and emits, and the bytes it leaves (40 R146). -/
theorem decodeLoop_events (l : List Byte) (s : State) :
    ∃ d c evs q,
      (decodeLoop l s).2 = { s with dec := d, diagCount := c, out := s.out ++ evs, env := { s.env with rxq := q } } ∧
      DropEvents evs ∧ (∀ f, (decodeLoop l s).1 = .frame f → evs = []) ∧ ∃ used, l = used ++ q := by
  induction l generalizing s with
  | nil => exact ⟨s.dec, s.diagCount, [], [], by simp [decodeLoop_nil, State.withRxq], .inl rfl, fun _ _ => rfl, [], rfl⟩
  | cons b l ih =>
    have hb := decByte_cases b s
    rw [decodeLoop_cons]
    cases hr : (decByte b s).1 with
    | nothing =>
      rw [hr] at hb
      obtain ⟨d, hd⟩ := hb
      simp only
      rw [hd]
      obtain ⟨d', c, evs, q, h1, h2, h3, u, h4⟩ := ih (s.withDec d)
      exact ⟨d', c, evs, q, h1, h2, h3, b :: u, by rw [h4]; rfl⟩
    | frame f =>
      rw [hr] at hb
      obtain ⟨d, hd⟩ := hb
      simp only
      rw [hd]
      exact ⟨d, s.diagCount, [], l, by simp [State.withRxq, State.withDec], .inl rfl, fun _ _ => rfl, [b], rfl⟩
    | dropped code =>
      rw [hr] at hb
      obtain ⟨hm, d, hd⟩ := hb
      simp only
      rw [hd, dropCode_eq]
      by_cases hl : s.diagCount < s.cfg.diagCap
      · exact ⟨d, s.diagCount + 1, [.diag code], l, by simp [State.withRxq, State.withDec, hl],
          .inr ⟨code, hm, rfl⟩, fun f h => by simp at h, [b], rfl⟩
      · exact ⟨d, s.diagCount, [], l, by simp [State.withRxq, State.withDec, hl], .inl rfl,
          fun f h => by simp at h, [b], rfl⟩

theorem callDecode_events (s : State) :
    ∃ d c evs q,
      (callDecode s).2 = { s with dec := d, diagCount := c, out := s.out ++ evs, env := { s.env with rxq := q } } ∧
      DropEvents evs ∧ (∀ f, (callDecode s).1 = .frame f → evs = []) ∧ ∃ used, s.env.rxq = used ++ q :=
  decodeLoop_events _ _

end Sys2Proof.Machine
end

