-- ==== Sys2Proof/Laws/Loop.lean ====
section
/-! SUPPORT. What the parts of an iteration can do. -/

namespace Sys2Proof.Machine

/-- The states that differ from `s` only in the output list and the key sink's coming answers. -/
def TapStep (s t : State) : Prop :=
  ∃ evs ans, t = { s with out := s.out ++ evs, env := { s.env with keyAns := ans } } ∧
    ∀ e ∈ evs, e = .diag .keyInjectionFailure ∨ ∃ name, e = .keyTap name

theorem edgeTap_step (i : Fin 2) (on : Bool) (s : State) : TapStep s (edgeTap i on s) := by
  unfold edgeTap
  split
  · rw [callKeyTap_eq]
    cases headAnswer s.env.keyAns
    · exact ⟨[.keyTap (tapName s.cfg i on), .diag .keyInjectionFailure], s.env.keyAns.tail, by simp [State.emit],
        by simp⟩
    · exact ⟨[.keyTap (tapName s.cfg i on)], s.env.keyAns.tail, by simp, by simp⟩
  · exact ⟨[], s.env.keyAns, by simp, by simp⟩

/-- EDGE_TAPS writes no register (43 R217: "State written: none"). -/
theorem edgeTaps_step (st : Pair Bool) (s : State) : TapStep s (edgeTaps st s) := by
  unfold edgeTaps
  obtain ⟨e1, a1, h1, p1⟩ := edgeTap_step 0 st.p0 s
  obtain ⟨e2, a2, h2, p2⟩ := edgeTap_step 1 st.p1 (edgeTap 0 st.p0 s)
  refine ⟨e1 ++ e2, a2, by rw [h2, h1]; simp, ?_⟩
  intro e he
  rcases List.mem_append.mp he with h | h
  · exact p1 e h
  · exact p2 e h

/-- OBS_PUBLISH writes `t_obs` and emits at most its one event (43 R224). -/
theorem obsPublish_cases (now : Nat) (s : State) :
    (obsDue now s.tObs s.cfg.obsInterval = false ∧ obsPublish now s = s) ∨
    (obsDue now s.tObs s.cfg.obsInterval = true ∧
      obsPublish now s =
        { s with
          tObs := now
          out := s.out ++
            [.obsPublish s.lastFrame.pot s.lastFrame.swRaw ⟨s.sw.p0.stable, s.sw.p1.stable⟩ s.lastFrame.cal] }) := by
  unfold obsPublish
  cases h : obsDue now s.tObs s.cfg.obsInterval
  · exact .inl ⟨rfl, by simp⟩
  · exact .inr ⟨rfl, by simp [State.emit]⟩

/-- PROCESS_FRAME: the push fails and the run ends, or it succeeds and taps, bookkeeping and observer follow (43 R215,
R216). -/
theorem processFrame_cases (f : Frame) (now : Nat) (s : State) :
    let c := conditioned f now s
    let st : Pair Bool := ⟨c.sw.p0.stable, c.sw.p1.stable⟩
    let u : State :=
      { c with
        out := s.out ++ [.sinkUpdate (frameAxes f s) st], env := { s.env with sinkAns := s.env.sinkAns.tail } }
    (headAnswer s.env.sinkAns = false ∧ processFrame f now s = stopRun .outputSinkFailure u) ∨
    (headAnswer s.env.sinkAns = true ∧ processFrame f now s = obsPublish now (bookFrame f st now (edgeTaps st u))) := by
  intro c st u
  have he : processFrame f now s =
      if headAnswer s.env.sinkAns then obsPublish now (bookFrame f st now (edgeTaps st u))
      else stopRun .outputSinkFailure u := rfl
  rw [he]
  cases headAnswer s.env.sinkAns
  · exact .inl ⟨rfl, rfl⟩
  · exact .inr ⟨rfl, rfl⟩

/-- NEUTRAL_PUSH: the push is taken, or the run ends (43 R220, R222). -/
theorem neutralPush_cases (s : State) :
    let u : State :=
      { s with
        out := s.out ++ [.sinkUpdate Config.neutralAxes Config.neutralButtons]
        env := { s.env with sinkAns := s.env.sinkAns.tail } }
    (headAnswer s.env.sinkAns = true ∧ neutralPush s = u) ∨
    (headAnswer s.env.sinkAns = false ∧ neutralPush s = stopRun .outputSinkFailure u) := by
  intro u
  have he : neutralPush s = if headAnswer s.env.sinkAns then u else stopRun .outputSinkFailure u := rfl
  rw [he]
  cases headAnswer s.env.sinkAns
  · exact .inr ⟨rfl, rfl⟩
  · exact .inl ⟨rfl, rfl⟩

/-- The idle diagnostic writes `loop_state` and `t_idle_diag` and emits at most its one event (43 R219, R223). -/
theorem idleDiag_cases (now : Nat) (s : State) :
    (s.loopState = .running ∧
      idleDiag now s =
        { s with loopState := .timeoutNeutral, tIdleDiag := now, out := s.out ++ [.diag .idleTimeout] }) ∨
    (s.loopState ≠ .running ∧ idleDiagDue now s.tIdleDiag s.cfg.idleDiagInterval = true ∧
      idleDiag now s = { s with tIdleDiag := now, out := s.out ++ [.diag .idleTimeout] }) ∨
    (s.loopState ≠ .running ∧ idleDiagDue now s.tIdleDiag s.cfg.idleDiagInterval = false ∧ idleDiag now s = s) := by
  unfold idleDiag
  by_cases h : s.loopState = .running
  · exact .inl ⟨h, by simp [h, State.emit]⟩
  · cases hd : idleDiagDue now s.tIdleDiag s.cfg.idleDiagInterval
    · exact .inr (.inr ⟨h, rfl, by simp [h]⟩)
    · exact .inr (.inl ⟨h, rfl, by simp [h, State.emit]⟩)

/-- LOOP_START once accepted: the sink refuses, the transport refuses, or the run starts (43 R210). -/
theorem acceptStart_cases (s : State) :
    let c := s.env.hostCfg
    let u : State :=
      { s with
        loopState := .connecting, errCode := .none, cfg := c, fmt := c.wireFormat.getD .A
        out := s.out ++ [.sinkAcquire c.outDeviceId]
        env := { s.env with acquireAns := s.env.acquireAns.tail } }
    let v : State :=
      { u with
        out := u.out ++ [.transportOpen c.portName c.baudRate c.readTimeout]
        sinkHeld := true
        env := { u.env with openAns := s.env.openAns.tail } }
    (headAnswer s.env.acquireAns = false ∧ acceptStart s = failStart .outputSinkFailure u) ∨
    (headAnswer s.env.acquireAns = true ∧ headAnswer s.env.openAns = false ∧
      acceptStart s = failStart .transportOpenFailure
        { v with
          out := v.out ++ [.sinkUpdate Config.neutralAxes Config.neutralButtons, .sinkRelease]
          sinkHeld := false
          env := { v.env with sinkAns := s.env.sinkAns.tail } }) ∨
    (headAnswer s.env.acquireAns = true ∧ headAnswer s.env.openAns = true ∧
      acceptStart s = startRun s.env.clock { v with transportHeld := true }) := by
  intro c u v
  have he : acceptStart s =
      if headAnswer s.env.acquireAns then
        if headAnswer s.env.openAns then startRun s.env.clock { v with transportHeld := true }
        else
          failStart .transportOpenFailure
            { v with
              out := v.out ++ [.sinkUpdate Config.neutralAxes Config.neutralButtons] ++ [.sinkRelease]
              sinkHeld := false
              env := { v.env with sinkAns := s.env.sinkAns.tail } }
      else failStart .outputSinkFailure u := rfl
  rw [he]
  cases headAnswer s.env.acquireAns
  · exact .inl ⟨rfl, rfl⟩
  · cases headAnswer s.env.openAns
    · exact .inr (.inl ⟨rfl, rfl, by simp⟩)
    · exact .inr (.inr ⟨rfl, rfl, rfl⟩)

/-- The result of AXIS_MAP's last step is an axis value (42 R196). -/
theorem clampAxis_range (y : Nat) : 1 ≤ clampAxis y ∧ clampAxis y ≤ 32767 := by
  unfold clampAxis
  split
  · omega
  · split <;> omega

/-- The window never outgrows its size (41 R171). -/
theorem pushWindow_length {w : Nat} {win : List Byte} (raw : Byte) (hw : 1 ≤ w) (h : win.length ≤ w) :
    1 ≤ (pushWindow w win raw).length ∧ (pushWindow w win raw).length ≤ w := by
  unfold pushWindow
  split <;> simp <;> omega

/-- The smoothing buffer never outgrows its size (42 R192). -/
theorem pushFifo_length {n : Nat} {fifo : List Byte} (v : Byte) (h : fifo.length ≤ n) :
    (pushFifo n fifo v).length ≤ n := by
  unfold pushFifo
  split
  · exact h
  · split <;> simp <;> omega

/-- SW_FEED of one filter, register by register (41 R171 to R178). -/
theorem feedFilter_eq (cfg : Settings) (f : SwitchFilter) (raw : Byte) (now : Nat) :
    let win := pushWindow cfg.swW f.win raw
    let cand := classify cfg.swLow cfg.swHigh (medianOf win) f.cand
    let tCand := if cand ≠ f.cand then now else f.tCand
    let commits := !stickyHolds now f.tStable cfg.swSticky && debounced now tCand cfg.swDebounce && cand != f.stable
    feedFilter cfg f raw now =
      { win := win
        cand := cand
        tCand := tCand
        stable := if commits then cand else f.stable
        tStable := if commits then now else f.tStable } := by
  intro win cand tCand commits
  have he : feedFilter cfg f raw now =
      if stickyHolds now f.tStable cfg.swSticky then { f with win := win, cand := cand, tCand := tCand }
      else if debounced now tCand cfg.swDebounce && cand != f.stable then
        { win := win, cand := cand, tCand := tCand, stable := cand, tStable := now }
      else { f with win := win, cand := cand, tCand := tCand } := rfl
  rw [he]
  simp only [commits]
  clear_value tCand cand win
  by_cases hs : stickyHolds now f.tStable cfg.swSticky = true
  · simp [hs]
  · by_cases hd : (debounced now tCand cfg.swDebounce && cand != f.stable) = true
    · simp_all
    · simp [hs, hd]

/-- What SW_FEED does to the committed value and the times (41 R174 to R176). -/
theorem feedFilter_cases (cfg : Settings) (f : SwitchFilter) (raw : Byte) (now : Nat) :
    ∃ g, feedFilter cfg f raw now = g ∧
    g.win = pushWindow cfg.swW f.win raw ∧
    (g.tCand = f.tCand ∨ g.tCand = now) ∧
    ((g.stable = f.stable ∧ g.tStable = f.tStable) ∨
      (g.stable = g.cand ∧ g.stable ≠ f.stable ∧ g.tStable = now ∧ cfg.swSticky ≤ now - f.tStable ∧
        cfg.swDebounce ≤ now - g.tCand)) := by
  refine ⟨_, feedFilter_eq cfg f raw now, rfl, ?_, ?_⟩
  · dsimp only
    split <;> simp
  · dsimp only
    generalize classify cfg.swLow cfg.swHigh (medianOf (pushWindow cfg.swW f.win raw)) f.cand = c
    generalize (if c ≠ f.cand then now else f.tCand) = t
    by_cases h : (!stickyHolds now f.tStable cfg.swSticky && debounced now t cfg.swDebounce && c != f.stable) = true
    · rw [if_pos h, if_pos h]
      simp only [stickyHolds, debounced, Bool.and_eq_true, Bool.not_eq_true', decide_eq_false_iff_not, Nat.not_lt,
        decide_eq_true_eq, bne_iff_ne] at h
      exact .inr ⟨rfl, h.2, rfl, h.1.1, h.1.2⟩
    · rw [if_neg h, if_neg h]
      exact .inl ⟨rfl, rfl⟩

end Sys2Proof.Machine
end

