-- ==== Sys2Proof/Laws/Iteration.lean ====
section
/-! SUPPORT. Whole iterations: what the idle branch, a processed frame, LOOP_ITER and a step can do, each said once (43 R212 to
R226, 30_encoding R111). -/

namespace Sys2Proof.Machine

/-- The neutral snapshot (43 R218). -/
def neutralEvent : Event := .sinkUpdate Config.neutralAxes Config.neutralButtons

/-- The events of the stop sequence with a failed sink (43 R225). -/
def failureEvents : List Event := [neutralEvent, .transportClose, .sinkRelease, .report .outputSinkFailure]

/-- What one switch of EDGE_TAPS can emit (43 R217). -/
def TapEvents (evs : List Event) : Prop :=
  evs = [] ∨ ∃ name, evs = [.keyTap name] ∨ evs = [.keyTap name, .diag .keyInjectionFailure]

theorem edgeTap_events (i : Fin 2) (on : Bool) (s : State) :
    ∃ evs ans, edgeTap i on s = { s with out := s.out ++ evs, env := { s.env with keyAns := ans } } ∧ TapEvents evs := by
  unfold edgeTap
  split
  · rw [callKeyTap_eq]
    cases headAnswer s.env.keyAns
    · exact ⟨[.keyTap (tapName s.cfg i on), .diag .keyInjectionFailure], s.env.keyAns.tail, by simp [State.emit],
        .inr ⟨_, .inr rfl⟩⟩
    · exact ⟨[.keyTap (tapName s.cfg i on)], s.env.keyAns.tail, by simp, .inr ⟨_, .inl rfl⟩⟩
  · exact ⟨[], s.env.keyAns, by simp, .inl rfl⟩

/-- A processed frame, whole (43 R215, R216): the sink takes the snapshot, or the run ends. -/
theorem processFrame_whole (f : Frame) (now : Nat) (s : State) :
    ∃ fifo sw st,
      (∀ k, fifo.get k = laneFifo s k (f.pot.get k).toNat) ∧
      (∀ i, sw.get i = feedFilter s.cfg (s.sw.get i) (f.swRaw.get i) now) ∧
      ((headAnswer s.env.sinkAns = true ∧ ∃ g0 g1 obs tObs ans, TapEvents g0 ∧ TapEvents g1 ∧
          (obs = [] ∧ tObs = s.tObs ∨
            (∃ pot raw sts cal, obs = [.obsPublish pot raw sts cal]) ∧ tObs = now ∧ s.cfg.obsInterval ≤ now - s.tObs) ∧
          processFrame f now s =
            { s with
              fifo := fifo, sw := sw, lastEmitted := st, firstSeen := true, lastFrame := f, tLastFrame := now
              loopState := .running, tObs := tObs
              out := s.out ++ .sinkUpdate (frameAxes f s) st :: (g0 ++ g1 ++ obs)
              env := { s.env with sinkAns := s.env.sinkAns.tail, keyAns := ans } }) ∨
        (headAnswer s.env.sinkAns = false ∧
          processFrame f now s =
            { s with
              fifo := fifo, sw := sw, loopState := .stopped, transportHeld := false, sinkHeld := false
              errCode := .outputSinkFailure
              out := s.out ++ .sinkUpdate (frameAxes f s) st :: failureEvents
              env := { s.env with sinkAns := s.env.sinkAns.tail.tail } })) := by
  refine ⟨(conditioned f now s).fifo, (conditioned f now s).sw,
    ⟨(conditioned f now s).sw.p0.stable, (conditioned f now s).sw.p1.stable⟩, ?_, ?_, ?_⟩
  · intro k; simp [conditioned]
  · intro i; fin_cases i <;> rfl
  · rcases processFrame_cases f now s with ⟨h1, h2⟩ | ⟨h1, h2⟩
    · right
      refine ⟨h1, ?_⟩
      rw [h2, stopRun_eq]
      simp only [conditioned, failureEvents, neutralEvent, List.append_assoc, List.cons_append, List.nil_append]
      rfl
    · left
      refine ⟨h1, ?_⟩
      rw [h2]
      unfold edgeTaps
      generalize hst : (⟨(conditioned f now s).sw.p0.stable, (conditioned f now s).sw.p1.stable⟩ : Pair Bool) = st
      obtain ⟨g0, a0, e0, t0⟩ := edgeTap_events 0 st.p0
        { conditioned f now s with
          out := s.out ++ [.sinkUpdate (frameAxes f s) st], env := { s.env with sinkAns := s.env.sinkAns.tail } }
      rw [e0]
      obtain ⟨g1, a1, e1, t1⟩ := edgeTap_events 1 st.p1
        { conditioned f now s with
          out := s.out ++ [.sinkUpdate (frameAxes f s) st] ++ g0
          env := { s.env with sinkAns := s.env.sinkAns.tail, keyAns := a0 } }
      rw [e1]
      rcases obsPublish_cases now (bookFrame f st now
        { conditioned f now s with
          out := s.out ++ [.sinkUpdate (frameAxes f s) st] ++ g0 ++ g1
          env := { s.env with sinkAns := s.env.sinkAns.tail, keyAns := a1 } }) with ⟨h3, h4⟩ | ⟨h3, h4⟩
      · refine ⟨g0, g1, [], s.tObs, a1, t0, t1, .inl ⟨rfl, rfl⟩, ?_⟩
        rw [h4]
        simp only [bookFrame, conditioned, List.append_assoc, List.cons_append, List.nil_append, List.append_nil]
      · refine ⟨g0, g1,
          [.obsPublish f.pot f.swRaw ⟨(conditioned f now s).sw.p0.stable, (conditioned f now s).sw.p1.stable⟩ f.cal],
          now, a1, t0, t1, .inr ⟨⟨_, _, _, _, rfl⟩, rfl, ?_⟩, ?_⟩
        · simpa [obsDue, bookFrame, conditioned] using h3
        · rw [h4]
          simp only [bookFrame, conditioned, List.append_assoc, List.cons_append, List.nil_append]

/-- The idle branch, whole (43 R219 to R223). -/
theorem idleBranch_cases (now : Nat) (s : State) :
    (now ≤ s.tLastFrame + s.cfg.idleThreshold ∧ idleBranch now s = s) ∨
    (s.tLastFrame + s.cfg.idleThreshold < now ∧ ∃ ls ti evs,
      (s.loopState = .running ∧ ls = .timeoutNeutral ∧ ti = now ∧ evs = [.diag .idleTimeout] ∨
        s.loopState ≠ .running ∧ ls = s.loopState ∧
          (ti = now ∧ evs = [.diag .idleTimeout] ∧ s.cfg.idleDiagInterval ≤ now - s.tIdleDiag ∨
            ti = s.tIdleDiag ∧ evs = [])) ∧
      ((headAnswer s.env.sinkAns = true ∧
          idleBranch now s =
            { s with
              loopState := ls, tIdleDiag := ti, out := s.out ++ evs ++ [neutralEvent]
              env := { s.env with sinkAns := s.env.sinkAns.tail } }) ∨
        (headAnswer s.env.sinkAns = false ∧
          idleBranch now s =
            { s with
              loopState := .stopped, transportHeld := false, sinkHeld := false, errCode := .outputSinkFailure
              tIdleDiag := ti, out := s.out ++ evs ++ [neutralEvent] ++ failureEvents
              env := { s.env with sinkAns := s.env.sinkAns.tail.tail } }))) := by
  by_cases h : now ≤ s.tLastFrame + s.cfg.idleThreshold
  · have he : idleElapsed now s.tLastFrame s.cfg.idleThreshold = false := by simp [idleElapsed]; omega
    exact .inl ⟨h, by simp [idleBranch, he]⟩
  · right
    refine ⟨by omega, ?_⟩
    have he : idleElapsed now s.tLastFrame s.cfg.idleThreshold = true := by simp [idleElapsed]; omega
    have hb : idleBranch now s = neutralPush (idleDiag now s) := by simp [idleBranch, he]
    rw [hb]
    have fin : ∀ (ls : LoopState) (ti : Nat) (evs : List Event),
        idleDiag now s = { s with loopState := ls, tIdleDiag := ti, out := s.out ++ evs } →
        ((headAnswer s.env.sinkAns = true ∧
            neutralPush (idleDiag now s) =
              { s with
                loopState := ls, tIdleDiag := ti, out := s.out ++ evs ++ [neutralEvent]
                env := { s.env with sinkAns := s.env.sinkAns.tail } }) ∨
          (headAnswer s.env.sinkAns = false ∧
            neutralPush (idleDiag now s) =
              { s with
                loopState := .stopped, transportHeld := false, sinkHeld := false, errCode := .outputSinkFailure
                tIdleDiag := ti, out := s.out ++ evs ++ [neutralEvent] ++ failureEvents
                env := { s.env with sinkAns := s.env.sinkAns.tail.tail } })) := by
      intro ls ti evs h
      rw [h]
      rcases neutralPush_cases { s with loopState := ls, tIdleDiag := ti, out := s.out ++ evs } with ⟨h1, h2⟩ | ⟨h1, h2⟩
      · exact .inl ⟨h1, h2⟩
      · exact .inr ⟨h1, by rw [h2, stopRun_eq]; rfl⟩
    rcases idleDiag_cases now s with ⟨h1, h2⟩ | ⟨h1, h3, h2⟩ | ⟨h1, h3, h2⟩
    · exact ⟨.timeoutNeutral, now, _, .inl ⟨h1, rfl, rfl, rfl⟩, fin _ _ _ h2⟩
    · exact ⟨s.loopState, now, _, .inr ⟨h1, rfl, .inl ⟨rfl, rfl, by simpa [idleDiagDue] using h3⟩⟩, fin _ _ _ h2⟩
    · exact ⟨s.loopState, s.tIdleDiag, [], .inr ⟨h1, rfl, .inr ⟨rfl, rfl⟩⟩, fin _ _ _ (by rw [h2]; simp)⟩

/-- After the decode call: the frame is processed, or the idle branch is taken (43 R212). -/
theorem afterDecode_cases (r : CallResult) (now : Nat) (s : State) :
    (∃ f, r = .frame f ∧ afterDecode r now s = processFrame f now s) ∨
    ((∀ f, r ≠ .frame f) ∧ afterDecode r now s = idleBranch now s) := by
  cases r with
  | frame f => exact .inl ⟨f, rfl, rfl⟩
  | empty => exact .inr ⟨by simp, rfl⟩
  | dropped code => exact .inr ⟨by simp, rfl⟩

/-- Everything LOOP_ITER can do when it answers a next state (43 R212 to R214). -/
theorem exec_loopIter_cases {s t : State} (h : exec .loopIter s = .next t) :
    s.inRun = true ∧
    ((s.env.cancel = true ∧ t = (stopRun .none s).ret .none) ∨
      (s.env.cancel = false ∧ s.tLast ≤ s.env.clock ∧ ∃ d c evs q r,
        (callDecode s).1 = r ∧
        (callDecode s).2 = { s with dec := d, diagCount := c, out := s.out ++ evs, env := { s.env with rxq := q } } ∧
        DropEvents evs ∧ (∀ f, r = .frame f → evs = []) ∧ (∃ used, s.env.rxq = used ++ q) ∧
        t = (afterDecode r s.env.clock
          { s with
            dec := d, diagCount := c, out := s.out ++ evs, env := { s.env with rxq := q }
            tLast := s.env.clock }).ret .none)) := by
  change execLoopIter s = _ at h
  unfold execLoopIter at h
  obtain ⟨hr, h⟩ := whenInRun_next h
  refine ⟨hr, ?_⟩
  obtain ⟨d, c, evs, q, he, hd, hf, hu⟩ := callDecode_events s
  cases hc : s.env.cancel with
  | true =>
    rw [hc] at h
    simp only [if_true] at h
    injection h with h
    exact .inl ⟨rfl, h.symm⟩
  | false =>
    rw [hc] at h
    simp only [Bool.false_eq_true, if_false] at h
    obtain ⟨hle, h⟩ := atTime_next h
    injection h with h
    rw [he] at hle h
    exact .inr ⟨rfl, hle, d, c, evs, q, _, rfl, he, hd, hf, hu, h.symm⟩

/-- Everything a step can do when it answers a next state: nothing, a change of the environment, or the instruction that the
request decodes to (30_encoding R111, log entries 2, 11). -/
theorem step_cases {s t : State} (h : step s = .next t) :
    t = s ∨ (∃ e, t = { s with env := e } ∧ ∀ ws rest, s.env.inputs ≠ .op ws :: rest) ∨
    (∃ i rest q, exec i { s with env := { s.env with inputs := rest, rxq := q } } = .next t ∧
      ((∃ ws, s.env.inputs = .op ws :: rest ∧ q = s.env.rxq ∧ decode s.fmt (.words ws) = .ok i) ∨
        (s.env.inputs = .unit :: rest ∧ decodeWire s.fmt s.env.rxq = .ok (i, q)))) := by
  unfold step at h
  rcases fetch_cases s with ⟨-, h2⟩ | ⟨ws, rest, i, h1, h2, h3⟩ | ⟨_, _, _, -, -, h3⟩ | ⟨rest, i, q, h1, h2, h3⟩ |
    ⟨_, _, -, -, h3⟩ | ⟨i, rest, h1, h2, -, h4⟩
  · rw [h2] at h; injection h with h; exact .inl h.symm
  · rw [h3] at h; exact .inr (.inr ⟨i, rest, s.env.rxq, h, .inl ⟨ws, h1, rfl, h2⟩⟩)
  · rw [h3] at h; cases h
  · rw [h3] at h; exact .inr (.inr ⟨i, rest, q, h, .inr ⟨h1, h2⟩⟩)
  · rw [h3] at h; cases h
  · rw [h4] at h
    injection h with h
    subst h
    refine .inr (.inl ⟨_, rfl, ?_⟩)
    intro ws r hh
    rw [h1] at hh
    injection hh with hh
    exact h2 ws hh

end Sys2Proof.Machine
end

