-- ==== Sys2Proof/Laws/PerInstr.lean ====
section
/-! SUPPORT. Statements made of every instruction, one lemma for each constructor of Instr. -/

namespace Sys2Proof.Laws

/-- How an instruction is carried: a wire row is bytes of one wire format, has no operation words and needs a run; an
operation is words that begin with an 8-bit identifier, and no bytes (30_encoding R90, R110). -/
def Kind.Statement (i : Instr) : Prop :=
  (∃ f, i.wireFormat = some f ∧ encode i = .bytes (encodeWire i) ∧ encodeOp i = [] ∧ Machine.needsRun i = true) ∨
  (i.wireFormat = none ∧ encodeWire i = [] ∧ ∃ id ws, encode i = .words (id :: ws) ∧ id < 256)

theorem Kind.frameB (pot : Lanes Byte) (status rsv0 rsv1 : Byte) :
    Kind.Statement (.frameB pot status rsv0 rsv1) := .inl ⟨_, rfl, rfl, rfl, rfl⟩

theorem Kind.frameBOtherLen (payload : List Byte) :
    Kind.Statement (.frameBOtherLen payload) := .inl ⟨_, rfl, rfl, rfl, rfl⟩

theorem Kind.frameBBadCrc (payload : List Byte) (trailer : Byte) :
    Kind.Statement (.frameBBadCrc payload trailer) := .inl ⟨_, rfl, rfl, rfl, rfl⟩

theorem Kind.frameBBadLenRange (l : Byte) :
    Kind.Statement (.frameBBadLenRange l) := .inl ⟨_, rfl, rfl, rfl, rfl⟩

theorem Kind.frameA (pots : Lanes (List Byte)) (s1 s2 : List Byte) (cr : Bool) :
    Kind.Statement (.frameA pots s1 s2 cr) := .inl ⟨_, rfl, rfl, rfl, rfl⟩

theorem Kind.lineADropped (line : List Byte) :
    Kind.Statement (.lineADropped line) := .inl ⟨_, rfl, rfl, rfl, rfl⟩

theorem Kind.crc8Update (c b : Byte) :
    Kind.Statement (.crc8Update c b) := .inr ⟨rfl, rfl, _, _, rfl, by decide⟩

theorem Kind.crc8 (p : List Byte) :
    Kind.Statement (.crc8 p) := .inr ⟨rfl, rfl, _, _, rfl, by decide⟩

theorem Kind.decByteB (b : Byte) :
    Kind.Statement (.decByteB b) := .inr ⟨rfl, rfl, _, _, rfl, by decide⟩

theorem Kind.decByteA (b : Byte) :
    Kind.Statement (.decByteA b) := .inr ⟨rfl, rfl, _, _, rfl, by decide⟩

theorem Kind.parseLine (line : List Byte) :
    Kind.Statement (.parseLine line) := .inr ⟨rfl, rfl, _, _, rfl, by decide⟩

theorem Kind.parseInt (field : List Byte) :
    Kind.Statement (.parseInt field) := .inr ⟨rfl, rfl, _, _, rfl, by decide⟩

theorem Kind.decodeCall :
    Kind.Statement .decodeCall := .inr ⟨rfl, rfl, _, _, rfl, by decide⟩

theorem Kind.median (w : List Byte) :
    Kind.Statement (.median w) := .inr ⟨rfl, rfl, _, _, rfl, by decide⟩

theorem Kind.swFeed (sw : Fin 2) (raw : Byte) (t : Nat) :
    Kind.Statement (.swFeed sw raw t) := .inr ⟨rfl, rfl, _, _, rfl, by decide⟩

theorem Kind.axisMap (k : Fin 8) (raw : Int) :
    Kind.Statement (.axisMap k raw) := .inr ⟨rfl, rfl, _, _, rfl, by decide⟩

theorem Kind.loopStart :
    Kind.Statement .loopStart := .inr ⟨rfl, rfl, _, _, rfl, by decide⟩

theorem Kind.loopIter :
    Kind.Statement .loopIter := .inr ⟨rfl, rfl, _, _, rfl, by decide⟩

theorem Kind.processFrame (f : Frame) (t : Nat) :
    Kind.Statement (.processFrame f t) := .inr ⟨rfl, rfl, _, _, rfl, by decide⟩

theorem Kind.edgeTaps (st : Pair Bool) :
    Kind.Statement (.edgeTaps st) := .inr ⟨rfl, rfl, _, _, rfl, by decide⟩

theorem Kind.neutralPush :
    Kind.Statement .neutralPush := .inr ⟨rfl, rfl, _, _, rfl, by decide⟩

theorem Kind.obsPublish (t : Nat) :
    Kind.Statement (.obsPublish t) := .inr ⟨rfl, rfl, _, _, rfl, by decide⟩

theorem Kind.loopStop (cause : Code) :
    Kind.Statement (.loopStop cause) := .inr ⟨rfl, rfl, _, _, rfl, by decide⟩

theorem Kind.rxRead :
    Kind.Statement .rxRead := .inr ⟨rfl, rfl, _, _, rfl, by decide⟩

theorem Kind.transportOpen (portName baudRate readTimeout : Nat) :
    Kind.Statement (.transportOpen portName baudRate readTimeout) := .inr ⟨rfl, rfl, _, _, rfl, by decide⟩

theorem Kind.transportClose :
    Kind.Statement .transportClose := .inr ⟨rfl, rfl, _, _, rfl, by decide⟩

theorem Kind.sinkAcquire (outDeviceId : Nat) :
    Kind.Statement (.sinkAcquire outDeviceId) := .inr ⟨rfl, rfl, _, _, rfl, by decide⟩

theorem Kind.sinkRelease :
    Kind.Statement .sinkRelease := .inr ⟨rfl, rfl, _, _, rfl, by decide⟩

theorem Kind.sinkUpdate (axis : Lanes Nat) (btn : Pair Bool) :
    Kind.Statement (.sinkUpdate axis btn) := .inr ⟨rfl, rfl, _, _, rfl, by decide⟩

theorem Kind.keyTap (name : KeyName) :
    Kind.Statement (.keyTap name) := .inr ⟨rfl, rfl, _, _, rfl, by decide⟩

theorem Kind.obsEvent (pot : Lanes Byte) (swRaw : Pair Byte) (swStable : Pair Bool) (cal : Bool) :
    Kind.Statement (.obsEvent pot swRaw swStable cal) := .inr ⟨rfl, rfl, _, _, rfl, by decide⟩

theorem Kind.diag (code : Code) :
    Kind.Statement (.diag code) := .inr ⟨rfl, rfl, _, _, rfl, by decide⟩

theorem Kind.report (code : Code) :
    Kind.Statement (.report code) := .inr ⟨rfl, rfl, _, _, rfl, by decide⟩

theorem Kind.now :
    Kind.Statement .now := .inr ⟨rfl, rfl, _, _, rfl, by decide⟩

theorem Kind.cancelLevel :
    Kind.Statement .cancelLevel := .inr ⟨rfl, rfl, _, _, rfl, by decide⟩

end Sys2Proof.Laws
end

