-- ==== Sys2Proof/Laws/Readers.lean ====
section
/-! SUPPORT. One lemma for each reader of operand words: it reads back what the encoder writes, and nothing else (30_encoding
R110, log entry 8). -/

namespace Sys2Proof
open Machine

theorem thenRead_ok {α β : Type} (x : α) (ws : List Nat) (f : α → List Nat → Reader β) : thenRead (.ok (x, ws)) f = f x ws := rfl

theorem thenRead_inv {α β : Type} {r : Reader α} {f : α → List Nat → Reader β} {y : β × List Nat} (h : thenRead r f = .ok y) :
    ∃ x ws, r = .ok (x, ws) ∧ f x ws = .ok y := by
  unfold thenRead at h
  split at h
  · exact ⟨_, _, rfl, h⟩
  · cases h

/-- A reader of operand words and what writes them: the reader gives back what was written and leaves what follows, and
reads nothing else. -/
def Reads {α : Type} (r : List Nat → Reader α) (w : α → List Nat) (ok : α → Prop) : Prop :=
  (∀ x ws, ok x → r (w x ++ ws) = .ok (x, ws)) ∧ (∀ ws x ws', r ws = .ok (x, ws') → ws = w x ++ ws' ∧ ok x)

theorem readNat_reads : Reads readNat (fun n => [n]) (fun _ => True) := by
  constructor
  · intro x ws _; rfl
  · intro ws x ws' h
    cases ws with
    | nil => cases h
    | cons w ws => simp [readNat] at h; obtain ⟨rfl, rfl⟩ := h; exact ⟨rfl, trivial⟩

theorem readBelow_reads (n : Nat) : Reads (readBelow n) (fun n => [n]) (fun x => x < n) := by
  constructor
  · intro x ws h; simp [readBelow, h]
  · intro ws x ws' h
    cases ws with
    | nil => cases h
    | cons w ws =>
      simp only [readBelow] at h
      split at h
      · injection h with h; injection h with h1 h2; subst h1 h2; exact ⟨rfl, by assumption⟩
      · cases h

theorem readByte_reads : Reads readByte (fun b => [b.toNat]) (fun _ => True) := by
  constructor
  · intro x ws _
    have : readBelow 256 ([x.toNat] ++ ws) = .ok (x.toNat, ws) := (readBelow_reads 256).1 _ _ x.isLt
    simp only [readByte, this, thenRead_ok]
    simp
  · intro ws x ws' h
    obtain ⟨w, ws1, h1, h2⟩ := thenRead_inv h
    obtain ⟨rfl, hw⟩ := (readBelow_reads 256).2 _ _ _ h1
    injection h2 with h2; injection h2 with h2 h3
    subst h2 h3
    refine ⟨?_, trivial⟩
    simp; omega

theorem readBit_reads : Reads readBit (fun b => [wordOfBit b]) (fun _ => True) := by
  constructor
  · intro x ws _; cases x <;> rfl
  · intro ws x ws' h
    obtain ⟨w, ws1, h1, h2⟩ := thenRead_inv h
    obtain ⟨rfl, hw⟩ := (readBelow_reads 2).2 _ _ _ h1
    injection h2 with h2; injection h2 with h2 h3
    subst h2 h3
    refine ⟨?_, trivial⟩
    match w, hw with
    | 0, _ => rfl
    | 1, _ => rfl

theorem intOfWord_wordOfInt (v : Int) : intOfWord (wordOfInt v) = v := by
  cases v with
  | ofNat m => simp [wordOfInt, intOfWord]
  | negSucc m =>
    show (if (2 * m + 1) % 2 = 0 then Int.ofNat ((2 * m + 1) / 2) else Int.negSucc ((2 * m + 1) / 2)) = _
    rw [if_neg (by omega)]
    congr 1; omega

theorem wordOfInt_intOfWord (w : Nat) : wordOfInt (intOfWord w) = w := by
  unfold intOfWord
  split <;> simp only [wordOfInt] <;> omega

theorem readInt_reads : Reads readInt (fun v => [wordOfInt v]) (fun _ => True) := by
  constructor
  · intro x ws _
    simp [readInt, readNat, thenRead, intOfWord_wordOfInt]
  · intro ws x ws' h
    obtain ⟨w, ws1, h1, h2⟩ := thenRead_inv h
    obtain ⟨rfl, hw⟩ := readNat_reads.2 _ _ _ h1
    injection h2 with h2; injection h2 with h2 h3
    subst h2 h3
    exact ⟨by show w :: ws1 = wordOfInt (intOfWord w) :: ws1; rw [wordOfInt_intOfWord], trivial⟩

theorem codeOfNumber_codeNumber (c : Code) : codeOfNumber (codeNumber c) = some c := by cases c <;> rfl

theorem codeOfNumber_some (n : Nat) (c : Code) (h : codeOfNumber n = some c) : n = codeNumber c := by
  unfold codeOfNumber at h
  split at h <;> first | (cases h; rfl) | cases h

theorem readCode_reads : Reads readCode (fun c => [codeNumber c]) (fun _ => True) := by
  constructor
  · intro x ws _
    simp [readCode, readNat, thenRead, codeOfNumber_codeNumber]
  · intro ws x ws' h
    obtain ⟨w, ws1, h1, h2⟩ := thenRead_inv h
    obtain ⟨rfl, hw⟩ := readNat_reads.2 _ _ _ h1
    split at h2
    · rename_i c hc
      injection h2 with h2; injection h2 with h2 h3
      subst h2 h3
      exact ⟨by show w :: ws1 = codeNumber c :: ws1; rw [← codeOfNumber_some _ _ hc], trivial⟩
    · cases h2

theorem readSwitch_reads : Reads readSwitch (fun i => [i.val]) (fun _ => True) := by
  constructor
  · intro x ws _; fin_cases x <;> rfl
  · intro ws x ws' h
    obtain ⟨w, ws1, h1, h2⟩ := thenRead_inv h
    obtain ⟨rfl, hw⟩ := (readBelow_reads 2).2 _ _ _ h1
    injection h2 with h2; injection h2 with h2 h3
    subst h2 h3
    refine ⟨?_, trivial⟩
    match w, hw with
    | 0, _ => rfl
    | 1, _ => rfl

theorem readAxis_reads : Reads readAxis (fun i => [i.val]) (fun _ => True) := by
  constructor
  · intro x ws _
    have : readBelow 8 ([x.val] ++ ws) = .ok (x.val, ws) := (readBelow_reads 8).1 _ _ x.isLt
    simp only [readAxis, this, thenRead_ok]
    congr 2
    exact Fin.ext (Nat.mod_eq_of_lt x.isLt)
  · intro ws x ws' h
    obtain ⟨w, ws1, h1, h2⟩ := thenRead_inv h
    obtain ⟨rfl, hw⟩ := (readBelow_reads 8).2 _ _ _ h1
    injection h2 with h2; injection h2 with h2 h3
    subst h2 h3
    exact ⟨by simp [Fin.ofNat, Nat.mod_eq_of_lt hw], trivial⟩

theorem readAxisValue_reads : Reads readAxisValue (fun v => [v - 1]) (fun v => axisInRange v = true) := by
  constructor
  · intro x ws hx
    simp [axisInRange] at hx
    have : readBelow 32767 ([x - 1] ++ ws) = .ok (x - 1, ws) := (readBelow_reads 32767).1 _ _ (by omega)
    simp only [readAxisValue, this, thenRead_ok]
    congr 2; omega
  · intro ws x ws' h
    obtain ⟨w, ws1, h1, h2⟩ := thenRead_inv h
    obtain ⟨rfl, hw⟩ := (readBelow_reads 32767).2 _ _ _ h1
    injection h2 with h2; injection h2 with h2 h3
    subst h2 h3
    exact ⟨by simp, by simp [axisInRange]; omega⟩

theorem readPair_reads {α : Type} {r : List Nat → Reader α} {w : α → Nat} {ok : α → Prop}
    (hr : Reads r (fun x => [w x]) ok) : Reads (readPair r) (wordsOfPair w) (fun p => ok p.p0 ∧ ok p.p1) := by
  constructor
  · rintro ⟨a, b⟩ ws ⟨ha, hb⟩
    have h0 : ∀ x ws, ok x → r (w x :: ws) = .ok (x, ws) := hr.1
    simp only [readPair, wordsOfPair, List.cons_append, List.nil_append]
    rw [h0 _ _ ha, thenRead_ok, h0 _ _ hb, thenRead_ok]
  · intro ws x ws' h
    obtain ⟨a, ws1, h1, h2⟩ := thenRead_inv h
    obtain ⟨b, ws2, h3, h4⟩ := thenRead_inv h2
    obtain ⟨rfl, ha⟩ := hr.2 _ _ _ h1
    obtain ⟨rfl, hb⟩ := hr.2 _ _ _ h3
    injection h4 with h4; injection h4 with h4 h5
    subst h4 h5
    exact ⟨rfl, ha, hb⟩

theorem readLanes_reads {α : Type} {r : List Nat → Reader α} {w : α → Nat} {ok : α → Prop}
    (hr : Reads r (fun x => [w x]) ok) : Reads (readLanes r) (wordsOfLanes w) (fun v => ∀ x ∈ v.toList, ok x) := by
  have h0 : ∀ x ws, ok x → r (w x :: ws) = .ok (x, ws) := hr.1
  constructor
  · rintro ⟨a0, a1, a2, a3, a4, a5, a6, a7⟩ ws ha
    simp only [Lanes.toList, List.mem_cons, List.not_mem_nil, or_false, forall_eq_or_imp, forall_eq] at ha
    obtain ⟨g0, g1, g2, g3, g4, g5, g6, g7⟩ := ha
    simp only [readLanes, wordsOfLanes, Lanes.toList, List.map, List.cons_append, List.nil_append]
    rw [h0 _ _ g0, thenRead_ok, h0 _ _ g1, thenRead_ok, h0 _ _ g2, thenRead_ok, h0 _ _ g3, thenRead_ok,
      h0 _ _ g4, thenRead_ok, h0 _ _ g5, thenRead_ok, h0 _ _ g6, thenRead_ok, h0 _ _ g7, thenRead_ok]
  · intro ws x ws' h
    obtain ⟨a0, w0, h1, h⟩ := thenRead_inv h
    obtain ⟨a1, w1, h2, h⟩ := thenRead_inv h
    obtain ⟨a2, w2, h3, h⟩ := thenRead_inv h
    obtain ⟨a3, w3, h4, h⟩ := thenRead_inv h
    obtain ⟨a4, w4, h5, h⟩ := thenRead_inv h
    obtain ⟨a5, w5, h6, h⟩ := thenRead_inv h
    obtain ⟨a6, w6, h7, h⟩ := thenRead_inv h
    obtain ⟨a7, w7, h8, h⟩ := thenRead_inv h
    cases h
    obtain ⟨rfl, g0⟩ := hr.2 _ _ _ h1
    obtain ⟨rfl, g1⟩ := hr.2 _ _ _ h2
    obtain ⟨rfl, g2⟩ := hr.2 _ _ _ h3
    obtain ⟨rfl, g3⟩ := hr.2 _ _ _ h4
    obtain ⟨rfl, g4⟩ := hr.2 _ _ _ h5
    obtain ⟨rfl, g5⟩ := hr.2 _ _ _ h6
    obtain ⟨rfl, g6⟩ := hr.2 _ _ _ h7
    obtain ⟨rfl, g7⟩ := hr.2 _ _ _ h8
    refine ⟨rfl, ?_⟩
    simp only [Lanes.toList, List.mem_cons, List.not_mem_nil, or_false, forall_eq_or_imp, forall_eq]
    exact ⟨g0, g1, g2, g3, g4, g5, g6, g7⟩

theorem readByteCount_reads (bs : List Byte) (ws : List Nat) : readByteCount bs.length (wordsOfBytes bs ++ ws) = .ok (bs, ws) := by
  induction bs with
  | nil => rfl
  | cons b bs ih =>
    simp only [List.length_cons, readByteCount, wordsOfBytes, List.map_cons, List.cons_append]
    have := readByte_reads.1 b (wordsOfBytes bs ++ ws) trivial
    simp only [List.singleton_append, wordsOfBytes] at this
    rw [this, thenRead_ok]
    unfold wordsOfBytes at ih
    rw [ih, thenRead_ok]

theorem readByteCount_inv (n : Nat) (ws : List Nat) (bs : List Byte) (ws' : List Nat) (h : readByteCount n ws = .ok (bs, ws')) :
    ws = wordsOfBytes bs ++ ws' ∧ bs.length = n := by
  induction n generalizing ws bs with
  | zero => simp [readByteCount] at h; obtain ⟨rfl, rfl⟩ := h; exact ⟨rfl, rfl⟩
  | succ n ih =>
    obtain ⟨b, w1, h1, h2⟩ := thenRead_inv h
    obtain ⟨bs', w2, h3, h4⟩ := thenRead_inv h2
    injection h4 with h4; injection h4 with h4 h5
    subst h4 h5
    obtain ⟨rfl, -⟩ := readByte_reads.2 _ _ _ h1
    obtain ⟨rfl, h6⟩ := ih _ _ h3
    exact ⟨rfl, by simp [h6]⟩

theorem readBytes_reads : Reads readBytes (fun bs => bs.length :: wordsOfBytes bs) (fun _ => True) := by
  constructor
  · intro x ws _
    simp only [readBytes, List.cons_append, readNat, thenRead_ok]
    exact readByteCount_reads x ws
  · intro ws x ws' h
    obtain ⟨n, w1, h1, h2⟩ := thenRead_inv h
    obtain ⟨rfl, -⟩ := readNat_reads.2 _ _ _ h1
    obtain ⟨rfl, rfl⟩ := readByteCount_inv _ _ _ _ h2
    exact ⟨rfl, trivial⟩

theorem readBytes1_reads : Reads readBytes1 (fun bs => (bs.length - 1) :: wordsOfBytes bs) (fun bs => bs ≠ []) := by
  constructor
  · intro x ws hx
    simp only [readBytes1, List.cons_append, readNat, thenRead_ok]
    have : x.length - 1 + 1 = x.length := by
      have := List.length_pos_iff.mpr hx; omega
    rw [this]
    exact readByteCount_reads x ws
  · intro ws x ws' h
    obtain ⟨n, w1, h1, h2⟩ := thenRead_inv h
    obtain ⟨rfl, -⟩ := readNat_reads.2 _ _ _ h1
    obtain ⟨rfl, h3⟩ := readByteCount_inv _ _ _ _ h2
    refine ⟨by simp [h3], ?_⟩
    intro e; subst e; simp at h3

/-- The operand words of a Frame. -/
def wordsOfFrame (f : Frame) : List Nat := wordsOfLanes BitVec.toNat f.pot ++ (wordsOfPair BitVec.toNat f.swRaw ++ [wordOfBit f.cal])

theorem readFrame_reads : Reads readFrame wordsOfFrame (fun _ => True) := by
  constructor
  · rintro ⟨p, w, c⟩ ws _
    simp only [readFrame, wordsOfFrame, List.append_assoc]
    rw [(readLanes_reads readByte_reads).1 _ _ (fun _ _ => trivial), thenRead_ok,
      (readPair_reads readByte_reads).1 _ _ ⟨trivial, trivial⟩, thenRead_ok,
      readBit_reads.1 _ _ trivial, thenRead_ok]
  · intro ws x ws' h
    obtain ⟨p, w1, h1, h⟩ := thenRead_inv h
    obtain ⟨q, w2, h2, h⟩ := thenRead_inv h
    obtain ⟨c, w3, h3, h⟩ := thenRead_inv h
    cases h
    obtain ⟨rfl, -⟩ := (readLanes_reads readByte_reads).2 _ _ _ h1
    obtain ⟨rfl, -⟩ := (readPair_reads readByte_reads).2 _ _ _ h2
    obtain ⟨rfl, -⟩ := readBit_reads.2 _ _ _ h3
    exact ⟨by simp [wordsOfFrame], trivial⟩

end Sys2Proof
end

