-- ==== Sys2Proof/Laws/Sorting.lean ====
section
/-! SUPPORT. The sort of MEDIAN gives the readings in order (41 R172). -/

namespace Sys2Proof.Machine

theorem insertSorted_perm (x : Nat) (l : List Nat) : (insertSorted x l).Perm (x :: l) := by
  induction l with
  | nil => exact .refl _
  | cons y l ih =>
    unfold insertSorted
    split
    · exact .refl _
    · exact (List.Perm.cons y ih).trans (List.Perm.swap x y l)

theorem insertSorted_pairwise (x : Nat) (l : List Nat) (h : l.Pairwise (· ≤ ·)) : (insertSorted x l).Pairwise (· ≤ ·) := by
  induction l with
  | nil => simp [insertSorted]
  | cons y l ih =>
    rw [List.pairwise_cons] at h
    unfold insertSorted
    split
    · rename_i hxy
      rw [List.pairwise_cons]
      refine ⟨?_, List.pairwise_cons.mpr h⟩
      intro z hz
      rcases List.mem_cons.mp hz with rfl | hz
      · exact hxy
      · exact le_trans hxy (h.1 z hz)
    · rename_i hxy
      rw [List.pairwise_cons]
      refine ⟨?_, ih h.2⟩
      intro z hz
      rcases List.mem_cons.mp ((insertSorted_perm x l).mem_iff.mp hz) with rfl | hz
      · omega
      · exact h.1 z hz

theorem sortNumbers_perm (l : List Nat) : (sortNumbers l).Perm l := by
  induction l with
  | nil => exact .refl _
  | cons x l ih => exact (insertSorted_perm x _).trans (ih.cons x)

theorem sortNumbers_pairwise (l : List Nat) : (sortNumbers l).Pairwise (· ≤ ·) := by
  induction l with
  | nil => simp [sortNumbers]
  | cons x l ih => exact insertSorted_pairwise x _ ih

end Sys2Proof.Machine
end

