-- ==== Sys2Proof/Laws/Text.lean ====
section
/-! SUPPORT. What the text operations of wire format A can answer (30_encoding R93 to R95, 40 R141, R142). -/

namespace Sys2Proof.Machine

/-- A line has at least one field (30_encoding R94). -/
theorem splitCommas_ne_nil (l : List Byte) : splitCommas l ≠ [] := by
  cases l with
  | nil => simp [splitCommas]
  | cons b l =>
    unfold splitCommas
    split
    · simp
    · split <;> simp

/-- The first field ends at the first comma. -/
theorem splitCommas_append_comma (f rest : List Byte) (h : 0x2C#8 ∉ f) :
    splitCommas (f ++ 0x2C#8 :: rest) = f :: splitCommas rest := by
  induction f with
  | nil => simp [splitCommas]
  | cons b f ih =>
    simp at h
    rw [List.cons_append]
    conv_lhs => unfold splitCommas
    rw [if_neg (fun e => h.1 e.symm), ih h.2]

/-- A line without a comma is one field. -/
theorem splitCommas_of_no_comma (f : List Byte) (h : 0x2C#8 ∉ f) : splitCommas f = [f] := by
  induction f with
  | nil => rfl
  | cons b f ih =>
    simp at h
    unfold splitCommas
    rw [if_neg (fun e => h.1 e.symm), ih h.2]

/-- `c` commas give `c + 1` fields (30_encoding R94). -/
theorem splitCommas_length (l : List Byte) : (splitCommas l).length = l.count 0x2C#8 + 1 := by
  induction l with
  | nil => rfl
  | cons b l ih =>
    unfold splitCommas
    by_cases hb : b = 0x2C#8
    · subst hb; rw [if_pos rfl]; simp [ih]
    · rw [if_neg hb]
      rw [List.count_cons_of_ne hb]
      cases hs : splitCommas l with
      | nil => exact absurd hs (splitCommas_ne_nil l)
      | cons g gs => rw [hs] at ih; simpa using ih

/-- The digit loop accepts digits and computes the number they spell (40 R142). -/
theorem parseDigits_of_digits (ds : List Byte) (m : Nat) (h : ∀ d ∈ ds, 0x30 ≤ d.toNat ∧ d.toNat ≤ 0x39) :
    parseDigits m ds = some (ds.foldl (fun m d => 10 * m + (d.toNat - 0x30)) m) := by
  induction ds generalizing m with
  | nil => rfl
  | cons d ds ih =>
    have hd := h d (by simp)
    unfold parseDigits
    rw [if_neg (by simp; omega), ih _ (fun x hx => h x (by simp [hx]))]
    rfl

/-- The digit loop accepts nothing but digits. -/
theorem parseDigits_some (ds : List Byte) (m v : Nat) (h : parseDigits m ds = some v) :
    (∀ d ∈ ds, 0x30 ≤ d.toNat ∧ d.toNat ≤ 0x39) ∧ v = ds.foldl (fun m d => 10 * m + (d.toNat - 0x30)) m := by
  induction ds generalizing m with
  | nil => simp [parseDigits] at h; simp [h]
  | cons d ds ih =>
    unfold parseDigits at h
    split at h
    · cases h
    · rename_i hd
      simp at hd
      obtain ⟨h1, h2⟩ := ih _ h
      refine ⟨?_, h2⟩
      intro x hx
      rcases List.mem_cons.mp hx with hx | hx
      · subst hx; omega
      · exact h1 x hx

theorem dropWhile_append_of_all {p : Byte → Bool} (l r : List Byte) (h : ∀ b ∈ l, p b = true) : (l ++ r).dropWhile p = r.dropWhile p := by
  induction l with
  | nil => rfl
  | cons b l ih => rw [List.cons_append, List.dropWhile_cons, if_pos (h b (by simp)), ih (fun x hx => h x (by simp [hx]))]

/-- White space around a text that neither begins nor ends with any is removed. -/
theorem trimBlank_of_core (lead core trail : List Byte) (hl : ∀ b ∈ lead, isBlank b = true) (ht : ∀ b ∈ trail, isBlank b = true)
    (h1 : ∀ b, core.head? = some b → isBlank b = false) (h2 : ∀ b, core.getLast? = some b → isBlank b = false)
    (hne : core ≠ []) : trimBlank (lead ++ core ++ trail) = core := by
  unfold trimBlank
  have e1 : (lead ++ core ++ trail).dropWhile isBlank = core ++ trail := by
    rw [List.append_assoc, dropWhile_append_of_all _ _ hl]
    cases core with
    | nil => exact absurd rfl hne
    | cons b c => rw [List.cons_append, List.dropWhile_cons, if_neg (by simp [h1 b rfl])]
  rw [e1, List.reverse_append, dropWhile_append_of_all _ _ (fun b hb => ht b (by simpa using hb))]
  have : core.reverse.dropWhile isBlank = core.reverse := by
    cases hr : core.reverse with
    | nil => rfl
    | cons b c =>
      rw [List.dropWhile_cons, if_neg]
      have : core.getLast? = some b := by
        rw [← List.head?_reverse, hr]; rfl
      simp [h2 b this]
  rw [this, List.reverse_reverse]

/-- What is removed is white space on both sides. -/
theorem trimBlank_decompose (l : List Byte) : ∃ lead trail, l = lead ++ trimBlank l ++ trail ∧
    (∀ b ∈ lead, isBlank b = true) ∧ (∀ b ∈ trail, isBlank b = true) := by
  refine ⟨l.takeWhile isBlank, (((l.dropWhile isBlank).reverse).takeWhile isBlank).reverse, ?_, ?_, ?_⟩
  · unfold trimBlank
    rw [List.append_assoc, ← List.reverse_append, List.takeWhile_append_dropWhile, List.reverse_reverse, List.takeWhile_append_dropWhile]
  · intro b hb; exact List.mem_takeWhile_imp hb
  · intro b hb; exact List.mem_takeWhile_imp (List.mem_reverse.mp hb)

end Sys2Proof.Machine
end

