-- ==== Sys2Proof/Tests/Slice0.lean ====
section
/-! SUPPORT. The model's own tests: what WellFormed refuses, each decoding from words written out, single steps against the vectors
of 95_test_vectors, and for each statement with hypotheses a state and operands that meet them. -/

namespace Sys2Proof.Tests
open Machine Stated

/-! The reference configuration (95_test_vectors, CFG_REF) and a state of a run under it. -/

def config (f : WireFormat) : Settings :=
  { Settings.zero with
    wireFormat := some f
    swW := 3, swLow := 85, swHigh := 170, swDebounce := 20, swSticky := 100
    keyOff := ⟨10, 20⟩, keyOn := ⟨11, 21⟩
    dz := Lanes.all 2, inv := (Lanes.all false).set 7 true
    idleThreshold := 1000, obsInterval := 30, idleDiagInterval := 1000, diagCap := 5 }

/-- `Stopped`, the configuration supplied, `LINE_MAX = 128`. -/
def stopped (f : WireFormat) : State :=
  { State.reset with
    loopState := .stopped
    params := { lineMax := 128, wMax := 3, nMax := 4, ticksPerUnit := 1 }
    env := { Env.silent with hostCfg := config f } }

/-- `Running` since time 0. -/
def running (f : WireFormat) : State :=
  { stopped f with loopState := .running, fmt := f, cfg := config f, sinkHeld := true, transportHeld := true }

/-- `Running`, with these bytes received and this time. -/
def given (f : WireFormat) (bytes : List Byte) (now : Nat) : State :=
  { running f with env := { (running f).env with rxq := bytes, clock := now } }

/-- `TimeoutNeutral` since time 1001, at this time. -/
def silent (now : Nat) : State :=
  { given .B [] now with loopState := .timeoutNeutral, tIdleDiag := 1001, tLast := 1001 }

/-- The state a step goes on with. -/
def after : StepOutcome → Option State
  | .next s => some s
  | .fault _ => none
  | .refused _ => none

def resultOf (o : StepOutcome) : Option Result := (after o).map State.result

def outOf (o : StepOutcome) : Option (List Event) := (after o).map State.out

def refusalOf : StepOutcome → Option Refusal
  | .next _ => none
  | .fault _ => none
  | .refused r => some r

def text (s : String) : List Byte := s.toList.map fun c => BitVec.ofNat 8 c.toNat

def pots1to8 : Lanes Byte := ⟨1, 2, 3, 4, 5, 6, 7, 8⟩

/-! WellFormed: one ill-formed term for each check. -/

theorem test_wf_otherLen_11 :
    (Instr.frameBOtherLen (List.replicate 11 0)).wf = false := by decide

theorem test_wf_otherLen_empty :
    (Instr.frameBOtherLen []).wf = false := by decide

theorem test_wf_otherLen_33 :
    (Instr.frameBOtherLen (List.replicate 33 0)).wf = false := by decide

theorem test_wf_badCrc_right_trailer :
    (Instr.frameBBadCrc [0x07] 0x83).wf = false := by decide

theorem test_wf_badCrc_empty :
    (Instr.frameBBadCrc [] 1).wf = false := by decide

theorem test_wf_badLenRange_1_and_32 :
    (Instr.frameBBadLenRange 1).wf = false ∧ (Instr.frameBBadLenRange 32).wf = false := by decide

theorem test_wf_frameA_field :
    (Instr.frameA (Lanes.all (text "1")) (text "1") (text "a") false).wf = false := by decide

theorem test_wf_frameA_pot :
    (Instr.frameA ((Lanes.all (text "1")).set 3 []) (text "1") (text "1") false).wf = false := by decide

theorem test_wf_lineADropped_terminator :
    (Instr.lineADropped [0x31, 0x0A]).wf = false := by decide

theorem test_wf_lineADropped_good_line :
    (Instr.lineADropped (text "1,2,3,4,5,6,7,8,9,10")).wf = false := by decide

theorem test_wf_median_empty :
    (Instr.median []).wf = false := by decide

theorem test_wf_sinkUpdate_0_and_32768 :
    (Instr.sinkUpdate (Lanes.all 0) ⟨false, false⟩).wf = false ∧
      (Instr.sinkUpdate ((Lanes.all 1).set 7 32768) ⟨false, false⟩).wf = false := by decide

/-! Decoding: every constructor from its encoding, written out from 30_encoding R91 to R110 (operand words: log entry 8). -/

theorem test_decode_crc8 :
    decode .B (.words [0x01, 0x12, 0x34]) = .ok (.crc8Update 0x12 0x34) ∧
      decode .B (.words [0x02, 2, 0x10, 0x20]) = .ok (.crc8 [0x10, 0x20]) := by decide

theorem test_decode_byte_machines :
    decode .B (.words [0x03, 0xAA]) = .ok (.decByteB 0xAA) ∧
      decode .B (.words [0x04, 0x0A]) = .ok (.decByteA 0x0A) := by decide

theorem test_decode_text :
    decode .B (.words [0x05, 3, 0x31, 0x2C, 0x32]) = .ok (.parseLine (text "1,2")) ∧
      decode .B (.words [0x06, 2, 0x2D, 0x37]) = .ok (.parseInt (text "-7")) := by decide

theorem test_decode_decodeCall :
    decode .B (.words [0x07]) = .ok (.decodeCall) := by decide

theorem test_decode_switch :
    decode .B (.words [0x10, 2, 9, 5, 7]) = .ok (.median [9, 5, 7]) ∧
      decode .B (.words [0x11, 1, 0xFF, 120]) = .ok (.swFeed 1 0xFF 120) := by decide

theorem test_decode_axisMap :
    decode .B (.words [0x18, 7, 600]) = .ok (.axisMap 7 300) ∧
      decode .B (.words [0x18, 0, 9]) = .ok (.axisMap 0 (-5)) := by decide

theorem test_decode_loop :
    decode .B (.words [0x20]) = .ok (.loopStart) ∧
      decode .B (.words [0x21]) = .ok (.loopIter) ∧
      decode .B (.words [0x24]) = .ok (.neutralPush) ∧
      decode .B (.words [0x25, 30]) = .ok (.obsPublish 30) ∧
      decode .B (.words [0x26, 0x02]) = .ok (.loopStop .outputSinkFailure) := by decide

theorem test_decode_processFrame :
    decode .B (.words [0x22, 1, 2, 3, 4, 5, 6, 7, 8, 255, 0, 1, 40]) = .ok (.processFrame ⟨pots1to8, ⟨255, 0⟩, true⟩ 40) := by decide

theorem test_decode_edgeTaps :
    decode .B (.words [0x23, 1, 0]) = .ok (.edgeTaps ⟨true, false⟩) := by decide

theorem test_decode_transport :
    decode .B (.words [0x30]) = .ok (.rxRead) ∧
      decode .B (.words [0x31, 5, 9600, 7]) = .ok (.transportOpen 5 9600 7) ∧
      decode .B (.words [0x32]) = .ok (.transportClose) := by decide

theorem test_decode_sink :
    decode .B (.words [0x33, 3]) = .ok (.sinkAcquire 3) ∧
      decode .B (.words [0x34]) = .ok (.sinkRelease) ∧
      decode .B (.words [0x35, 0, 127, 256, 384, 513, 641, 770, 32766, 0, 1]) = .ok (.sinkUpdate ⟨1, 128, 257, 385, 514, 642, 771, 32767⟩ ⟨false, true⟩) := by decide

theorem test_decode_key_and_observer :
    decode .B (.words [0x36, 11]) = .ok (.keyTap 11) ∧
      decode .B (.words [0x37, 1, 2, 3, 4, 5, 6, 7, 8, 255, 0, 1, 0, 1]) = .ok (.obsEvent pots1to8 ⟨255, 0⟩ ⟨true, false⟩ true) := by decide

theorem test_decode_diag_report :
    decode .B (.words [0x38, 0x1A]) = .ok (.diag .badLen) ∧
      decode .B (.words [0x39, 0x01]) = .ok (.report .transportOpenFailure) := by decide

theorem test_decode_now_cancel :
    decode .B (.words [0x3A]) = .ok (.now) ∧
      decode .B (.words [0x3B]) = .ok (.cancelLevel) := by decide

/-- Vector B6. -/
theorem test_decode_frameB :
    decode .B (.bytes [0xAA, 0x55, 0x0B, 0x00, 0xFF, 0x7F, 0x80, 0x81, 0x40, 0xC0, 0x0A, 0x05, 0xDE, 0xAD, 0x41]) =
      .ok (.frameB ⟨0x00, 0xFF, 0x7F, 0x80, 0x81, 0x40, 0xC0, 0x0A⟩ 0x05 0xDE 0xAD) := by decide +kernel

/-- Vectors B13, B15 and B9. -/
theorem test_decode_frameB_others :
    decode .B (.bytes [0xAA, 0x55, 0x01, 0x07, 0x83]) = .ok (.frameBOtherLen [0x07]) ∧
      decode .B (.bytes [0xAA, 0x55, 0x02, 0x10, 0x20, 0x00]) = .ok (.frameBBadCrc [0x10, 0x20] 0x00) ∧
      decode .B (.bytes [0xAA, 0x55, 0x21]) = .ok (.frameBBadLenRange 0x21) := by decide +kernel

/-- Vector A2. -/
theorem test_decode_frameA :
    decode .A (.bytes (text "1,2,3,4,5,6,7,8,9,10" ++ [0x0D, 0x0A])) =
      .ok (.frameA ⟨text "1", text "2", text "3", text "4", text "5", text "6", text "7", text "8"⟩ (text "9") (text "10") true) := by decide

/-- Vector A7. -/
theorem test_decode_lineADropped :
    decode .A (.bytes (text "1,2,3" ++ [0x0A])) = .ok (.lineADropped (text "1,2,3")) := by decide

theorem test_decode_refuses :
    decode .B (.words []) = .error .empty ∧ decode .B (.words [0x08]) = .error (.unknownOperation 8) ∧
      decode .B (.words [0x11, 2, 0, 0]) = .error (.operandOutOfRange 2) ∧ decode .B (.words [0x21, 0]) = .error .trailingWords ∧
      decode .B (.words [0x03]) = .error .missingOperand ∧ decode .B (.bytes [0xAA, 0x54, 0x00]) = .error .noSync ∧
      decode .B (.bytes [0xAA, 0x55, 0x01, 0x07]) = .error .truncated ∧ decode .A (.bytes [0x31]) = .error .truncated := by decide

/-! The frame decoder (95_test_vectors 2.1 to 2.3). -/

theorem test_crc8 :
    resultOf (exec (.crc8Update 0x00 0x01) (running .A)) = some (.byte 0x5E) ∧
      resultOf (exec (.crc8 (text "123456789")) (running .A)) = some (.byte 0xA1) := by decide +kernel

/-- Vector B3. -/
theorem test_frameB :
    resultOf (exec (.frameB pots1to8 0x05 0 0) (running .B)) =
      some (.call (.frame ⟨pots1to8, ⟨255, 0⟩, true⟩)) := by decide +kernel

/-- Vectors B13, B14 and B9. -/
theorem test_otherLen_badCrc_badLenRange :
    outOf (exec (.frameBOtherLen [0x07]) (running .B)) = some [.diag .badLen] ∧
      outOf (exec (.frameBBadCrc [0x07] 0x00) (running .B)) = some [.diag .badCrc] ∧
      outOf (exec (.frameBBadLenRange 0x21) (running .B)) = some [.diag .badLenRange] := by decide

/-- Vector B7. -/
theorem test_decodeCall_double_AA :
    resultOf (exec .decodeCall (given .B [0x13, 0x55, 0xAA, 0xAA, 0x55, 0x0B, 1, 2, 3, 4, 5, 6, 7, 8, 1, 0, 0, 0x2D] 0)) =
      some (.call (.frame ⟨pots1to8, ⟨255, 0⟩, false⟩)) := by decide +kernel

/-- Vector B18. -/
theorem test_decodeCall_truncated :
    (after (exec .decodeCall (given .B [0xAA, 0x55, 0x0B, 1, 2] 0))).map (fun s => (s.dec.bState, s.dec.bLen, s.dec.bCnt, s.dec.bCrc)) =
      some (.payload, 11, 2, 0x78) := by decide +kernel

/-- 40 R135. -/
theorem test_decByteB_stays :
    (after (exec (.decByteB 0xAA) { running .B with dec := { Decoder.empty with bState := .gotAA } })).map (·.dec.bState) =
      some .gotAA := by decide

/-- 40 R140: a byte that finds the buffer full. -/
theorem test_decByteA_overflow :
    (after (exec (.decByteA 0x20) { running .A with params := { lineMax := 0, wMax := 1, nMax := 0, ticksPerUnit := 1 } })).map
      (fun s => (s.dec.aLen, s.dec.aOvf)) = some (0, true) := by decide

/-- 40 R144, the example. -/
theorem test_frameA_saturates :
    resultOf (exec (.frameA ⟨text "21", text "300", text "-5", text " 7 ", text "+9", text "064", text "192", text "10"⟩ (text "255") (text "0")
        false) (running .A)) =
      some (.call (.frame ⟨⟨21, 255, 0, 7, 9, 64, 192, 10⟩, ⟨255, 0⟩, false⟩)) := by decide +kernel

/-- Vectors A6 and A12. -/
theorem test_lineADropped :
    resultOf (exec (.lineADropped [0x0D]) (running .A)) = some (.call (.dropped .emptyLine)) ∧
      resultOf (exec (.lineADropped (text "1,2,3,4,5,6,7,8,9,")) (running .A)) = some (.call (.dropped .notInteger)) := by decide

/-- Vectors A24 and A9. -/
theorem test_parseLine :
    resultOf (exec (.parseLine (text "1,2,3,4,5,6,7,8,9,10" ++ [0x0D, 0x0D])) (running .A)) = some (.decoded (.dropped .notInteger)) ∧
      resultOf (exec (.parseLine (text "1,2,3,4,5,6,7,8,9,10,")) (running .A)) = some (.decoded (.dropped .fieldCount)) := by decide

theorem test_parseInt :
    resultOf (exec (.parseInt (text "  12\t")) (running .A)) = some (.integer (some 12)) ∧
      resultOf (exec (.parseInt (text "+-1")) (running .A)) = some (.integer none) := by decide

/-! The switch filter and the axis mapper (95_test_vectors 2.4, 2.5). -/

theorem test_median :
    resultOf (exec (.median [255, 0, 255, 0]) (running .A)) = some (.number 127) ∧
      resultOf (exec (.median [170, 169, 171]) (running .A)) = some (.number 170) := by decide

/-- Vector S2, the feed at 170. -/
theorem test_swFeed_commits :
    resultOf (exec (.swFeed 1 170 170)
        { running .B with sw := (Pair.all (SwitchFilter.start 0)).set 1 { win := [170, 170, 170], stable := false, cand := true, tCand := 150, tStable := 0 } }) =
      some (.bit true) := by decide

/-- One tick earlier the debounce has not passed (41 R176). -/
theorem test_swFeed_waits :
    resultOf (exec (.swFeed 1 170 169)
        { running .B with sw := (Pair.all (SwitchFilter.start 0)).set 1 { win := [170, 170, 170], stable := false, cand := true, tCand := 150, tStable := 0 } }) =
      some (.bit false) := by decide

/-- The rows of dz = 2. -/
theorem test_axisMap :
    resultOf (exec (.axisMap 0 126) (running .B)) = some (.number 16448) ∧
      resultOf (exec (.axisMap 7 10) (running .B)) = some (.number 31482) := by decide +kernel

/-- The last row of smoothing. -/
theorem test_axisMap_smooths :
    resultOf (exec (.axisMap 0 (-5)) { running .B with cfg := { config .B with n := (Lanes.all 0).set 0 2 }, fifo := (Lanes.all []).set 0 [255] }) =
      some (.number 16448) := by decide +kernel

/-! The loop (95_test_vectors 2.6, 3). -/

/-- Program P4, the first start. -/
theorem test_loopStart_fails :
    outOf (exec .loopStart { stopped .B with env := { (stopped .B).env with openAns := [false] } }) =
      some [.sinkAcquire 0, .transportOpen 0 0 0, .sinkUpdate (Lanes.all 16448) ⟨false, false⟩, .sinkRelease, .report .transportOpenFailure] := by decide

/-- Program P1, START. -/
theorem test_loopStart_runs :
    (after (exec .loopStart (stopped .B))).map (fun s => (s.loopState, s.sinkHeld, s.transportHeld, s.firstSeen)) =
      some (.running, true, true, false) := by decide

/-- Vectors L1 and L2. -/
theorem test_loopIter_idle_boundary :
    outOf (exec .loopIter (given .B [] 1000)) = some [] ∧
      outOf (exec .loopIter (given .B [] 1001)) = some [.diag .idleTimeout, .sinkUpdate (Lanes.all 16448) ⟨false, false⟩] := by decide

/-- Program P1, the step at 10. -/
theorem test_loopIter_frame :
    outOf (exec .loopIter (given .B [0x00, 0xAA, 0xAA, 0x55, 0x0B, 1, 2, 3, 4, 5, 6, 7, 8, 1, 0, 0, 0x2D] 10)) =
      some [.sinkUpdate ⟨128, 257, 385, 514, 642, 771, 899, 31739⟩ ⟨false, false⟩, .keyTap 10, .keyTap 20] := by decide +kernel

/-- Program P4, the step at 30. -/
theorem test_processFrame_sink_fails :
    outOf (exec (.processFrame ⟨pots1to8, ⟨255, 0⟩, false⟩ 30) { running .B with env := { (running .B).env with sinkAns := [false] } }) =
      some [.sinkUpdate ⟨128, 257, 385, 514, 642, 771, 899, 31739⟩ ⟨false, false⟩, .sinkUpdate (Lanes.all 16448) ⟨false, false⟩, .transportClose, .sinkRelease,
        .report .outputSinkFailure] := by decide +kernel

/-- 43 R217. -/
theorem test_edgeTaps_change :
    outOf (exec (.edgeTaps ⟨true, false⟩) { running .B with firstSeen := true }) = some [.keyTap 11] ∧
      outOf (exec (.edgeTaps ⟨false, false⟩) { running .B with firstSeen := true }) = some [] := by decide

theorem test_neutralPush :
    outOf (exec .neutralPush (running .B)) = some [.sinkUpdate (Lanes.all 16448) ⟨false, false⟩] := by decide

/-- 43 R224: the interval is 30. -/
theorem test_obsPublish :
    outOf (exec (.obsPublish 30) (running .B)) = some [.obsPublish (Lanes.all 0) ⟨0, 0⟩ ⟨false, false⟩ false] ∧
      outOf (exec (.obsPublish 29) (running .B)) = some [] := by decide

/-- Vector L3. -/
theorem test_loopStop :
    outOf (exec (.loopStop .none) (running .B)) = some [.sinkUpdate (Lanes.all 16448) ⟨false, false⟩, .transportClose, .sinkRelease] := by decide

/-! The primitives (20_memory R63 to R71). -/

theorem test_rxRead :
    resultOf (exec .rxRead (given .B [7, 8] 0)) = some (.rx (some 7)) ∧ resultOf (exec .rxRead (running .B)) = some (.rx none) := by decide

theorem test_answers :
    resultOf (exec (.keyTap 3) { running .B with env := { Env.silent with keyAns := [false] } }) = some (.answer false) ∧
      resultOf (exec (.sinkAcquire 3) { running .B with env := { Env.silent with acquireAns := [false] } }) = some (.answer false) ∧
      resultOf (exec (.transportOpen 3 4 5) { running .B with env := { Env.silent with openAns := [false] } }) = some (.answer false) ∧
      resultOf (exec (.sinkUpdate (Lanes.all 1) ⟨true, true⟩) { running .B with env := { Env.silent with sinkAns := [false] } }) =
        some (.answer false) := by decide

theorem test_unanswered :
    outOf (exec .transportClose (running .B)) = some [.transportClose] ∧ outOf (exec .sinkRelease (running .B)) = some [.sinkRelease] ∧
      outOf (exec (.diag .badCrc) (running .B)) = some [.diag .badCrc] ∧ outOf (exec (.report .badLen) (running .B)) = some [.report .badLen] ∧
      outOf (exec (.obsEvent pots1to8 ⟨1, 2⟩ ⟨true, false⟩ true) (running .B)) = some [.obsPublish pots1to8 ⟨1, 2⟩ ⟨true, false⟩ true] := by decide

theorem test_now_cancelLevel :
    resultOf (exec .now (given .B [] 7)) = some (.time 7) ∧ resultOf (exec .cancelLevel (given .B [] 7)) = some (.bit false) := by decide

/-- 10_state R50, 70 R310: asked for outside a run. -/
theorem test_outside_a_run :
    exec .rxRead State.reset = .refused .notInRun ∧ exec .now State.reset = .refused .notInRun ∧
      exec (.crc8 []) State.reset = .refused .notInRun ∧ exec (.diag .badCrc) (stopped .B) = .refused .notInRun := ⟨rfl, rfl, rfl, rfl⟩

/-- `Stopped`, with three bytes kept by the transport and this line to come. -/
def kept (i : Input) : State := { stopped .B with env := { Env.silent with rxq := [7, 8, 9], inputs := [i] } }

/-- 70 R314: the transport, not held, discards two of its three bytes, or keeps them all; held, it discards none. -/
theorem test_discard :
    (after (step (kept (.discard 2)))).map (fun s => s.env.rxq) = some [9] ∧
      (after (step (kept (.time 5)))).map (fun s => s.env.rxq) = some [7, 8, 9] ∧
      (after (step { kept (.discard 2) with transportHeld := true })).map (fun s => s.env.rxq) = some [7, 8, 9] := by decide

/-! The table words: decoded, loaded and run as the first instruction after reset. -/

theorem test_tableWord_runs :
    resultOf (step (State.reset.withFetchWord 8 0x01)) = some (.byte 0x00) ∧
      resultOf (step (State.reset.withFetchWord 8 0x18)) = some (.number 1) ∧
      resultOf (step (State.reset.withFetchWord 24 0xAA550B)) = some (.call (.frame zeroFrame)) ∧
      resultOf (step (State.reset.withFetchWord 24 0xAA5500)) = some (.call (.dropped .badLenRange)) := by decide +kernel

theorem test_tableWord_starts_a_run :
    (after (step (State.reset.withFetchWord 8 0x20))).map State.loopState = some .running ∧
      (after (step (State.reset.withFetchWord 8 0x21))).map State.loopState = some .running := by decide

/-! For each statement with hypotheses, a state and operands that meet them, each clause at a boundary value where it has one. -/

theorem running_inv : Inv (running .B) where
  rests := by simp [RestsBetweenSteps, running]
  holds := ⟨rfl, rfl⟩
  run _ :=
    { configWellFormed := by decide
      formatLatched := rfl
      noError := rfl
      decoderB := ⟨fun h => (by cases h), fun h => (by cases h)⟩
      decoderA := ⟨Nat.zero_le _, Nat.zero_le _, fun h => (by cases h), List.not_mem_nil⟩
      diagCapped := Nat.zero_le _
      filter0 := ⟨Nat.zero_le _, Nat.le_refl _, Nat.le_refl _⟩
      filter1 := ⟨Nat.zero_le _, Nat.le_refl _, Nat.le_refl _⟩
      fifos := fun k => by simp [running, stopped, State.reset, Lanes.get_all]
      lastFrameTime := Nat.le_refl _
      obsTime := Nat.le_refl _
      idleDiagTime := Nat.le_refl _
      idleMeansSilence := fun h => (by cases h) }

/-- A state in `TimeoutNeutral` meets the invariant too, one tick beyond the threshold. -/
theorem silent_inv : Inv (silent 1500) where
  rests := by simp [RestsBetweenSteps, silent]
  holds := ⟨rfl, rfl⟩
  run _ :=
    { configWellFormed := by decide
      formatLatched := rfl
      noError := rfl
      decoderB := ⟨fun h => (by cases h), fun h => (by cases h)⟩
      decoderA := ⟨Nat.zero_le _, Nat.zero_le _, fun h => (by cases h), List.not_mem_nil⟩
      diagCapped := Nat.zero_le _
      filter0 := ⟨Nat.zero_le _, Nat.zero_le _, Nat.zero_le _⟩
      filter1 := ⟨Nat.zero_le _, Nat.zero_le _, Nat.zero_le _⟩
      fifos := fun k => by simp [silent, given, running, stopped, State.reset, Lanes.get_all]
      lastFrameTime := Nat.zero_le _
      obsTime := Nat.zero_le _
      idleDiagTime := Nat.le_refl _
      idleMeansSilence := fun _ => (by decide) }

theorem config_wellFormed (f : WireFormat) : WellFormed (stopped f).params (config f) := by
  cases f <;>
    exact ⟨nofun, by decide, by decide, by decide, by decide, by decide, by decide, by decide, by decide, by decide, by decide,
      by decide⟩

theorem seven_spells : Spells (text "-7") (-7) :=
  ⟨[], [0x2D#8], [0x37#8], [], rfl, by simp, by simp, by simp, by simp, .inr ⟨rfl, rfl⟩⟩

theorem one_spells : Spells (text "1") 1 :=
  ⟨[], [], [0x31#8], [], rfl, by simp, by simp, by simp, by simp, .inl ⟨.inl rfl, rfl⟩⟩

theorem nothing_spells_nothing : ∀ v, ¬ Spells [] v := by
  rintro v ⟨lead, sign, digits, trail, h, -, -, hd, -⟩
  simp only [List.nil_eq, List.append_eq_nil_iff] at h
  exact hd h.1.2

/-- The line machine in `running .A` with `LINE_MAX` as small as R12 allows, holding 39 bytes: the buffer is full. -/
def fullLine : State :=
  { running .A with
    params := { lineMax := 39, wMax := 3, nMax := 4, ticksPerUnit := 1 }
    dec := { Decoder.empty with aBuf := List.replicate 39 0x31, aLen := 39 } }

theorem witness_EncodedInstructionsDecodeToThemselves :
    (Instr.frameBOtherLen (List.replicate 32 0)).wf = true ∧ (Instr.frameBOtherLen [7]).wf = true ∧
    (∀ f, (Instr.frameBOtherLen [7]).wireFormat = some f → f = .B) ∧ (Instr.axisMap 7 (-1)).wf = true ∧
    (Instr.sinkUpdate (Lanes.all 32767) ⟨true, false⟩).wf = true ∧ (Instr.sinkUpdate (Lanes.all 1) ⟨true, false⟩).wf = true :=
  ⟨by decide, by decide, fun f h => by cases h; rfl, by decide, by decide, by decide⟩

theorem witness_DecodedInstructionsEncodeBack :
    decode .B (.words [0x18, 7, 1]) = .ok (.axisMap 7 (-1)) ∧
    decode .B (.bytes [0xAA, 0x55, 0x21]) = .ok (.frameBBadLenRange 33) := by decide

theorem witness_WireUnitsEndWhereTheySay :
    (Instr.frameBBadLenRange 33).wf = true ∧ (Instr.frameBBadLenRange 33).wireFormat = some .B ∧
    (Instr.lineADropped []).wf = true ∧ (Instr.lineADropped []).wireFormat = some .A := by decide

/-- The state of `running .B` with these requests to come. -/
def asked (inputs : List Input) : State := { running .B with env := { (running .B).env with inputs := inputs } }

theorem witness_StepRunsTheDecodedInstruction :
    (asked []).env.inputs = [] ∧
    decode (asked [.op [0x21]]).fmt (.words [0x21]) = .ok .loopIter ∧
    decode (asked [.op [0x3C]]).fmt (.words [0x3C]) = .error (.unknownOperation 0x3C) ∧
    decodeWire .B [0xAA, 0x55, 0x00] = .ok (.frameBBadLenRange 0, []) ∧
    decodeWire .B [0xAA, 0x55] = .error .truncated ∧
    (asked [.rx [1]]).env.inputs = [.rx [1]] ∧ (kept (.discard 2)).env.inputs = [.discard 2] ∧
    (asked [.discard 2]).env.inputs = [.discard 2] ∧ (asked [.time 5]).env.inputs = [.time 5] ∧
    (asked [.cancel true]).env.inputs = [.cancel true] ∧ (asked [.config (config .A)]).env.inputs = [.config (config .A)] ∧
    (asked [.answers [] [] [] [false]]).env.inputs = [.answers [] [] [] [false]] := by decide

theorem witness_WireRowsAreOneDecodeCall :
    (running .B).inRun = true ∧ (Instr.frameBBadLenRange 0).wireFormat ≠ none ∧ (silent 1500).inRun = true := by decide

theorem witness_UnitRequestsDecodeTheQueueAsItStands :
    (asked [.unit]).inRun = true ∧ (asked [.unit]).env.inputs = .unit :: [] ∧
    decodeWire .B (given .B [0xAA, 0x55, 0x00, 0x01] 0).env.rxq = .ok (.frameBBadLenRange 0, [0x01]) := by decide

/-- `running .B` with the byte machine in this state. -/
def machineAt (b : BState) (len cnt : Nat) (buf : List Byte) : State :=
  { running .B with dec := { Decoder.empty with bState := b, bLen := len, bCnt := cnt, bBuf := buf } }

theorem witness_FormatBByteMachine :
    (machineAt .hunt 0 0 []).dec.bState = .hunt ∧ (machineAt .gotAA 0 0 []).dec.bState = .gotAA ∧
    (machineAt .len 0 0 []).dec.bState = .len ∧ (1 ≤ (0x01 : Byte).toNat ∧ (0x20 : Byte).toNat ≤ 32) ∧
    ¬ (1 ≤ (0x00 : Byte).toNat ∧ (0x00 : Byte).toNat ≤ 32) ∧ ¬ (1 ≤ (0x21 : Byte).toNat ∧ (0x21 : Byte).toNat ≤ 32) ∧
    (machineAt .payload 1 0 []).dec.bState = .payload ∧ (machineAt .payload 1 0 []).dec.bCnt ≤ (machineAt .payload 1 0 []).dec.bBuf.length ∧
    (machineAt .payload 32 31 (List.replicate 31 0)).dec.bCnt ≤ (machineAt .payload 32 31 (List.replicate 31 0)).dec.bBuf.length ∧
    (machineAt .crc 10 10 []).dec.bLen ≠ 11 ∧ (machineAt .crc 12 12 []).dec.bLen ≠ 11 ∧
    (machineAt .crc 11 11 (List.replicate 11 0)).dec.bBuf = (Lanes.all (0 : Byte)).toList ++ [0, 0, 0] ∧
    (machineAt .crc 11 11 []).dec.bCrc = 0 ∧ (machineAt .hunt 0 0 []).inRun = true := by decide

theorem witness_WholeFrameBIsAccepted :
    (running .B).inRun = true ∧ (running .B).fmt = .B ∧ searching (running .B).dec ∧ searching (machineAt .gotAA 0 0 []).dec :=
  ⟨rfl, rfl, .inl rfl, .inr rfl⟩

theorem witness_BadFramesOfFormatBAreDropped :
    (Instr.frameBOtherLen [0x07]).wf = true ∧ (Instr.frameBBadCrc [0x07] 0x00).wf = true ∧
    (Instr.frameBBadLenRange 0x00).wf = true ∧ (Instr.frameBBadLenRange 0x21).wf = true ∧
    (Instr.frameBBadLenRange 0xFF).wf = true ∧ searching (running .B).dec :=
  ⟨by decide, by decide, by decide, by decide, by decide, .inl rfl⟩

theorem witness_Crc8UpdateIsTheTableForm : (running .A).inRun = true ∧ (silent 1500).inRun = true := by decide

theorem witness_Crc8FoldsThePayloadFromZero : (running .A).inRun = true ∧ (silent 1500).inRun = true := by decide

theorem witness_DecoderIsTotalInARun : (running .A).inRun = true ∧ (running .B).inRun = true := by decide

theorem witness_DecodeCallTakesOneByteAtATime :
    (given .B [] 0).env.rxq = [] ∧ (given .B [0xAA, 0x55] 0).env.rxq = 0xAA :: [0x55] ∧ (given .B [] 0).inRun = true := by decide

theorem witness_DecodingGoesOnWhereItStopped :
    (after (exec .decodeCall (withQueue [0xAA] (running .B)))).map State.result = some (.call .empty) ∧
    (after (exec .decodeCall (withQueue [0xAA, 0x55, 0x00, 0x01] (running .B)))).map State.result =
      some (.call (.dropped .badLenRange)) ∧ (running .B).inRun = true := by decide

theorem witness_TruncatedUnitsGiveNoFrame :
    atUnitStart (running .B) ∧ atUnitStart (running .A) ∧ (Instr.frameBBadLenRange 0).wf = true ∧
    (Instr.frameBBadLenRange 0).wireFormat = some (running .B).fmt ∧
    encodeWire (.frameBBadLenRange 0) = [0xAA, 0x55] ++ [0x00] ∧ encodeWire (.lineADropped []) = [] ++ [0x0A] ∧
    (Instr.lineADropped []).wf = true ∧ (Instr.lineADropped []).wireFormat = some (running .A).fmt :=
  ⟨.inl rfl, ⟨rfl, rfl⟩, by decide, rfl, by decide, by decide, by decide, rfl⟩

theorem witness_OneAlteredByteIsAlwaysCaught :
    (running .B).inRun = true ∧ (running .B).fmt = .B ∧ searching (running .B).dec ∧
    ([0x07] : List Byte).length ≤ 32 ∧ 0 < ([0x07] : List Byte).length ∧ ([0x07] : List Byte)[0]? ≠ some 0x06 ∧
    (List.replicate 32 (0 : Byte)).length ≤ 32 ∧ 31 < (List.replicate 32 (0 : Byte)).length ∧
    (List.replicate 32 (0 : Byte))[31]? ≠ some 0x80 :=
  ⟨rfl, rfl, .inl rfl, by decide, by decide, by decide, by decide, by decide, by decide⟩

theorem witness_FormatALineMachine :
    fullLine.inRun = true ∧ fullLine.dec.aLen ≤ fullLine.dec.aBuf.length ∧ fullLine.params.lineMax ≤ fullLine.dec.aLen ∧
    (running .A).dec.aLen < (running .A).params.lineMax ∧ (running .A).dec.aLen ≤ (running .A).dec.aBuf.length ∧
    fullLine.dec.aOvf = false ∧
    ({ fullLine.dec with aOvf := true } : Decoder).aOvf = true ∧ (0x0B : Byte) ≠ 0x0A := by decide

theorem witness_LinesAreParsedFieldByField :
    (running .A).inRun = true ∧ joinFields [[]] = [] ∧ (∀ f ∈ ([[]] : List (List Byte)), 0x2C#8 ∉ f) ∧
    joinFields (List.replicate 9 (text "1")) ≠ [] ∧ (List.replicate 9 (text "1")).length ≠ 10 ∧
    (List.replicate 11 (text "1")).length ≠ 10 ∧
    (List.replicate 10 ([] : List Byte)).length = 10 ∧ (∃ f ∈ List.replicate 10 ([] : List Byte), ∀ v, ¬ Spells f v) ∧
    List.Forall₂ Spells (List.replicate 10 (text "1")) ((Lanes.all (1 : Int)).toList ++ [1, 1]) ∧
    (∀ f ∈ List.replicate 10 (text "1"), 0x2C#8 ∉ f) ∧
    (joinFields (List.replicate 10 (text "1"))).getLast? ≠ some 0x0D#8 := by
  refine ⟨rfl, rfl, by simp, by decide, by decide, by decide, by decide, ⟨[], by simp, nothing_spells_nothing⟩, ?_, by decide,
    by decide⟩
  have h : ∀ n, List.Forall₂ Spells (List.replicate n (text "1")) (List.replicate n 1) := by
    intro n
    induction n with
    | zero => exact .nil
    | succ n ih => exact .cons one_spells ih
  exact h 10

theorem witness_ParsedIntegersAreTheGrammars :
    (running .A).inRun = true ∧ Spells (text "-7") (-7) ∧ Spells (text "1") 1 ∧ ∀ v, ¬ Spells [] v :=
  ⟨rfl, seven_spells, one_spells, nothing_spells_nothing⟩

theorem witness_WholeLinesOfFormatAGiveTheirFrame :
    (running .A).inRun = true ∧ (running .A).fmt = .A ∧ (running .A).dec.aLen = 0 ∧ (running .A).dec.aOvf = false ∧
    (∀ k, Spells ((Lanes.all (text "1")).get k) ((Lanes.all 1).get k)) ∧ Spells (text "1") 1 ∧
    (lineOfFields (Lanes.all (text "1")) (text "1") (text "1") false).length ≤ (running .A).params.lineMax ∧
    { running .A with params := { lineMax := 18, wMax := 1, nMax := 0, ticksPerUnit := 1 } }.params.lineMax <
      (lineOfFields (Lanes.all (text "1")) (text "1") (text "1") false).length := by
  refine ⟨rfl, rfl, rfl, rfl, fun k => ?_, one_spells, by decide, by decide⟩
  rw [Lanes.get_all, Lanes.get_all]; exact one_spells

theorem witness_BadLinesOfFormatAAreDropped :
    (running .A).inRun = true ∧ (running .A).fmt = .A ∧ (running .A).dec.aLen = 0 ∧ (running .A).dec.aOvf = false ∧
    (Instr.lineADropped []).wf = true ∧ (Instr.lineADropped [0x0D]).wf = true ∧ (Instr.lineADropped (text "1,2,3")).wf = true ∧
    (Instr.lineADropped (text ",,,,,,,,,")).wf = true ∧ (Instr.lineADropped (List.replicate 129 0x20)).wf = true := by
  decide +kernel

theorem witness_FramesComeFromCheckedPayloads :
    DecoderBOk (machineAt .crc 11 11 (List.replicate 11 0)).dec ∧
    (after (exec (.decByteB 0) (machineAt .crc 11 11 (List.replicate 11 0)))).map State.result = some (.decoded (.frame zeroFrame)) ∧
    (after (exec (.decByteA 0x0A)
      { running .A with dec := { Decoder.empty with aBuf := text "1,2,3,4,5,6,7,8,9,10", aLen := 20 } })).map State.result =
      some (.decoded (.frame ⟨pots1to8, ⟨9, 10⟩, false⟩)) :=
  ⟨⟨fun h => (by cases h), fun _ => (by decide +kernel)⟩, by decide +kernel, by decide +kernel⟩

theorem witness_MedianIsTheMiddleOfTheSortedList :
    (running .B).inRun = true ∧ ([9, 5, 7] : List Byte) ≠ [] ∧ SortedReadings [9, 5, 7] [5, 7, 9] ∧ SortedReadings [5, 10] [5, 10] :=
  ⟨rfl, by decide, ⟨by decide, by decide⟩, ⟨by decide, by decide⟩⟩

theorem witness_SwitchFeedFollowsTheSevenSteps :
    (running .B).inRun = true ∧ (running .B).tLast ≤ 0 ∧ ((running .B).sw.get 1).tCand ≤ (running .B).tLast ∧
    ((running .B).sw.get 1).tStable ≤ (running .B).tLast ∧
    SortedReadings (pushed (running .B).cfg.swW ((running .B).sw.get 1).win 170) [170] :=
  ⟨rfl, by decide, by decide, by decide, ⟨by decide, by decide⟩⟩

theorem witness_CommitsAreAStickyWindowApart :
    (running .B).inRun = true ∧ ((running .B).sw.get 0).tStable ≤ (running .B).tLast ∧
    commitTimes 0 [(255, 10), (255, 99), (255, 100)] (running .B) = [100] := by decide

theorem witness_AxisMapFollowsTheFiveSteps : (running .B).inRun = true ∧ (silent 1500).inRun = true := by decide

theorem axisValue_0_128 (fifo : List Byte) : axisValue 0 false 0 fifo 0 = 1 ∧ axisValue 0 false 0 fifo 128 = 16448 := by
  unfold axisValue smoothed
  rw [if_pos rfl, if_pos rfl]
  decide

/-- AXIS_MAP gives 1 for 0 and 16448 for 128 in a lane without deadzone. -/
theorem mapsTo_0_1 : MapsTo 0 false 0 1 ∧ MapsTo 0 false 128 16448 := by
  constructor <;> intro s k hr hn hd hi <;>
    simp only [exec, execAxisMap, whenInRun_inRun _ hr, laneValue, laneFifo, hn, hd, hi, pushFifo, if_true, Lanes.set_get,
      Nat.cast_zero, Nat.cast_ofNat, (axisValue_0_128 _).1, (axisValue_0_128 _).2] <;>
    rfl

theorem witness_AxisResultsHaveTheStatedProperties :
    MapsTo 0 false 0 1 ∧ MapsTo 0 false 128 16448 ∧ (0 ≤ 128 ∧ 128 ≤ 255) ∧ (0 + 0 < 128 ∨ 127 + 0 < 0) ∧
    (125 + 2 < 128 ∨ 127 + 2 < 125) ∧ (127 + 2 < 130) ∧ (128 ≤ 126 + 2 ∧ 126 ≤ 127 + 2) ∧ (128 ≤ 129 + 2 ∧ 129 ≤ 127 + 2) :=
  ⟨mapsTo_0_1.1, mapsTo_0_1.2, by decide⟩

theorem witness_AxisLanesAreIndependent :
    (running .B).inRun = true ∧ (silent 1500).inRun = true ∧ (running .B).cfg.dz.get 3 = (silent 1500).cfg.dz.get 3 ∧
    (running .B).cfg.inv.get 3 = (silent 1500).cfg.inv.get 3 ∧ (running .B).cfg.n.get 3 = (silent 1500).cfg.n.get 3 ∧
    (running .B).fifo.get 3 = (silent 1500).fifo.get 3 := by decide

theorem witness_RunStartSetsEveryRegister :
    (stopped .B).loopState = .stopped ∧ WellFormed (stopped .B).params (stopped .B).env.hostCfg ∧
    (stopped .B).env.hostCfg.wireFormat = some .B ∧ answersOk (stopped .B).env.acquireAns ∧
    answersOk (stopped .B).env.openAns :=
  ⟨rfl, config_wellFormed .B, rfl, rfl, rfl⟩

theorem witness_FailedStartsReportAndRelease :
    WellFormed (stopped .A).params (stopped .A).env.hostCfg ∧ ¬ answersOk [false] ∧ answersOk [] ∧ answersOk [true, false] :=
  ⟨config_wellFormed .A, nofun, rfl, rfl⟩

theorem witness_LoopStartIsRefusedExactlyWhenTold :
    ((running .B).loopState ≠ .idle ∧ (running .B).loopState ≠ .stopped) ∧
    (State.reset.loopState = .idle ∧ ¬ WellFormed State.reset.params State.reset.env.hostCfg) ∧
    ((stopped .B).loopState = .stopped ∧ WellFormed (stopped .B).params (stopped .B).env.hostCfg) :=
  ⟨⟨nofun, nofun⟩, ⟨rfl, fun h => h.1 rfl⟩, rfl, config_wellFormed .B⟩

theorem witness_CancellationStopsTheIteration :
    (asked []).inRun = true ∧ { (asked []).env with cancel := true }.cancel = true := by decide

theorem witness_IterationDecodesThenBranches :
    (silent 1500).inRun = true ∧ (silent 1500).env.cancel = false ∧ (silent 1500).tIdleDiag ≤ (silent 1500).tLast ∧
    (silent 1000).env.clock < (silent 1000).tLast ∧ (silent 1001).tLast ≤ (silent 1001).env.clock ∧
    (given .B [] 1000).env.clock ≤ (given .B [] 1000).tLastFrame + (given .B [] 1000).cfg.idleThreshold ∧
    (given .B [] 1001).tLastFrame + (given .B [] 1001).cfg.idleThreshold < (given .B [] 1001).env.clock ∧
    (silent 2001).tIdleDiag + (silent 2001).cfg.idleDiagInterval ≤ (silent 2001).env.clock ∧
    (silent 2000).env.clock < (silent 2000).tIdleDiag + (silent 2000).cfg.idleDiagInterval := by decide

theorem witness_TransitionsAreTheTables :
    Inv (running .B) ∧ (running .B).inRun = true ∧ (running .B).tLast ≤ (running .B).env.clock ∧
    Inv (silent 1500) ∧ (silent 1500).inRun = true ∧ (silent 1500).tLast ≤ (silent 1500).env.clock ∧
    (stopped .B).loopState = .stopped ∧ WellFormed (stopped .B).params (stopped .B).env.hostCfg :=
  ⟨running_inv, rfl, by decide, silent_inv, rfl, by decide, rfl, config_wellFormed .B⟩

theorem witness_ProcessFrameIsItsOperationsInOrder :
    (running .B).inRun = true ∧ (running .B).tLast ≤ 0 ∧ answersOk (running .B).env.sinkAns ∧ ¬ answersOk [false] :=
  ⟨rfl, by decide, rfl, nofun⟩

theorem witness_EdgeTapsTapOnChange :
    (running .B).inRun = true ∧ tapDue 0 ⟨false, false⟩ (running .B) ∧ tapDue 1 ⟨false, false⟩ (running .B) ∧
    tapDue 0 ⟨true, false⟩ { running .B with firstSeen := true } ∧ ¬ tapDue 1 ⟨true, false⟩ { running .B with firstSeen := true } ∧
    tapDue 1 ⟨false, true⟩ { running .B with firstSeen := true } ∧ ¬ tapDue 0 ⟨false, true⟩ { running .B with firstSeen := true } := by
  unfold tapDue; decide

theorem witness_NeutralPushPushesOnceOrStops :
    (running .B).inRun = true ∧ answersOk (running .B).env.sinkAns ∧ ¬ answersOk [false, true] :=
  ⟨rfl, rfl, nofun⟩

theorem witness_ObserverPublishesWhenDue :
    (running .B).inRun = true ∧ (running .B).tLast ≤ 29 ∧ (running .B).tObs ≤ (running .B).tLast ∧
    (running .B).tObs + (running .B).cfg.obsInterval ≤ 30 ∧ 29 < (running .B).tObs + (running .B).cfg.obsInterval := by
  decide

theorem witness_LoopStopNeutralisesAndReleases : (running .B).inRun = true ∧ (silent 1500).inRun = true := by decide

theorem witness_SilentIterationsLeaveTheFiltersAlone :
    (given .B [] 1001).inRun = true ∧ (given .B [] 1001).env.cancel = false ∧
    (given .B [] 1001).tLast ≤ (given .B [] 1001).env.clock ∧ CallGives (given .B [] 1001) .empty ∧ NoFrame .empty :=
  ⟨rfl, rfl, by decide, ⟨_, rfl, rfl⟩, .inl rfl⟩

theorem witness_RunOperationsAreRefusedOutsideARun :
    State.reset.loopState ≠ .running ∧ State.reset.loopState ≠ .timeoutNeutral ∧ Instr.crc8 [] ≠ .loopStart :=
  ⟨nofun, nofun, nofun⟩

theorem witness_TimeGoingBackIsRefused :
    (silent 1000).inRun = true ∧ 1000 < (silent 1000).tLast ∧ (silent 1000).env.clock < (silent 1000).tLast ∧
    (silent 1000).env.cancel = false := by decide

theorem witness_AnsweredCallsEmitAndReturnTheAnswer : (running .A).inRun = true ∧ (silent 1500).inRun = true := by decide

theorem witness_UnansweredCallsOnlyEmit : (running .A).inRun = true ∧ (silent 1500).inRun = true := by decide

theorem witness_InputPrimitivesReadTheEnvironment :
    (given .B [] 0).inRun = true ∧ (given .B [] 0).env.rxq = [] ∧ (given .B [7] 0).env.rxq = 7 :: [] ∧ (given .B [] 0).tLast ≤ (given .B [] 0).env.clock := by
  decide

theorem witness_UnaskedBlockDoesNothing :
    (∀ ws, (asked [.rx [1]]).env.inputs.head? ≠ some (.op ws)) ∧ (asked [.rx [1]]).env.inputs.head? ≠ some .unit ∧
    (after (step (asked [.rx [1]]))).isSome = true ∧
    (∀ ws, (kept (.discard 4)).env.inputs.head? ≠ some (.op ws)) ∧ (kept (.discard 4)).env.inputs.head? ≠ some .unit ∧
    (after (step (kept (.discard 4)))).map (fun s => s.env.rxq) = some [] :=
  ⟨nofun, nofun, by decide, nofun, nofun, by decide⟩

/-- One iteration asked for in `running .B`, without cancellation. -/
theorem asked_step : ∃ t, step (asked [.op [0x21]]) = .next t := ⟨_, rfl⟩

theorem asked_inv : Inv (asked [.op [0x21]]) where
  rests := running_inv.rests
  holds := running_inv.holds
  run h :=
    let r := running_inv.run h
    ⟨r.1, r.2, r.3, r.4, r.5, r.6, r.7, r.8, r.9, r.10, r.11, r.12, r.13⟩

theorem witness_StepsKeepTheInvariant : Inv (asked [.op [0x21]]) ∧ ∃ t, step (asked [.op [0x21]]) = .next t :=
  ⟨asked_inv, asked_step⟩

theorem witness_StepsKeepTheAxesInRange : OutputsInRange (asked [.op [0x21]]) ∧ ∃ t, step (asked [.op [0x21]]) = .next t :=
  ⟨fun _ h => absurd h List.not_mem_nil, asked_step⟩

theorem witness_ConfigurationIsWrittenByLoopStartAlone : ∃ t, step (asked [.op [0x21]]) = .next t := asked_step

theorem witness_HostConfigurationIsSeenAtLoopStartAlone : Instr.loopIter ≠ .loopStart := nofun

theorem witness_OutputEventsAreOnlyAppended : ∃ t, step (asked [.op [0x21]]) = .next t := asked_step

theorem witness_IterationsConsumeThePrefixTheyDecode : ∃ t, exec .loopIter (given .B [0xAA, 0x55, 0x00, 0x01] 5) = .next t :=
  ⟨_, rfl⟩

theorem witness_ReportsAndDiagnosticsCarryOnlyTheirCodes :
    (∃ t, exec .loopIter (given .B [] 1001) = .next t) ∧ ∃ t, exec .loopStart (stopped .B) = .next t :=
  ⟨⟨_, rfl⟩, _, rfl⟩

theorem witness_OnlyLoopStartLeavesIdleAndStopped :
    State.reset.loopState = .idle ∧ (∃ t, step State.reset = .next t) ∧ (stopped .B).loopState = .stopped ∧
    ∃ t, step (stopped .B) = .next t :=
  ⟨rfl, ⟨_, rfl⟩, rfl, _, rfl⟩

theorem witness_RunsEndReleased : (asked [.op [0x21]]).inRun = true ∧ ∃ t, step (asked [.op [0x21]]) = .next t :=
  ⟨rfl, asked_step⟩

/-- Three iterations of `SnapshotsAndIdleDiagnosticsAreSpaced`: a frame at the observer interval publishes; the idle state is
entered; within the idle diagnostic's interval nothing but the neutral snapshot is sent. -/
theorem witness_SnapshotsAndIdleDiagnosticsAreSpaced :
    (given .A [] 30).tObs ≤ (given .A [] 30).tLast ∧ (given .A [] 30).tIdleDiag ≤ (given .A [] 30).tLast ∧
    ((after (exec .loopIter (given .A (text "1,2,3,4,5,6,7,8,9,10" ++ [0x0A]) 30))).map
      fun t => (t.out.countP isSnapshot, t.tObs)) = some (1, 30) ∧
    ((after (exec .loopIter (given .B [] 1001))).map fun t => (t.out.count (.diag .idleTimeout), t.tIdleDiag)) = some (1, 1001) ∧
    (silent 2000).tObs ≤ (silent 2000).tLast ∧ (silent 2000).tIdleDiag ≤ (silent 2000).tLast ∧
    ((after (exec .loopIter (silent 2000))).map fun t => (t.out.count (.diag .idleTimeout), t.tIdleDiag, t.tObs)) =
      some (0, 1001, 0) :=
  ⟨by decide, by decide, by decide +kernel, by decide, by decide, by decide, by decide⟩

end Sys2Proof.Tests
end

section
/-! SUPPORT. What is sent to the sink lies within `1..32767` on every axis (00_scope R15): the rule of an output list that
grew, and what each operation that sends appends to it. -/

namespace Sys2Proof.Machine

/-- Every event of a list is in range. -/
def EventsInRange (evs : List Event) : Prop := ∀ e ∈ evs, EventInRange e

@[simp] theorem eventsInRange_nil : EventsInRange [] := List.forall_mem_nil _

@[simp] theorem eventsInRange_cons (e : Event) (evs : List Event) :
    EventsInRange (e :: evs) ↔ EventInRange e ∧ EventsInRange evs := List.forall_mem_cons

@[simp] theorem eventsInRange_append (l m : List Event) :
    EventsInRange (l ++ m) ↔ EventsInRange l ∧ EventsInRange m := List.forall_mem_append

@[simp] theorem eventInRange_sinkUpdate (axis : Lanes Nat) (btn : Pair Bool) :
    EventInRange (.sinkUpdate axis btn) ↔ ∀ k : Fin 8, 1 ≤ axis.get k ∧ axis.get k ≤ 32767 := Iff.rfl

@[simp] theorem eventInRange_sinkAcquire (dev : Nat) : EventInRange (.sinkAcquire dev) := trivial
@[simp] theorem eventInRange_sinkRelease : EventInRange .sinkRelease := trivial
@[simp] theorem eventInRange_transportOpen (port baud timeout : Nat) :
    EventInRange (.transportOpen port baud timeout) := trivial
@[simp] theorem eventInRange_transportClose : EventInRange .transportClose := trivial
@[simp] theorem eventInRange_keyTap (name : KeyName) : EventInRange (.keyTap name) := trivial
@[simp] theorem eventInRange_obsPublish (pot : Lanes Byte) (swRaw : Pair Byte) (swStable : Pair Bool) (cal : Bool) :
    EventInRange (.obsPublish pot swRaw swStable cal) := trivial
@[simp] theorem eventInRange_diag (code : Code) : EventInRange (.diag code) := trivial
@[simp] theorem eventInRange_report (code : Code) : EventInRange (.report code) := trivial

/-- The snapshots stay in range when the output list grows by events that are. -/
theorem OutputsInRange.append {s t : State} {evs : List Event} (hs : OutputsInRange s) (ht : t.out = s.out ++ evs)
    (he : EventsInRange evs) : OutputsInRange t := by
  unfold OutputsInRange
  rw [ht]
  exact (eventsInRange_append s.out evs).mpr ⟨hs, he⟩

@[simp] theorem neutralAxes_get (k : Fin 8) : Config.neutralAxes.get k = 16448 := Lanes.get_all _ k

/-- The neutral snapshot is in range (43 R218). -/
@[simp] theorem neutralEvent_inRange : EventInRange neutralEvent := by
  simp [neutralEvent]

@[simp] theorem failureEvents_inRange : EventsInRange failureEvents := by
  simp [failureEvents]

/-- The axis values of a frame are clamped (42 R196). -/
theorem frameAxes_inRange (f : Frame) (s : State) (k : Fin 8) :
    1 ≤ (frameAxes f s).get k ∧ (frameAxes f s).get k ≤ 32767 := by
  rw [frameAxes, Lanes.get_ofFn]
  exact clampAxis_range _

theorem DropEvents.inRange {evs : List Event} (h : DropEvents evs) : EventsInRange evs := by
  obtain rfl | ⟨code, -, rfl⟩ := h <;> simp

theorem TapEvents.inRange {evs : List Event} (h : TapEvents evs) : EventsInRange evs := by
  obtain rfl | ⟨name, rfl | rfl⟩ := h <;> simp

/-! The decoder sends diagnostics alone (40 R145). -/

theorem DecoderStep.outputsInRange {s t : State} (h : DecoderStep s t) (hs : OutputsInRange s) : OutputsInRange t := by
  obtain ⟨d, c, evs, q, rfl, ⟨rfl, -⟩ | ⟨code, rfl, -⟩⟩ := h
  · exact hs.append rfl (by simp)
  · exact hs.append rfl (by simp)

theorem accountDrop_outputsInRange {s : State} (r : DecResult) (hs : OutputsInRange s) :
    OutputsInRange (accountDrop r s) :=
  (accountDrop_step r s s.dec s.env.rxq).outputsInRange hs

theorem receiveUnit_outputsInRange {s : State} (bytes : List Byte) (hs : OutputsInRange s) :
    OutputsInRange (receiveUnit bytes s) :=
  (callDecode_step (s.withRxq (bytes ++ s.env.rxq))).outputsInRange hs

/-! The loop sends the snapshot of a frame and the neutral one (43 R215, R218). -/

theorem stopRun_outputsInRange {s : State} (cause : Code) (hs : OutputsInRange s) : OutputsInRange (stopRun cause s) := by
  rw [stopRun_eq]
  refine hs.append rfl ?_
  split <;> simp

theorem edgeTaps_outputsInRange {s : State} (st : Pair Bool) (hs : OutputsInRange s) : OutputsInRange (edgeTaps st s) := by
  obtain ⟨evs, ans, ht, he⟩ := edgeTaps_step st s
  rw [ht]
  refine hs.append rfl fun e h => ?_
  obtain rfl | ⟨name, rfl⟩ := he e h <;> trivial

theorem obsPublish_outputsInRange {s : State} (now : Nat) (hs : OutputsInRange s) : OutputsInRange (obsPublish now s) := by
  obtain ⟨-, h⟩ | ⟨-, h⟩ := obsPublish_cases now s <;> rw [h]
  · exact hs
  · exact hs.append rfl (by simp)

theorem neutralPush_outputsInRange {s : State} (hs : OutputsInRange s) : OutputsInRange (neutralPush s) := by
  obtain ⟨-, h⟩ | ⟨-, h⟩ := neutralPush_cases s <;> rw [h]
  · exact hs.append (evs := [neutralEvent]) rfl (by simp)
  · exact stopRun_outputsInRange _ (hs.append (evs := [neutralEvent]) rfl (by simp))

theorem idleDiag_outputsInRange {s : State} (now : Nat) (hs : OutputsInRange s) : OutputsInRange (idleDiag now s) := by
  obtain ⟨-, h⟩ | ⟨-, -, h⟩ | ⟨-, -, h⟩ := idleDiag_cases now s <;> rw [h]
  · exact hs.append rfl (by simp)
  · exact hs.append rfl (by simp)
  · exact hs

theorem idleBranch_outputsInRange {s : State} (now : Nat) (hs : OutputsInRange s) : OutputsInRange (idleBranch now s) := by
  unfold idleBranch
  split
  · exact neutralPush_outputsInRange (idleDiag_outputsInRange now hs)
  · exact hs

/-- A processed frame sends its own clamped axes, and the neutral snapshot when the sink fails (43 R215, R216). -/
theorem processFrame_outputsInRange {s : State} (f : Frame) (now : Nat) (hs : OutputsInRange s) :
    OutputsInRange (processFrame f now s) := by
  obtain ⟨_, _, st, -, -, ⟨-, g0, g1, obs, _, _, h0, h1, hobs, h⟩ | ⟨-, h⟩⟩ := processFrame_whole f now s <;>
    rw [h]
  · refine hs.append rfl ?_
    have ho : EventsInRange obs := by
      obtain ⟨rfl, -⟩ | ⟨⟨_, _, _, _, rfl⟩, -⟩ := hobs <;> simp
    simp [frameAxes_inRange, h0.inRange, h1.inRange, ho]
  · exact hs.append rfl (by simp [frameAxes_inRange])

theorem afterDecode_outputsInRange {s : State} (r : CallResult) (now : Nat) (hs : OutputsInRange s) :
    OutputsInRange (afterDecode r now s) := by
  obtain ⟨f, -, h⟩ | ⟨-, h⟩ := afterDecode_cases r now s <;> rw [h]
  · exact processFrame_outputsInRange f now hs
  · exact idleBranch_outputsInRange now hs

theorem failStart_outputsInRange {s : State} (code : Code) (hs : OutputsInRange s) : OutputsInRange (failStart code s) :=
  hs.append (evs := [.report code]) rfl (by simp)

/-- A start sends the neutral snapshot when the transport does not open, and no other (43 R210). -/
theorem acceptStart_outputsInRange {s : State} (hs : OutputsInRange s) : OutputsInRange (acceptStart s) := by
  have hout : EventsInRange s.out := hs
  obtain ⟨-, h⟩ | ⟨-, -, h⟩ | ⟨-, -, h⟩ := acceptStart_cases s <;> rw [h]
  · exact failStart_outputsInRange _ (hs.append rfl (by simp))
  · apply failStart_outputsInRange
    change EventsInRange (s.out ++ _ ++ _ ++ _)
    simp [hout]
  · change EventsInRange (s.out ++ _ ++ _)
    simp [hout]

end Sys2Proof.Machine
end

section
/-! SUPPORT. The axis values that a request can carry: SINK_UPDATE asked for alone has only operands `1..32767` (20_memory
R65, log entry 8). -/

namespace Sys2Proof

open Machine

/-- An instruction that names a snapshot itself names one in range. -/
def Instr.SendsInRange : Instr → Prop
  | .sinkUpdate axis btn => EventInRange (.sinkUpdate axis btn)
  | _ => True

/-- What a reader of operand words answers, if it answers, satisfies `P`. -/
def Answers {α : Type} (P : α → Prop) (r : Reader α) : Prop := ∀ x ws, r = .ok (x, ws) → P x

theorem answers_ok {α : Type} {P : α → Prop} {x : α} (ws : List Nat) (h : P x) : Answers P (.ok (x, ws)) := by
  rintro _ _ ⟨⟩
  exact h

theorem answers_error {α : Type} (P : α → Prop) (e : DecodeError) : Answers P (.error e) := nofun

theorem answers_thenRead {α β : Type} {P : β → Prop} {r : Reader α} {f : α → List Nat → Reader β}
    (h : ∀ x ws, r = .ok (x, ws) → Answers P (f x ws)) : Answers P (thenRead r f) := by
  intro y ws hy
  obtain ⟨x, ws', hr, hf⟩ := thenRead_inv hy
  exact h x ws' hr y ws hf

theorem readLanes_axisValue_inRange {ws ws' : List Nat} {axis : Lanes Nat}
    (h : readLanes readAxisValue ws = .ok (axis, ws')) (btn : Pair Bool) : EventInRange (.sinkUpdate axis btn) := by
  obtain ⟨-, ha⟩ := (readLanes_reads readAxisValue_reads).2 ws axis ws' h
  intro k
  have hk : axis.get k ∈ axis.toList := by fin_cases k <;> simp [Lanes.get, Lanes.toList]
  simpa [axisInRange] using ha _ hk

theorem decodeOp_sendsInRange (ws : List Nat) : Answers Instr.SendsInRange (decodeOp ws) := by
  unfold decodeOp
  split
  -- No words; then a row for each identifier: the 23rd is SINK_UPDATE, the 30th no operation.
  case h_1 => exact answers_error _ _
  case h_2 id ws =>
    split
    case h_23 =>
      refine answers_thenRead fun axis ws h => answers_thenRead fun btn ws _ => answers_ok ws ?_
      exact readLanes_axisValue_inRange h btn
    case h_30 => exact answers_error _ _
    all_goals
      repeat' refine answers_thenRead fun _ _ _ => ?_
      exact answers_ok _ trivial

theorem decode_words_sendsInRange {fmt : WireFormat} {ws : List Nat} {i : Instr} (h : decode fmt (.words ws) = .ok i) :
    i.SendsInRange := by
  unfold decode at h
  dsimp only at h
  split at h
  · cases h
    exact decodeOp_sendsInRange ws i [] ‹_›
  · cases h
  · cases h

/-- A wire unit is decoded to a row of its own format (30_encoding R90). -/
theorem decodeWire_wireFormat {fmt : WireFormat} {bs after : List Byte} {i : Instr}
    (h : decodeWire fmt bs = .ok (i, after)) : i.wireFormat = some fmt := by
  cases fmt with
  | A =>
    dsimp only [decodeWire, decodeWireA] at h
    repeat' split at h
    all_goals cases h
    all_goals rfl
  | B =>
    dsimp only [decodeWire, decodeWireB] at h
    repeat' split at h
    all_goals cases h
    all_goals rfl

/-- A wire row names no snapshot. -/
theorem sendsInRange_of_wireFormat {i : Instr} {fmt : WireFormat} (h : i.wireFormat = some fmt) : i.SendsInRange := by
  cases i with
  | sinkUpdate axis btn => cases h
  | _ => trivial

end Sys2Proof
end

section
/-! PROOFS. O51: every step keeps every axis value sent to the sink within `1..32767`. -/

namespace Sys2Proof.Machine

/-- An operation that runs to a state and returns a value keeps what that state has sent. -/
theorem outputsInRange_of_whenInRun {s t u : State} {r : Result} (h : whenInRun s (.next (u.ret r)) = .next t)
    (hu : OutputsInRange u) : OutputsInRange t := by
  obtain ⟨-, hn⟩ := whenInRun_next h
  cases hn
  exact hu

/-- The same for an operation that is given a time. -/
theorem outputsInRange_of_atTime {s t : State} {τ : Nat} {u : State → State} {r : State → Result}
    (h : whenInRun s (atTime s τ fun s => .next ((u s).ret (r s))) = .next t)
    (hu : OutputsInRange (u { s with tLast := τ })) : OutputsInRange t := by
  obtain ⟨-, hn⟩ := whenInRun_next h
  obtain ⟨-, hk⟩ := atTime_next hn
  cases hk
  exact hu

/-- A wire row keeps what is sent within range, whatever its bytes. -/
theorem outputsInRange_of_receiveUnit {s t : State} {bytes : List Byte}
    (h : whenInRun s (.next (receiveUnit bytes s)) = .next t) (hs : OutputsInRange s) : OutputsInRange t := by
  obtain ⟨-, hn⟩ := whenInRun_next h
  cases hn
  exact receiveUnit_outputsInRange bytes hs

theorem execMedian_outputsInRange {s t : State} {w : List Byte} (hs : OutputsInRange s) (h : execMedian w s = .next t) :
    OutputsInRange t := by
  obtain ⟨-, hn⟩ := whenInRun_next h
  split at hn
  · cases hn
  · cases hn
    exact hs

theorem execRxRead_outputsInRange {s t : State} (hs : OutputsInRange s) (h : execRxRead s = .next t) :
    OutputsInRange t := by
  refine outputsInRange_of_whenInRun h ?_
  cases hq : s.env.rxq with
  | nil => rw [callRxRead_nil hq]; exact hs
  | cons b q => rw [callRxRead_cons hq]; exact hs

theorem execLoopStart_outputsInRange {s t : State} (hs : OutputsInRange s) (h : execLoopStart s = .next t) :
    OutputsInRange t := by
  unfold execLoopStart at h
  split at h
  · cases h
  · split at h
    · cases h
    · cases h
      exact acceptStart_outputsInRange hs

theorem exec_loopIter_outputsInRange {s t : State} (hs : OutputsInRange s) (h : exec .loopIter s = .next t) :
    OutputsInRange t := by
  obtain ⟨-, ⟨-, rfl⟩ | ⟨-, -, d, c, evs, q, r, -, -, hd, -, -, rfl⟩⟩ := exec_loopIter_cases h
  · exact stopRun_outputsInRange .none hs
  · exact afterDecode_outputsInRange r s.env.clock (hs.append rfl hd.inRange)

/-- Every instruction keeps what is sent within range, if it names no snapshot out of range itself. -/
theorem exec_outputsInRange {i : Instr} {s t : State} (hi : i.SendsInRange) (hs : OutputsInRange s)
    (h : exec i s = .next t) : OutputsInRange t := by
  cases i with
  | frameB pot status rsv0 rsv1 => exact outputsInRange_of_receiveUnit h hs
  | frameBOtherLen payload => exact outputsInRange_of_receiveUnit h hs
  | frameBBadCrc payload trailer => exact outputsInRange_of_receiveUnit h hs
  | frameBBadLenRange l => exact outputsInRange_of_receiveUnit h hs
  | frameA pots s1 s2 cr => exact outputsInRange_of_receiveUnit h hs
  | lineADropped line => exact outputsInRange_of_receiveUnit h hs
  | crc8Update c b => exact outputsInRange_of_whenInRun h hs
  | crc8 p => exact outputsInRange_of_whenInRun h hs
  | decByteB b => exact outputsInRange_of_whenInRun h (accountDrop_outputsInRange _ hs)
  | decByteA b => exact outputsInRange_of_whenInRun h (accountDrop_outputsInRange _ hs)
  | parseLine line => exact outputsInRange_of_whenInRun h (accountDrop_outputsInRange _ hs)
  | parseInt field => exact outputsInRange_of_whenInRun h hs
  | decodeCall => exact outputsInRange_of_whenInRun h ((callDecode_step s).outputsInRange hs)
  | median w => exact execMedian_outputsInRange hs h
  | swFeed sw raw t => exact outputsInRange_of_atTime h hs
  | axisMap k raw => exact outputsInRange_of_whenInRun h hs
  | loopStart => exact execLoopStart_outputsInRange hs h
  | loopIter => exact exec_loopIter_outputsInRange hs h
  | processFrame f t => exact outputsInRange_of_atTime h (processFrame_outputsInRange f t hs)
  | edgeTaps st => exact outputsInRange_of_whenInRun h (edgeTaps_outputsInRange st hs)
  | neutralPush => exact outputsInRange_of_whenInRun h (neutralPush_outputsInRange hs)
  | obsPublish t => exact outputsInRange_of_atTime h (obsPublish_outputsInRange t hs)
  | loopStop cause => exact outputsInRange_of_whenInRun h (stopRun_outputsInRange cause hs)
  | rxRead => exact execRxRead_outputsInRange hs h
  | transportOpen port baud timeout => exact outputsInRange_of_whenInRun h (hs.append rfl (by simp))
  | transportClose => exact outputsInRange_of_whenInRun h (hs.append rfl (by simp))
  | sinkAcquire dev => exact outputsInRange_of_whenInRun h (hs.append rfl (by simp))
  | sinkRelease => exact outputsInRange_of_whenInRun h (hs.append rfl (by simp))
  | sinkUpdate axis btn =>
    exact outputsInRange_of_whenInRun h (hs.append rfl ((eventsInRange_cons _ _).mpr ⟨hi, eventsInRange_nil⟩))
  | keyTap name => exact outputsInRange_of_whenInRun h (hs.append rfl (by simp))
  | obsEvent pot swRaw swStable cal => exact outputsInRange_of_whenInRun h (hs.append rfl (by simp))
  | diag code => exact outputsInRange_of_whenInRun h (hs.append rfl (by simp))
  | report code => exact outputsInRange_of_whenInRun h (hs.append rfl (by simp))
  | now => exact outputsInRange_of_atTime h hs
  | cancelLevel => exact outputsInRange_of_whenInRun h hs

/-- Settles O51: an instruction is what the request decodes to, and no request carries a snapshot out of range. -/
theorem stepsKeepTheAxesInRange : Obligations.StepsKeepTheAxesInRange := by
  intro s t hs h
  obtain rfl | ⟨e, rfl, -⟩ | ⟨i, rest, q, he, hreq⟩ := step_cases h
  · exact hs
  · exact hs
  · have hi : i.SendsInRange := by
      obtain ⟨ws, -, -, hd⟩ | ⟨-, hd⟩ := hreq
      · exact decode_words_sendsInRange hd
      · exact sendsInRange_of_wireFormat (decodeWire_wireFormat hd)
    exact exec_outputsInRange hi (by exact hs) he

end Sys2Proof.Machine
end

section
/-! SUPPORT. When the byte machine of wire format B gives a Frame, and the checksum by table T1 (40 R132, R138). -/

namespace Sys2Proof.Machine
open Stated

/-- Table T1 lists CRC8_UPDATE from zero of every byte (40 R132). -/
theorem crcTable_eq_map : crcTable = (List.range 256).map fun n => crcUpdate 0#8 (BitVec.ofNat 8 n) := by
  decide +kernel

theorem crcTable_getD (x : Byte) : crcTable.getD x.toNat 0 = crcUpdate 0#8 x := by
  simp [crcTable_eq_map, List.getElem?_range x.isLt]

theorem crcUpdate_eq_crcByTable (c b : Byte) : crcUpdate c b = crcByTable c b := by
  rw [crcUpdate_eq, crcByTable, crcTable_getD]

theorem crc8Of_eq_foldl_crcByTable (p : List Byte) : crc8Of p = p.foldl crcByTable 0x00#8 := by
  have h : crcUpdate = crcByTable := funext₂ crcUpdate_eq_crcByTable
  rw [crc8Of, h]

/-- The byte machine gives a Frame on the trailer alone: it is the running checksum, and eleven bytes were announced (40
R138). -/
theorem machineB_frame {d : Decoder} {b : Byte} {f : Frame} (h : (machineB d b).2 = .frame f) :
    d.bState = .crc ∧ b = d.bCrc ∧ d.bLen = 11 ∧ f = buildFrameB d.bBuf := by
  unfold machineB at h
  cases hs : d.bState with
  | hunt => rw [hs] at h; cases h
  | gotAA => rw [hs] at h; cases h
  | len =>
    rw [hs] at h
    dsimp only [lenB] at h
    split at h <;> cases h
  | payload => rw [hs] at h; cases h
  | crc =>
    rw [hs] at h
    dsimp only [crcB] at h
    split at h
    · cases h
    · split at h
      · cases h
      · cases h
        exact ⟨rfl, not_not.mp ‹_›, not_not.mp ‹_›, rfl⟩

/-- Eleven bytes are eight readings, a status byte and two reserved bytes (30_encoding R100). -/
theorem exists_lanes_of_length_eq_eleven {l : List Byte} (h : l.length = 11) :
    ∃ (pot : Lanes Byte) (status rsv0 rsv1 : Byte), l = pot.toList ++ [status, rsv0, rsv1] := by
  match l, h with
  | [p0, p1, p2, p3, p4, p5, p6, p7, st, r0, r1], _ => exact ⟨⟨p0, p1, p2, p3, p4, p5, p6, p7⟩, st, r0, r1, rfl⟩

theorem buildFrameB_eq_frameOfPayload (pot : Lanes Byte) (status rsv0 rsv1 : Byte) :
    buildFrameB (pot.toList ++ [status, rsv0, rsv1]) = frameOfPayload pot status := rfl

end Sys2Proof.Machine
end

section
/-! SUPPORT. When PARSE_LINE gives a Frame: the fields it cuts a line into, and the integers they spell (30_encoding R93 to
R95, 40 R141 to R144). -/

namespace Sys2Proof.Machine
open Stated

theorem isBlank_iff (b : Byte) : isBlank b = true ↔ b = 0x20#8 ∨ b = 0x09#8 := by
  simp [isBlank]

theorem saturate_eq_saturated (v : Int) : saturate v = saturated v := by
  have h : clamp v 0 255 = max 0 (min v 255) := by
    unfold clamp
    split
    · omega
    · split <;> omega
  rw [saturate, saturated, h]

theorem buildFrameA_eq_frameOfFields (v : Lanes Int) (v8 v9 : Int) : buildFrameA v v8 v9 = frameOfFields v v8 v9 := by
  simp only [buildFrameA, frameOfFields, saturate_eq_saturated]

/-- The fields of a line, put back together, are the line (30_encoding R94). -/
theorem joinFields_splitCommas (l : List Byte) : joinFields (splitCommas l) = l := by
  induction l with
  | nil => rfl
  | cons b l ih =>
    unfold splitCommas
    cases hs : splitCommas l with
    | nil => exact absurd hs (splitCommas_ne_nil l)
    | cons f fs =>
      rw [hs] at ih
      split
      · next hb =>
        rw [hb, ← ih]
        rfl
      · rw [← ih]
        cases fs <;> rfl

/-- One carriage return at the end is all that is stripped (30_encoding R93). -/
theorem eq_stripCr_or (line : List Byte) : line = stripCr line ∨ line = stripCr line ++ [0x0D#8] := by
  unfold stripCr
  split
  · next h => exact .inr (List.dropLast_append_getLast? _ h).symm
  · exact .inl rfl

/-- The digits of a field: at least one, and all of them digits (40 R142). -/
theorem parseMagnitude_some {t : List Byte} {m : Nat} (h : parseMagnitude t = some m) :
    t ≠ [] ∧ (∀ d ∈ t, 0x30 ≤ d.toNat ∧ d.toNat ≤ 0x39) ∧ m = spelled t := by
  cases t with
  | nil => cases h
  | cons d ds => exact ⟨List.cons_ne_nil d ds, parseDigits_some _ 0 m h⟩

/-- A sign and digits between white space spell an integer (30_encoding R95). -/
theorem spells_of_trimBlank {field sign digits : List Byte} {m : Nat} {v : Int} (htrim : trimBlank field = sign ++ digits)
    (hm : parseMagnitude digits = some m)
    (hv : (sign = [] ∨ sign = [0x2B#8]) ∧ v = m ∨ sign = [0x2D#8] ∧ v = -(m : Int)) : Spells field v := by
  obtain ⟨lead, trail, hfield, hlead, htrail⟩ := trimBlank_decompose field
  obtain ⟨hne, hdigits, rfl⟩ := parseMagnitude_some hm
  refine ⟨lead, sign, digits, trail, ?_, fun b hb => (isBlank_iff b).mp (hlead b hb),
    fun b hb => (isBlank_iff b).mp (htrail b hb), hne, hdigits, hv⟩
  rw [List.append_assoc lead, ← htrim]
  exact hfield

/-- A field that PARSE_INT accepts is spelled by the grammar (30_encoding R95, 40 R142). -/
theorem spells_of_parseInteger {field : List Byte} {v : Int} (h : parseInteger field = some v) : Spells field v := by
  unfold parseInteger at h
  split at h
  · cases h
  · next c t htrim =>
    split at h
    · next hc =>
      obtain ⟨m, hm, rfl⟩ := Option.map_eq_some_iff.mp h
      exact spells_of_trimBlank (sign := [c]) htrim hm (.inl ⟨.inr (by rw [hc]), rfl⟩)
    · split at h
      · next hc =>
        obtain ⟨m, hm, rfl⟩ := Option.map_eq_some_iff.mp h
        exact spells_of_trimBlank (sign := [c]) htrim hm (.inr ⟨by rw [hc], rfl⟩)
      · obtain ⟨m, hm, rfl⟩ := Option.map_eq_some_iff.mp h
        exact spells_of_trimBlank (sign := []) htrim hm (.inl ⟨.inl rfl, rfl⟩)

theorem spells_of_parseFields {fields : List (List Byte)} {vs : List Int} (h : parseFields fields = some vs) :
    List.Forall₂ Spells fields vs := by
  induction fields generalizing vs with
  | nil =>
    cases h
    exact .nil
  | cons f fs ih =>
    unfold parseFields at h
    split at h
    · cases h
    · next v hv =>
      obtain ⟨ws, hws, rfl⟩ := Option.map_eq_some_iff.mp h
      exact .cons (spells_of_parseInteger hv) (ih hws)

/-- PARSE_LINE gives a Frame of ten integers alone (40 R141, R144). -/
theorem judgeLine_frame {line : List Byte} {f : Frame} (h : judgeLine line = .frame f) :
    ∃ v v8 v9, parseFields (splitCommas (stripCr line)) = some (Lanes.toList v ++ [v8, v9]) ∧
      f = buildFrameA v v8 v9 := by
  unfold judgeLine at h
  split at h
  · cases h
  · split at h
    · cases h
    · split at h
      · next v0 v1 v2 v3 v4 v5 v6 v7 v8 v9 hv =>
        cases h
        exact ⟨⟨v0, v1, v2, v3, v4, v5, v6, v7⟩, v8, v9, hv, rfl⟩
      · cases h

/-- The line machine gives a Frame on the terminator alone, of a line that fitted its buffer (40 R140). -/
theorem machineA_frame {lineMax : Nat} {d : Decoder} {b : Byte} {f : Frame} (h : (machineA lineMax d b).2 = .frame f) :
    b = 0x0A#8 ∧ d.aOvf = false ∧ judgeLine (d.aBuf.take d.aLen) = .frame f := by
  unfold machineA at h
  split at h
  · cases h
  · next hb =>
    dsimp only at h
    split at h
    · cases h
    · next ho => exact ⟨not_not.mp hb, Bool.not_eq_true _ ▸ ho, h⟩

end Sys2Proof.Machine
end

section
/-! PROOFS. O23: a Frame comes only from a payload that passed its integrity check. -/

namespace Sys2Proof.Machine
open Stated

theorem result_decByteB {s t : State} {b : Byte} (h : exec (.decByteB b) s = .next t) :
    t.result = .decoded (machineB s.dec b).2 := by
  obtain ⟨-, hn⟩ := whenInRun_next h
  cases hn
  rfl

theorem result_decByteA {s t : State} {b : Byte} (h : exec (.decByteA b) s = .next t) :
    t.result = .decoded (machineA s.params.lineMax s.dec b).2 := by
  obtain ⟨-, hn⟩ := whenInRun_next h
  cases hn
  rfl

/-- Wire format B: the Frame is made of the eleven bytes whose checksum is the trailer (40 R138, R139). -/
theorem machineB_frame_checked {d : Decoder} {b : Byte} {f : Frame} (hd : DecoderBOk d)
    (h : (machineB d b).2 = .frame f) :
    ∃ pot status rsv0 rsv1, d.bState = .crc ∧ d.bBuf = pot.toList ++ [status, rsv0, rsv1] ∧
      b = (pot.toList ++ [status, rsv0, rsv1]).foldl crcByTable 0x00#8 ∧ f = frameOfPayload pot status := by
  obtain ⟨hs, hb, hlen, hf⟩ := machineB_frame h
  obtain ⟨-, -, -, hbuf, hcrc⟩ := hd.2 hs
  obtain ⟨pot, status, rsv0, rsv1, hl⟩ := exists_lanes_of_length_eq_eleven (hbuf.trans hlen)
  refine ⟨pot, status, rsv0, rsv1, hs, hl, ?_, ?_⟩
  · rw [hb, hcrc, hl, crc8Of_eq_foldl_crcByTable]
  · rw [hf, hl, buildFrameB_eq_frameOfPayload]

/-- Wire format A: the Frame is made of ten fields of the line that spell integers (40 R141, R144). -/
theorem judgeLine_frame_checked {line : List Byte} {f : Frame} (h : judgeLine line = .frame f) :
    ∃ fields v v8 v9, (line = joinFields fields ∨ line = joinFields fields ++ [0x0D#8]) ∧
      List.Forall₂ Spells fields (Lanes.toList v ++ [v8, v9]) ∧ f = frameOfFields v v8 v9 := by
  obtain ⟨v, v8, v9, hv, hf⟩ := judgeLine_frame h
  refine ⟨splitCommas (stripCr line), v, v8, v9, ?_, spells_of_parseFields hv, ?_⟩
  · rw [joinFields_splitCommas]
    exact eq_stripCr_or line
  · rw [hf, buildFrameA_eq_frameOfFields]

/-- Settles O23: the byte machines give a Frame in their last state alone, after the checksum and the length of format B, and
after the fields of format A were read. -/
theorem framesComeFromCheckedPayloads : Obligations.FramesComeFromCheckedPayloads := by
  intro s t b f _
  constructor
  · intro hd hx hr
    rw [result_decByteB hx] at hr
    exact machineB_frame_checked hd (Result.decoded.inj hr)
  · intro hx hr
    rw [result_decByteA hx] at hr
    obtain ⟨hb, ho, hj⟩ := machineA_frame (Result.decoded.inj hr)
    exact ⟨hb, ho, judgeLine_frame_checked hj⟩

end Sys2Proof.Machine
end

section
/-! SUPPORT. When an operation is enabled, and what an accepted LOOP_START latches (10_state R50, 43 R210, 00_scope R14). -/

namespace Sys2Proof

theorem Lanes.forall_iff {α : Type} (v : Lanes α) (p : α → Bool) : v.forall p = true ↔ ∀ k, p (v.get k) = true := by
  simp [Lanes.forall, Lanes.toList, Lanes.get, Fin.forall_fin_succ]

namespace Machine
open Stated

/-- The configuration test is the conjunction of the ranges (00_scope R12, R14). -/
theorem wellFormedConfig_iff (p : Params) (c : Settings) : wellFormedConfig p c = true ↔ WellFormed p c := by
  simp only [wellFormedConfig, WellFormed, Bool.and_eq_true, decide_eq_true_eq, Lanes.forall_iff,
    Option.isSome_iff_ne_none, and_assoc]

theorem inRun_eq_false_of_canStart {s : State} (h : s.canStart = true) : s.inRun = false := by
  obtain h | h := (State.canStart_iff s).mp h <;> simp [State.inRun, h]

/-- Outside a run every instruction but LOOP_START is refused (10_state R50, 93 U9). -/
theorem exec_eq_refused_of_inRun_eq_false {i : Instr} {s : State} (hi : i ≠ .loopStart) (hs : s.inRun = false) :
    exec i s = .refused .notInRun := by
  cases i with
  | loopStart => exact absurd rfl hi
  | _ => exact whenInRun_notInRun _ hs

theorem inRun_of_exec_next {i : Instr} {s t : State} (hi : i ≠ .loopStart) (h : exec i s = .next t) :
    s.inRun = true := by
  by_contra hs
  rw [exec_eq_refused_of_inRun_eq_false hi (Bool.eq_false_of_not_eq_true hs)] at h
  cases h

/-- LOOP_START answers a next state only outside a run and with a well-formed configuration (43 R210, 93 U7, U8). -/
theorem exec_loopStart_next {s t : State} (h : exec .loopStart s = .next t) :
    s.canStart = true ∧ WellFormed s.params s.env.hostCfg ∧ t = (acceptStart s).ret .none := by
  change execLoopStart s = _ at h
  unfold execLoopStart at h
  split at h
  · cases h
  · split at h
    · cases h
    · next hc hw =>
      cases h
      exact ⟨by simpa using hc, (wellFormedConfig_iff _ _).mp (by simpa using hw), rfl⟩

theorem exec_loopStart_of_wellFormed {s : State} (hs : s.canStart = true) (hc : WellFormed s.params s.env.hostCfg) :
    exec .loopStart s = .next ((acceptStart s).ret .none) := by
  change execLoopStart s = _
  simp [execLoopStart, hs, (wellFormedConfig_iff _ _).mpr hc]

/-- Whatever the resources answer, an accepted start latches the host's configuration (10_state R23, R40). -/
theorem acceptStart_latches (s : State) :
    (acceptStart s).cfg = s.env.hostCfg ∧ (acceptStart s).fmt = s.env.hostCfg.wireFormat.getD .A := by
  obtain ⟨-, h⟩ | ⟨-, -, h⟩ | ⟨-, -, h⟩ := acceptStart_cases s <;> rw [h] <;> exact ⟨rfl, rfl⟩

end Machine
end Sys2Proof
end

section
/-! SUPPORT. No request decodes to LOOP_START but the word 0x20 alone (30_encoding R110). -/

namespace Sys2Proof

theorem eq_of_decodeOp_loopStart {ws ws' : List Nat} (h : decodeOp ws = .ok (.loopStart, ws')) : ws = 0x20 :: ws' := by
  have hne : ∀ {r : Reader Instr}, Answers (· ≠ .loopStart) r → r ≠ .ok (.loopStart, ws') :=
    fun hr he => hr _ _ he rfl
  unfold decodeOp at h
  split at h
  -- No words; then a row for each identifier: the 11th is LOOP_START, the 30th no operation.
  case h_1 => cases h
  case h_2 id ws =>
    split at h
    case h_11 =>
      cases h
      rfl
    case h_30 => cases h
    all_goals
      refine absurd h (hne ?_)
      repeat' refine answers_thenRead fun _ _ _ => ?_
      exact answers_ok _ nofun

theorem eq_of_decode_loopStart {fmt : WireFormat} {ws : List Nat} (h : decode fmt (.words ws) = .ok .loopStart) :
    ws = [0x20] := by
  unfold decode at h
  dsimp only at h
  split at h
  · next i hd =>
    cases h
    exact eq_of_decodeOp_loopStart hd
  · cases h
  · cases h

namespace Machine

/-- Everything a step can do when it answers a next state, LOOP_START set apart: the block's registers stay as they are, a
LOOP_START is run, or another instruction is. -/
theorem step_cases_loopStart {s t : State} (h : step s = .next t) :
    (∃ e, t = { s with env := e }) ∨
    (∃ rest, s.env.inputs = .op [0x20] :: rest ∧ exec .loopStart (s.withInputs rest) = .next t) ∨
    (∃ i e, i ≠ .loopStart ∧ exec i { s with env := e } = .next t) := by
  obtain rfl | ⟨e, rfl, -⟩ | ⟨i, rest, q, he, hreq⟩ := step_cases h
  · exact .inl ⟨_, rfl⟩
  · exact .inl ⟨e, rfl⟩
  · by_cases hi : i = .loopStart
    · subst hi
      obtain ⟨ws, hin, rfl, hd⟩ | ⟨-, hd⟩ := hreq
      · rw [eq_of_decode_loopStart hd] at hin
        exact .inr (.inl ⟨rest, hin, he⟩)
      · cases decodeWire_wireFormat hd
    · exact .inr (.inr ⟨i, _, hi, he⟩)

end Machine
end Sys2Proof
end

section
/-! SUPPORT. An operation of a run does one of two things: the run goes on, holding what it held and keeping the meanings of
its registers, or it ends in `Stopped` with both resources released (10_state R33, 43 R225, 60 R272). -/

namespace Sys2Proof.Machine

/-- The run goes on from `s` to `t`: what an operation leaves alone, and the register invariant it keeps. -/
structure GoesOn (s t : State) : Prop where
  inRun : s.inRun = true → t.inRun = true
  cfg : t.cfg = s.cfg
  fmt : t.fmt = s.fmt
  errCode : t.errCode = s.errCode
  sinkHeld : t.sinkHeld = s.sinkHeld
  transportHeld : t.transportHeld = s.transportHeld
  runOk : RunOk s → RunOk t

/-- The run of `s` has ended in `t`. -/
structure Ends (s t : State) : Prop where
  cfg : t.cfg = s.cfg
  fmt : t.fmt = s.fmt
  stopped : t.loopState = .stopped
  sinkReleased : t.sinkHeld = false
  transportReleased : t.transportHeld = false

/-- What an operation of a run does. -/
def RunStep (s t : State) : Prop := GoesOn s t ∨ Ends s t

/-- The output list, the environment and the returned value are no part of what a run holds or of its invariant. -/
theorem GoesOn.of_quiet (s : State) (o : List Event) (e : Env) (r : Result) :
    GoesOn s { s with out := o, env := e, result := r } :=
  ⟨id, rfl, rfl, rfl, rfl, rfl, fun h => { h with }⟩

theorem GoesOn.trans {s t u : State} (h : GoesOn s t) (k : GoesOn t u) : GoesOn s u where
  inRun hs := k.inRun (h.inRun hs)
  cfg := k.cfg.trans h.cfg
  fmt := k.fmt.trans h.fmt
  errCode := k.errCode.trans h.errCode
  sinkHeld := k.sinkHeld.trans h.sinkHeld
  transportHeld := k.transportHeld.trans h.transportHeld
  runOk hs := k.runOk (h.runOk hs)

theorem GoesOn.ends {s t u : State} (h : GoesOn s t) (k : Ends t u) : Ends s u :=
  { k with cfg := k.cfg.trans h.cfg, fmt := k.fmt.trans h.fmt }

theorem GoesOn.runStep {s t u : State} (h : GoesOn s t) (k : RunStep t u) : RunStep s u :=
  k.imp h.trans h.ends

/-! The time (20_memory R70). -/

theorem FilterOk.mono {cfg : Settings} {f : SwitchFilter} {τ τ' : Nat} (h : FilterOk cfg τ f) (hle : τ ≤ τ') :
    FilterOk cfg τ' f := by
  obtain ⟨hwin, hcand, hstable⟩ := h
  exact ⟨hwin, hcand.trans hle, hstable.trans hle⟩

/-- A later time is no earlier than any noted one, and the silence has lasted longer. -/
theorem GoesOn.atTime {s : State} {τ : Nat} (hle : s.tLast ≤ τ) : GoesOn s { s with tLast := τ } :=
  ⟨id, rfl, rfl, rfl, rfl, rfl, fun h =>
    { h with
      filter0 := h.filter0.mono hle
      filter1 := h.filter1.mono hle
      lastFrameTime := h.lastFrameTime.trans hle
      obsTime := h.obsTime.trans hle
      idleDiagTime := h.idleDiagTime.trans hle
      idleMeansSilence := fun hi => (h.idleMeansSilence hi).trans_le (Nat.sub_le_sub_right hle _) }⟩

/-! The decoder (10_state R24 to R28). -/

theorem machineB_keeps_both {lineMax : Nat} {d : Decoder} (b : Byte) (hB : DecoderBOk d) (hA : DecoderAOk lineMax d) :
    DecoderBOk (machineB d b).1 ∧ DecoderAOk lineMax (machineB d b).1 := by
  obtain ⟨hok, hbuf, hlen, hovf⟩ := machineB_keeps b hB
  refine ⟨hok, ?_⟩
  unfold DecoderAOk
  rw [hbuf, hlen, hovf]
  exact hA

theorem machineA_keeps_both {lineMax : Nat} {d : Decoder} (b : Byte) (hB : DecoderBOk d) (hA : DecoderAOk lineMax d) :
    DecoderBOk (machineA lineMax d b).1 ∧ DecoderAOk lineMax (machineA lineMax d b).1 := by
  obtain ⟨hok, hstate, hlen, hcnt, hcrc, hbuf⟩ := machineA_keeps b hA
  refine ⟨?_, hok⟩
  unfold DecoderBOk
  rw [hstate, hlen, hcnt, hcrc, hbuf]
  exact hB

theorem GoesOn.withDec {s : State} {d : Decoder}
    (h : DecoderBOk s.dec → DecoderAOk s.params.lineMax s.dec → DecoderBOk d ∧ DecoderAOk s.params.lineMax d) :
    GoesOn s (s.withDec d) :=
  ⟨id, rfl, rfl, rfl, rfl, rfl, fun hs =>
    { hs with
      decoderB := (h hs.decoderB hs.decoderA).1
      decoderA := (h hs.decoderB hs.decoderA).2 }⟩

/-- A drop is counted below the cap alone (40 R145). -/
theorem dropCode_goesOn (code : Code) (s : State) : GoesOn s (dropCode code s) := by
  rw [dropCode_eq]
  refine ⟨id, rfl, rfl, rfl, rfl, rfl, fun h => { h with diagCapped := ?_ }⟩
  have hc := h.diagCapped
  dsimp only
  split <;> omega

theorem accountDrop_goesOn (r : DecResult) (s : State) : GoesOn s (accountDrop r s) := by
  cases r with
  | nothing => exact .of_quiet s _ _ _
  | frame f => exact .of_quiet s _ _ _
  | dropped code => exact dropCode_goesOn code s

theorem decByteB_goesOn (b : Byte) (s : State) : GoesOn s (decByteB b s).2 :=
  (GoesOn.withDec (machineB_keeps_both b)).trans (accountDrop_goesOn _ _)

theorem decByteA_goesOn (b : Byte) (s : State) : GoesOn s (decByteA b s).2 :=
  (GoesOn.withDec (machineA_keeps_both b)).trans (accountDrop_goesOn _ _)

theorem decByte_goesOn (b : Byte) (s : State) : GoesOn s (decByte b s).2 := by
  unfold decByte
  cases s.fmt with
  | A => exact decByteA_goesOn b s
  | B => exact decByteB_goesOn b s

theorem decodeLoop_goesOn (q : List Byte) (s : State) : GoesOn s (decodeLoop q s).2 := by
  induction q generalizing s with
  | nil => exact .of_quiet s _ _ _
  | cons b q ih =>
    rw [decodeLoop_cons]
    have hb := decByte_goesOn b s
    split
    · exact hb.trans (ih _)
    · exact hb.trans (.of_quiet _ _ _ _)
    · exact hb.trans (.of_quiet _ _ _ _)

theorem callDecode_goesOn (s : State) : GoesOn s (callDecode s).2 := decodeLoop_goesOn _ s

theorem receiveUnit_goesOn (bytes : List Byte) (s : State) : GoesOn s (receiveUnit bytes s) :=
  (GoesOn.of_quiet s _ _ _).trans ((callDecode_goesOn (s.withRxq (bytes ++ s.env.rxq))).trans (.of_quiet _ _ _ _))

/-! The switch filters and the smoothing buffers (10_state R29 to R31). -/

/-- A sample given at the time `now` leaves the filter within its size and with no time after `now`. -/
theorem feedFilter_ok {cfg : Settings} {f : SwitchFilter} {now : Nat} (raw : Byte) (hw : 1 ≤ cfg.swW)
    (h : FilterOk cfg now f) : FilterOk cfg now (feedFilter cfg f raw now) := by
  obtain ⟨hwin, hcand, hstable⟩ := h
  obtain ⟨g, hg, hgw, hgc, hgs⟩ := feedFilter_cases cfg f raw now
  rw [hg]
  refine ⟨?_, ?_, ?_⟩
  · rw [hgw]
    exact (pushWindow_length raw hw hwin).2
  · obtain hgc | hgc := hgc <;> omega
  · obtain ⟨-, hgs⟩ | ⟨-, -, hgs, -⟩ := hgs <;> omega

theorem RunOk.swW_pos {s : State} (h : RunOk s) : 1 ≤ s.cfg.swW := by
  obtain ⟨-, -, -, -, hw, -⟩ := (wellFormedConfig_iff _ _).mp h.configWellFormed
  exact hw

theorem RunOk.filters {s : State} (h : RunOk s) (i : Fin 2) : FilterOk s.cfg s.tLast (s.sw.get i) := by
  fin_cases i
  · exact h.filter0
  · exact h.filter1

/-- Both filters keep their ranges when each is as it was or was fed at the last time given. -/
theorem RunOk.filters_fed {s : State} {sw : Pair SwitchFilter} (h : RunOk s)
    (hsw : ∀ i, sw.get i = s.sw.get i ∨ ∃ raw, sw.get i = feedFilter s.cfg (s.sw.get i) raw s.tLast) (i : Fin 2) :
    FilterOk s.cfg s.tLast (sw.get i) := by
  obtain he | ⟨raw, he⟩ := hsw i <;> rw [he]
  · exact h.filters i
  · exact feedFilter_ok raw h.swW_pos (h.filters i)

theorem feedSwitch_goesOn (i : Fin 2) (raw : Byte) (s : State) : GoesOn s (feedSwitch i raw s.tLast s) := by
  refine ⟨id, rfl, rfl, rfl, rfl, rfl, fun h => ?_⟩
  have hf := h.filters_fed (sw := s.sw.set i (feedFilter s.cfg (s.sw.get i) raw s.tLast)) fun j => by
    by_cases hj : j = i
    · subst hj
      exact .inr ⟨raw, Pair.get_set_same _ _ _⟩
    · exact .inl (Pair.get_set_other _ _ _ _ hj)
  exact { h with filter0 := hf 0, filter1 := hf 1 }

theorem laneFifo_length {s : State} (h : RunOk s) (k : Fin 8) (raw : Int) :
    (laneFifo s k raw).length ≤ s.cfg.n.get k :=
  pushFifo_length _ (h.fifos k)

theorem axisMap_goesOn (k : Fin 8) (raw : Int) (s : State) :
    GoesOn s { s with fifo := s.fifo.set k (laneFifo s k raw) } := by
  refine ⟨id, rfl, rfl, rfl, rfl, rfl, fun h => { h with fifos := fun j => ?_ }⟩
  by_cases hj : j = k
  · subst hj
    simpa using laneFifo_length h j raw
  · simpa [Lanes.get_set_other _ _ _ _ hj] using h.fifos j

/-! The loop (43 R215 to R225). -/

theorem stopRun_ends (cause : Code) (s : State) : Ends s (stopRun cause s) := by
  rw [stopRun_eq]
  exact ⟨rfl, rfl, rfl, rfl, rfl⟩

theorem edgeTaps_goesOn (st : Pair Bool) (s : State) : GoesOn s (edgeTaps st s) := by
  obtain ⟨evs, ans, h, -⟩ := edgeTaps_step st s
  rw [h]
  exact .of_quiet s _ _ _

theorem obsPublish_goesOn (s : State) : GoesOn s (obsPublish s.tLast s) := by
  obtain ⟨-, h⟩ | ⟨-, h⟩ := obsPublish_cases s.tLast s <;> rw [h]
  · exact .of_quiet s _ _ _
  · exact ⟨id, rfl, rfl, rfl, rfl, rfl, fun h => { h with obsTime := le_rfl }⟩

theorem neutralPush_runStep (s : State) : RunStep s (neutralPush s) := by
  obtain ⟨-, h⟩ | ⟨-, h⟩ := neutralPush_cases s <;> rw [h]
  · exact .inl (.of_quiet s _ _ _)
  · exact .inr ((GoesOn.of_quiet s _ _ _).ends (stopRun_ends _ _))

/-- A frame processed at the last time given is the run's last sign of life, or ends it (43 R215, R216). -/
theorem processFrame_runStep (f : Frame) (s : State) : RunStep s (processFrame f s.tLast s) := by
  obtain ⟨fifo, sw, st, hfifo, hsw, ⟨-, _, _, _, tObs, _, -, -, hobs, h⟩ | ⟨-, h⟩⟩ := processFrame_whole f s.tLast s <;>
    rw [h]
  · refine .inl ⟨fun _ => rfl, rfl, rfl, rfl, rfl, rfl, fun hs => ?_⟩
    have hf := hs.filters_fed fun i => .inr ⟨_, hsw i⟩
    have htObs : tObs ≤ s.tLast := by
      obtain ⟨-, ho⟩ | ⟨-, ho, -⟩ := hobs
      · exact ho.trans_le hs.obsTime
      · exact ho.le
    exact
      { hs with
        filter0 := hf 0
        filter1 := hf 1
        fifos := fun k => (hfifo k).symm ▸ laneFifo_length hs k _
        lastFrameTime := le_rfl
        obsTime := htObs
        idleMeansSilence := nofun }
  · exact .inr ⟨rfl, rfl, rfl, rfl, rfl⟩

/-- The idle branch at the last time given enters `TimeoutNeutral` only after the silence (43 R219). -/
theorem idleBranch_runStep (s : State) : RunStep s (idleBranch s.tLast s) := by
  obtain ⟨-, h⟩ | ⟨hidle, ls, ti, evs, hls, ⟨-, h⟩ | ⟨-, h⟩⟩ := idleBranch_cases s.tLast s <;> rw [h]
  · exact .inl (.of_quiet s _ _ _)
  · refine .inl ⟨fun hs => ?_, rfl, rfl, rfl, rfl, rfl, fun hs => { hs with idleDiagTime := ?_, idleMeansSilence := ?_ }⟩
    · obtain ⟨-, rfl, -⟩ | ⟨-, rfl, -⟩ := hls
      · rfl
      · exact hs
    · obtain ⟨-, -, hti, -⟩ | ⟨-, -, ⟨hti, -⟩ | ⟨hti, -⟩⟩ := hls
      · exact hti.le
      · exact hti.le
      · exact hti.trans_le hs.idleDiagTime
    · intro _
      dsimp only
      omega
  · exact .inr ⟨rfl, rfl, rfl, rfl, rfl⟩

theorem afterDecode_runStep (r : CallResult) (s : State) : RunStep s (afterDecode r s.tLast s) := by
  obtain ⟨f, -, h⟩ | ⟨-, h⟩ := afterDecode_cases r s.tLast s <;> rw [h]
  · exact processFrame_runStep f s
  · exact idleBranch_runStep s

end Sys2Proof.Machine
end

section
/-! SUPPORT. Every instruction but LOOP_START is such an operation of a run. -/

namespace Sys2Proof.Machine

/-- Returning a value is no part of what a run holds. -/
theorem RunStep.ret {s t : State} (h : RunStep s t) (r : Result) : RunStep s (t.ret r) :=
  h.imp (·.trans (.of_quiet t _ _ _)) fun k => { k with }

/-- An operation that runs to a state and returns a value. -/
theorem runStep_of_whenInRun {s t u : State} {r : Result} (h : whenInRun s (.next (u.ret r)) = .next t)
    (hu : RunStep s u) : RunStep s t := by
  obtain ⟨-, hn⟩ := whenInRun_next h
  cases hn
  exact hu.ret r

/-- The same for an operation that is given a time. -/
theorem runStep_of_atTime {s t : State} {τ : Nat} {u : State → State} {r : State → Result}
    (h : whenInRun s (atTime s τ fun s => .next ((u s).ret (r s))) = .next t)
    (hu : RunStep { s with tLast := τ } (u { s with tLast := τ })) : RunStep s t := by
  obtain ⟨-, hn⟩ := whenInRun_next h
  obtain ⟨hle, hk⟩ := atTime_next hn
  cases hk
  exact ((GoesOn.atTime hle).runStep hu).ret _

/-- A wire row, whatever its bytes. -/
theorem runStep_of_receiveUnit {s t : State} {bytes : List Byte}
    (h : whenInRun s (.next (receiveUnit bytes s)) = .next t) : RunStep s t := by
  obtain ⟨-, hn⟩ := whenInRun_next h
  cases hn
  exact .inl (receiveUnit_goesOn bytes s)

/-- An operation that writes no register. -/
theorem runStep_of_quiet {s t : State} {o : List Event} {e : Env} {r : Result}
    (h : whenInRun s (.next { s with out := o, env := e, result := r }) = .next t) : RunStep s t := by
  obtain ⟨-, hn⟩ := whenInRun_next h
  cases hn
  exact .inl (.of_quiet s o e r)

theorem execMedian_runStep {s t : State} {w : List Byte} (h : execMedian w s = .next t) : RunStep s t := by
  obtain ⟨-, hn⟩ := whenInRun_next h
  split at hn
  · cases hn
  · cases hn
    exact .inl (.of_quiet s _ _ _)

theorem execRxRead_runStep {s t : State} (h : execRxRead s = .next t) : RunStep s t := by
  refine runStep_of_whenInRun h ?_
  cases hq : s.env.rxq with
  | nil => rw [callRxRead_nil hq]; exact .inl (.of_quiet s _ _ _)
  | cons b q => rw [callRxRead_cons hq]; exact .inl (.of_quiet s _ _ _)

/-- An iteration ends the run when it sees the cancellation level; else it decodes, notes the time and branches (43 R212). -/
theorem exec_loopIter_runStep {s t : State} (h : exec .loopIter s = .next t) : RunStep s t := by
  obtain ⟨-, ⟨-, rfl⟩ | ⟨-, hle, d, c, evs, q, r, -, hdec, -, -, -, rfl⟩⟩ := exec_loopIter_cases h
  · exact RunStep.ret (.inr (stopRun_ends .none s)) _
  · have hd := hdec ▸ callDecode_goesOn s
    exact ((hd.trans (.atTime hle)).runStep (afterDecode_runStep r _)).ret _

theorem exec_runStep {i : Instr} {s t : State} (hi : i ≠ .loopStart) (h : exec i s = .next t) : RunStep s t := by
  cases i with
  | frameB pot status rsv0 rsv1 => exact runStep_of_receiveUnit h
  | frameBOtherLen payload => exact runStep_of_receiveUnit h
  | frameBBadCrc payload trailer => exact runStep_of_receiveUnit h
  | frameBBadLenRange l => exact runStep_of_receiveUnit h
  | frameA pots s1 s2 cr => exact runStep_of_receiveUnit h
  | lineADropped line => exact runStep_of_receiveUnit h
  | crc8Update c b => exact runStep_of_quiet h
  | crc8 p => exact runStep_of_quiet h
  | decByteB b => exact runStep_of_whenInRun h (.inl (decByteB_goesOn b s))
  | decByteA b => exact runStep_of_whenInRun h (.inl (decByteA_goesOn b s))
  | parseLine line => exact runStep_of_whenInRun h (.inl (accountDrop_goesOn _ s))
  | parseInt field => exact runStep_of_quiet h
  | decodeCall => exact runStep_of_whenInRun h (.inl (callDecode_goesOn s))
  | median w => exact execMedian_runStep h
  | swFeed sw raw t => exact runStep_of_atTime h (.inl (feedSwitch_goesOn sw raw { s with tLast := t }))
  | axisMap k raw => exact runStep_of_whenInRun h (.inl (axisMap_goesOn k raw s))
  | loopStart => exact absurd rfl hi
  | loopIter => exact exec_loopIter_runStep h
  | processFrame f t => exact runStep_of_atTime h (processFrame_runStep f { s with tLast := t })
  | edgeTaps st => exact runStep_of_whenInRun h (.inl (edgeTaps_goesOn st s))
  | neutralPush => exact runStep_of_whenInRun h (neutralPush_runStep s)
  | obsPublish t => exact runStep_of_atTime h (.inl (obsPublish_goesOn { s with tLast := t }))
  | loopStop cause => exact runStep_of_whenInRun h (.inr (stopRun_ends cause s))
  | rxRead => exact execRxRead_runStep h
  | transportOpen port baud timeout => exact runStep_of_quiet h
  | transportClose => exact runStep_of_quiet h
  | sinkAcquire dev => exact runStep_of_quiet h
  | sinkRelease => exact runStep_of_quiet h
  | sinkUpdate axis btn => exact runStep_of_quiet h
  | keyTap name => exact runStep_of_quiet h
  | obsEvent pot swRaw swStable cal => exact runStep_of_quiet h
  | diag code => exact runStep_of_quiet h
  | report code => exact runStep_of_quiet h
  | now => exact runStep_of_atTime h (.inl (.of_quiet _ _ _ _))
  | cancelLevel => exact runStep_of_quiet h

end Sys2Proof.Machine
end

section
/-! PROOFS. O47, O49, O42: the state after reset, and what is refused outside a run. -/

namespace Sys2Proof.Machine

/-- Settles O47: these are the four values the model's reset takes from 10_state R50. -/
theorem resetStateIsIdleAndHoldsNothing : Obligations.ResetStateIsIdleAndHoldsNothing :=
  ⟨rfl, rfl, rfl, rfl⟩

/-- Outside a run the invariant asks only where the block rests and that it holds nothing. -/
theorem Inv.of_canStart {s : State} (hs : s.canStart = true) (hsink : s.sinkHeld = false)
    (htransport : s.transportHeld = false) : Inv s := by
  have hr := inRun_eq_false_of_canStart hs
  refine ⟨?_, ⟨hsink.trans hr.symm, htransport.trans hr.symm⟩, fun h => ?_⟩
  · obtain h | h := (State.canStart_iff s).mp hs <;> simp [RestsBetweenSteps, h]
  · rw [hr] at h
    cases h

/-- Settles O49: after reset no run is in progress and nothing is held. -/
theorem resetStateMeetsTheInvariant : Obligations.ResetStateMeetsTheInvariant :=
  Inv.of_canStart rfl rfl rfl

/-- Settles O42: every instruction but LOOP_START asks first whether a run is in progress. -/
theorem runOperationsAreRefusedOutsideARun : Obligations.RunOperationsAreRefusedOutsideARun := by
  intro s i hrunning htimeout hi
  refine exec_eq_refused_of_inRun_eq_false hi ?_
  rw [Bool.eq_false_iff, ne_eq, State.inRun_iff]
  exact not_or.mpr ⟨hrunning, htimeout⟩

end Sys2Proof.Machine
end

section
/-! PROOFS. O50: the invariant. LOOP_START establishes it for a run; every other operation keeps it or ends the run. -/

namespace Sys2Proof.Machine
open Stated

/-- A run starts with empty buffers and with every time the one just sampled (10_state R51). -/
theorem startRun_runOk {s : State} (hc : WellFormed s.params s.cfg) (hf : s.cfg.wireFormat = some s.fmt)
    (he : s.errCode = .none) (t0 : Nat) : RunOk (startRun t0 s) where
  configWellFormed := (wellFormedConfig_iff _ _).mpr hc
  formatLatched := hf
  noError := he
  decoderB := ⟨nofun, nofun⟩
  decoderA := ⟨Nat.zero_le _, le_rfl, nofun, List.not_mem_nil⟩
  diagCapped := Nat.zero_le _
  filter0 := ⟨Nat.zero_le _, le_rfl, le_rfl⟩
  filter1 := ⟨Nat.zero_le _, le_rfl, le_rfl⟩
  fifos k := by simp [startRun]
  lastFrameTime := le_rfl
  obsTime := le_rfl
  idleDiagTime := le_rfl
  idleMeansSilence := nofun

/-- The host has selected a format, so the one latched is the selected one (70 R312). -/
theorem acceptStart_fmt {s : State} (hc : WellFormed s.params s.env.hostCfg) :
    s.env.hostCfg.wireFormat = some (acceptStart s).fmt := by
  obtain ⟨fm, hfm⟩ := Option.ne_none_iff_exists'.mp hc.1
  rw [(acceptStart_latches s).2, hfm, Option.getD_some]

/-- A start that fails holds nothing; one that succeeds holds both resources (43 R210, 60 R272). -/
theorem acceptStart_inv {s : State} (hsink : s.sinkHeld = false) (htransport : s.transportHeld = false)
    (hc : WellFormed s.params s.env.hostCfg) : Inv (acceptStart s) := by
  have hfmt := acceptStart_fmt hc
  obtain ⟨-, h⟩ | ⟨-, -, h⟩ | ⟨-, -, h⟩ := acceptStart_cases s <;> rw [h] at hfmt ⊢
  · exact .of_canStart rfl hsink htransport
  · exact .of_canStart rfl rfl htransport
  · exact ⟨⟨nofun, nofun⟩, ⟨rfl, rfl⟩, fun _ => startRun_runOk hc hfmt rfl _⟩

theorem exec_loopStart_inv {s t : State} (hs : Inv s) (h : exec .loopStart s = .next t) : Inv t := by
  obtain ⟨hstart, hc, rfl⟩ := exec_loopStart_next h
  have hr := inRun_eq_false_of_canStart hstart
  obtain ⟨hsink, htransport⟩ := hs.holds
  have hi := acceptStart_inv (hsink.trans hr) (htransport.trans hr) hc
  exact ⟨hi.rests, hi.holds, fun hrun => { hi.run hrun with }⟩

theorem RunStep.inv {s t : State} (h : RunStep s t) (hs : Inv s) (hr : s.inRun = true) : Inv t := by
  obtain k | k := h
  · have ht := k.inRun hr
    refine ⟨?_, ⟨?_, ?_⟩, fun _ => k.runOk (hs.run hr)⟩
    · obtain h | h := (State.inRun_iff t).mp ht <;> simp [RestsBetweenSteps, h]
    · rw [k.sinkHeld, hs.holds.1, hr, ht]
    · rw [k.transportHeld, hs.holds.2, hr, ht]
  · exact .of_canStart ((State.canStart_iff t).mpr (.inr k.stopped)) k.sinkReleased k.transportReleased

/-- The invariant says nothing of the environment. -/
theorem Inv.withEnv {s : State} (h : Inv s) (e : Env) : Inv { s with env := e } :=
  ⟨h.rests, h.holds, fun hr => { h.run hr with }⟩

/-- Settles O50, by what a step can do. -/
theorem stepsKeepTheInvariant : Obligations.StepsKeepTheInvariant := by
  intro s t hs h
  obtain ⟨e, rfl⟩ | ⟨rest, -, he⟩ | ⟨i, e, hi, he⟩ := step_cases_loopStart h
  · exact hs.withEnv e
  · exact exec_loopStart_inv (hs.withEnv _) he
  · exact (exec_runStep hi he).inv (hs.withEnv e) (inRun_of_exec_next hi he)

end Sys2Proof.Machine
end

section
/-! PROOFS. O52, O58: the configuration between starts, and how a run ends. -/

namespace Sys2Proof.Machine

theorem RunStep.cfg_fmt {s t : State} (h : RunStep s t) : t.cfg = s.cfg ∧ t.fmt = s.fmt := by
  obtain k | k := h <;> exact ⟨k.cfg, k.fmt⟩

/-- Settles O52: no operation of a run writes the configuration, and an accepted start copies the host's. -/
theorem configurationIsWrittenByLoopStartAlone : Obligations.ConfigurationIsWrittenByLoopStartAlone := by
  intro s t h
  obtain ⟨e, rfl⟩ | ⟨rest, hin, he⟩ | ⟨i, e, hi, he⟩ := step_cases_loopStart h
  · exact .inl ⟨rfl, rfl⟩
  · obtain ⟨hstart, hc, rfl⟩ := exec_loopStart_next he
    exact .inr ⟨rest, hin, inRun_eq_false_of_canStart hstart, (acceptStart_latches (s.withInputs rest)).1,
      acceptStart_fmt hc⟩
  · exact .inl (exec_runStep hi he).cfg_fmt

/-- Settles O58: LOOP_START is refused in a run, and every other operation lets it go on or ends it. -/
theorem runsEndReleased : Obligations.RunsEndReleased := by
  intro s t hr h
  obtain ⟨e, rfl⟩ | ⟨rest, -, he⟩ | ⟨i, e, hi, he⟩ := step_cases_loopStart h
  · exact .inl ⟨hr, rfl, rfl, rfl⟩
  · obtain ⟨hstart, -⟩ := exec_loopStart_next he
    have hno : s.inRun = false := inRun_eq_false_of_canStart hstart
    rw [hno] at hr
    cases hr
  · obtain k | k := exec_runStep hi he
    · exact .inl ⟨k.inRun hr, k.errCode, k.sinkHeld, k.transportHeld⟩
    · exact .inr ⟨k.stopped, k.sinkReleased, k.transportReleased⟩

end Sys2Proof.Machine
end

section
/-! PROOFS. O30: the registers at run start. -/

namespace Sys2Proof.Machine

/-- Settles O30: both resources answer `ok`, so the accepted start is the third case of `acceptStart_cases`. -/
theorem runStartSetsEveryRegister : Obligations.RunStartSetsEveryRegister := by
  intro s fm hs hc hfm hacquire hopen
  refine ⟨Config.freeFrame s.freeCtr, [], [], s.freeCtr + 1, ?_⟩
  rw [exec_loopStart_of_wellFormed ((State.canStart_iff s).mpr hs) hc]
  obtain ⟨hno, -⟩ | ⟨-, hno, -⟩ | ⟨-, -, h⟩ := acceptStart_cases s
  · cases hno.symm.trans hacquire
  · cases hno.symm.trans hopen
  · rw [h, hfm, List.append_assoc]
    rfl

end Sys2Proof.Machine
end

section
/-! SUPPORT. A decode call reads its bytes and the decoder registers, not the rest of the queue nor the last result (40
R146). -/

namespace Sys2Proof.Machine
open Stated

theorem accountDrop_withRxq_ret (r : DecResult) (s : State) (q : List Byte) (v : Result) :
    accountDrop r ((s.withRxq q).ret v) = ((accountDrop r s).withRxq q).ret v := by
  cases r with
  | nothing => rfl
  | frame f => rfl
  | dropped code =>
    rw [accountDrop_dropped, accountDrop_dropped, dropCode_eq, dropCode_eq]
    rfl

theorem decByte_withRxq_ret (b : Byte) (s : State) (q : List Byte) (v : Result) :
    decByte b ((s.withRxq q).ret v) = ((decByte b s).1, ((decByte b s).2.withRxq q).ret v) := by
  unfold decByte
  rw [State.ret_fmt, State.withRxq_fmt]
  cases s.fmt with
  | A => exact congrArg (Prod.mk _) (accountDrop_withRxq_ret _ (s.withDec _) q v)
  | B => exact congrArg (Prod.mk _) (accountDrop_withRxq_ret _ (s.withDec _) q v)

theorem decodeLoop_withRxq_ret (l : List Byte) (s : State) (q : List Byte) (v : Result) :
    decodeLoop l ((s.withRxq q).ret v) = ((decodeLoop l s).1, (decodeLoop l s).2.ret v) := by
  induction l generalizing s with
  | nil => rfl
  | cons b l ih =>
    rw [decodeLoop_cons, decodeLoop_cons, decByte_withRxq_ret]
    cases (decByte b s).1 with
    | nothing => exact ih _
    | frame f => rfl
    | dropped code => rfl

theorem State.ret_eq_self {s : State} {v : Result} (h : s.result = v) : s.ret v = s := by
  subst h
  rfl

theorem decodeLoop_result (l : List Byte) (s : State) : (decodeLoop l s).2.result = s.result := by
  obtain ⟨_, _, _, _, h, -⟩ := decodeLoop_step l s
  rw [h]

theorem decodeLoop_withRxq (l : List Byte) (s : State) (q : List Byte) : decodeLoop l (s.withRxq q) = decodeLoop l s :=
  (decodeLoop_withRxq_ret l s q s.result).trans (Prod.ext rfl (State.ret_eq_self (decodeLoop_result l s)))

theorem decodeLoop_ret (l : List Byte) (s : State) (v : Result) :
    decodeLoop l (s.ret v) = ((decodeLoop l s).1, (decodeLoop l s).2.ret v) :=
  decodeLoop_withRxq_ret l s s.env.rxq v

/-- DECODE_CALL on a given queue is the decode loop over it. -/
theorem exec_decodeCall_withQueue {s : State} (hs : s.inRun = true) (q : List Byte) :
    exec .decodeCall (withQueue q s) = .next ((decodeLoop q s).2.ret (.call (decodeLoop q s).1)) := by
  rw [← decodeLoop_withRxq q s q]
  exact whenInRun_inRun _ hs

/-- A call that finds nothing empties the queue and writes only the decoder registers. -/
theorem decodeLoop_empty {l : List Byte} {s : State} (h : (decodeLoop l s).1 = .empty) :
    (decodeLoop l s).2 = (s.withDec (decodeLoop l s).2.dec).withRxq [] := by
  induction l generalizing s with
  | nil => rfl
  | cons b l ih =>
    have hb := decByte_cases b s
    rw [decodeLoop_cons] at h ⊢
    cases hr : (decByte b s).1 with
    | nothing =>
      rw [hr] at h hb
      obtain ⟨d, hd⟩ := hb
      dsimp only at h ⊢
      rw [hd] at h ⊢
      exact ih h
    | frame f =>
      rw [hr] at h
      cases h
    | dropped code =>
      rw [hr] at h
      cases h

/-- Bytes behind a call's queue: the call goes on over them if it found nothing so far, else they stay behind what it left. -/
theorem decodeLoop_append (l m : List Byte) (s : State) :
    decodeLoop (l ++ m) s =
      if (decodeLoop l s).1 = .empty then decodeLoop m (decodeLoop l s).2
      else ((decodeLoop l s).1, (decodeLoop l s).2.withRxq ((decodeLoop l s).2.env.rxq ++ m)) := by
  induction l generalizing s with
  | nil => exact (decodeLoop_withRxq m s []).symm
  | cons b l ih =>
    rw [List.cons_append, decodeLoop_cons, decodeLoop_cons]
    cases (decByte b s).1 with
    | nothing => exact ih _
    | frame f => rfl
    | dropped code => rfl

end Sys2Proof.Machine
end

section
/-! PROOFS. O15: decoding in several calls. -/

namespace Sys2Proof.Machine
open Stated

/-- Settles O15: the decode loop over two queues, one behind the other, is `decodeLoop_append`. -/
theorem decodingGoesOnWhereItStopped : Obligations.DecodingGoesOnWhereItStopped := by
  intro s t q1 q2 hs h
  rw [exec_decodeCall_withQueue hs] at h
  cases h
  rw [exec_decodeCall_withQueue hs, decodeLoop_append]
  have hresult : ((decodeLoop q1 s).2.ret (.call (decodeLoop q1 s).1)).result = .call .empty ↔
      (decodeLoop q1 s).1 = .empty := by simp
  rw [ne_eq, hresult]
  refine ⟨fun he => ⟨?_, ?_⟩, fun he => ?_⟩
  · rw [he]
    exact congrArg (State.ret · (.call .empty)) (decodeLoop_empty he)
  · have hrun : ((decodeLoop q1 s).2.ret (.call (decodeLoop q1 s).1)).inRun = true :=
      (decodeLoop_goesOn q1 s).inRun hs
    rw [if_pos he, exec_decodeCall_withQueue hrun, decodeLoop_ret, State.ret_ret]
  · rw [if_neg he]
    rfl

end Sys2Proof.Machine
end

section
/-! SUPPORT. What no instruction but LOOP_START reads: the events sent so far (20_memory R62, log entry 4) and the host's own
configuration (20_memory R79). Each operation commutes with replacing them. -/

namespace Sys2Proof.Machine
open Stated

/-- The same block with the events `past` sent before all others, beside a host whose own configuration is `c`. -/
def withUnread (past : List Event) (c : Settings) (s : State) : State :=
  { s with out := past ++ s.out, env := { s.env with hostCfg := c } }

theorem mapNext_eq_next {g : State → State} {r : StepOutcome} {t : State} (h : mapNext g r = .next t) :
    ∃ u, r = .next u ∧ t = g u := by
  cases r with
  | next u =>
    cases h
    exact ⟨u, rfl, rfl⟩
  | fault e => cases h
  | refused e => cases h

section
variable (past : List Event) (c : Settings)

/-- Prepending no event replaces the host's configuration alone. -/
theorem withUnread_nil : withUnread [] c = withHostConfig c := rfl

/-- Every state is one without events of its own, its events prepended. -/
theorem withUnread_self (s : State) : withUnread s.out s.env.hostCfg { s with out := [] } = s := by
  simp [withUnread]

/-! The operations of Machine/Ops.lean. -/

theorem emit_withUnread (e : Event) (s : State) :
    (withUnread past c s).emit e = withUnread past c (s.emit e) := by
  simp [withUnread, State.emit]

/-- Replacing what is unread puts the block neither in a run nor out of it. -/
theorem whenInRun_withUnread (s : State) (r : StepOutcome) :
    whenInRun (withUnread past c s) (mapNext (withUnread past c) r) = mapNext (withUnread past c) (whenInRun s r) :=
  (apply_ite (mapNext (withUnread past c)) (s.inRun = true) r (.refused .notInRun)).symm

/-- An operation given a time commutes when what it does after noting the time commutes. -/
theorem atTime_withUnread {s : State} {τ : Nat} {k k' : State → StepOutcome}
    (hk : ∀ u, k' (withUnread past c u) = mapNext (withUnread past c) (k u)) :
    atTime (withUnread past c s) τ k' = mapNext (withUnread past c) (atTime s τ k) := by
  unfold atTime
  rw [apply_ite (mapNext _), ← hk]
  rfl

/-- A call commutes when it commutes in the state it leaves and answers the same. -/
def Commutes {α : Type} (f : State → α × State) : Prop :=
  ∀ s, f (withUnread past c s) = ((f s).1, withUnread past c (f s).2)

theorem callSinkUpdate_commutes (axis : Lanes Nat) (btn : Pair Bool) :
    Commutes past c (callSinkUpdate axis btn) := by
  intro s
  simp [callSinkUpdate_eq, withUnread]

theorem callKeyTap_commutes (name : KeyName) : Commutes past c (callKeyTap name) := by
  intro s
  simp [callKeyTap_eq, withUnread]

theorem callSinkAcquire_commutes (dev : Nat) : Commutes past c (callSinkAcquire dev) := by
  intro s
  simp [callSinkAcquire_eq, withUnread]

theorem callTransportOpen_commutes (port baud timeout : Nat) : Commutes past c (callTransportOpen port baud timeout) := by
  intro s
  simp [callTransportOpen_eq, withUnread]

theorem callRxRead_commutes : Commutes past c callRxRead := by
  intro s
  cases hq : s.env.rxq with
  | nil => rw [callRxRead_nil hq, callRxRead_nil (s := withUnread past c s) hq]
  | cons b q =>
    rw [callRxRead_cons hq, callRxRead_cons (s := withUnread past c s) hq]
    rfl

theorem dropCode_withUnread (code : Code) (s : State) :
    dropCode code (withUnread past c s) = withUnread past c (dropCode code s) := by
  unfold dropCode
  rw [apply_ite (withUnread past c), ← emit_withUnread]
  rfl

theorem stopRun_withUnread (cause : Code) (s : State) :
    stopRun cause (withUnread past c s) = withUnread past c (stopRun cause s) := by
  simp [stopRun_eq, withUnread]

/-! The decoder (40 R133 to R146). -/

theorem accountDrop_withUnread (r : DecResult) (s : State) :
    accountDrop r (withUnread past c s) = withUnread past c (accountDrop r s) := by
  cases r with
  | nothing => rfl
  | frame f => rfl
  | dropped code => exact dropCode_withUnread past c code s

theorem decByteB_commutes (b : Byte) : Commutes past c (decByteB b) := fun s =>
  congrArg (Prod.mk _) (accountDrop_withUnread past c _ (s.withDec _))

theorem decByteA_commutes (b : Byte) : Commutes past c (decByteA b) := fun s =>
  congrArg (Prod.mk _) (accountDrop_withUnread past c _ (s.withDec _))

theorem decByte_commutes (b : Byte) : Commutes past c (decByte b) := by
  intro s
  unfold decByte
  have hfmt : (withUnread past c s).fmt = s.fmt := rfl
  rw [hfmt]
  cases s.fmt with
  | A => exact decByteA_commutes past c b s
  | B => exact decByteB_commutes past c b s

theorem decodeLoop_commutes (l : List Byte) : Commutes past c (decodeLoop l) := by
  induction l with
  | nil => exact fun s => rfl
  | cons b l ih =>
    intro s
    rw [decodeLoop_cons, decodeLoop_cons, decByte_commutes past c b s]
    cases (decByte b s).1 with
    | nothing => exact ih _
    | frame f => rfl
    | dropped code => rfl

theorem callDecode_commutes : Commutes past c callDecode := fun s => decodeLoop_commutes past c s.env.rxq s

theorem receiveUnit_commutes (bytes : List Byte) :
    Commutes past c fun s => callDecode (s.withRxq (bytes ++ s.env.rxq)) := fun s =>
  callDecode_commutes past c (s.withRxq (bytes ++ s.env.rxq))

/-! The loop (43 R215 to R225). -/

theorem edgeTap_withUnread (i : Fin 2) (on : Bool) (s : State) :
    edgeTap i on (withUnread past c s) = withUnread past c (edgeTap i on s) := by
  unfold edgeTap
  rw [apply_ite (withUnread past c), callKeyTap_commutes past c _ s]
  dsimp only
  rw [apply_ite (withUnread past c), ← emit_withUnread]
  rfl

theorem edgeTaps_withUnread (st : Pair Bool) (s : State) :
    edgeTaps st (withUnread past c s) = withUnread past c (edgeTaps st s) := by
  unfold edgeTaps
  rw [edgeTap_withUnread, edgeTap_withUnread]

theorem obsPublish_withUnread (now : Nat) (s : State) :
    obsPublish now (withUnread past c s) = withUnread past c (obsPublish now s) := by
  unfold obsPublish
  rw [apply_ite (withUnread past c), emit_withUnread]
  rfl

theorem neutralPush_withUnread (s : State) :
    neutralPush (withUnread past c s) = withUnread past c (neutralPush s) := by
  unfold neutralPush callNeutral
  rw [callSinkUpdate_commutes past c _ _ s]
  dsimp only
  rw [apply_ite (withUnread past c), fatal_eq_stopRun, fatal_eq_stopRun, stopRun_withUnread]

theorem idleDiag_withUnread (now : Nat) (s : State) :
    idleDiag now (withUnread past c s) = withUnread past c (idleDiag now s) := by
  unfold idleDiag
  rw [apply_ite (withUnread past c), apply_ite (withUnread past c), ← emit_withUnread, ← emit_withUnread]
  rfl

theorem idleBranch_withUnread (now : Nat) (s : State) :
    idleBranch now (withUnread past c s) = withUnread past c (idleBranch now s) := by
  unfold idleBranch
  rw [apply_ite (withUnread past c), ← neutralPush_withUnread, ← idleDiag_withUnread]
  rfl

theorem processFrame_withUnread (f : Frame) (now : Nat) (s : State) :
    processFrame f now (withUnread past c s) = withUnread past c (processFrame f now s) := by
  have hc : conditioned f now (withUnread past c s) = withUnread past c (conditioned f now s) := rfl
  unfold processFrame
  dsimp only
  rw [hc, callSinkUpdate_commutes past c _ _ _]
  dsimp only
  rw [apply_ite (withUnread past c), fatal_eq_stopRun, fatal_eq_stopRun, stopRun_withUnread, edgeTaps_withUnread,
    ← obsPublish_withUnread]
  rfl

theorem afterDecode_withUnread (r : CallResult) (now : Nat) (s : State) :
    afterDecode r now (withUnread past c s) = withUnread past c (afterDecode r now s) := by
  cases r with
  | frame f => exact processFrame_withUnread past c f now s
  | empty => exact idleBranch_withUnread past c now s
  | dropped code => exact idleBranch_withUnread past c now s

/-! The instructions. -/

/-- Returning a value commutes. -/
theorem next_ret_withUnread {u u' : State} (h : u' = withUnread past c u) (r : Result) :
    .next (u'.ret r) = mapNext (withUnread past c) (.next (u.ret r)) := by
  subst h
  rfl

/-- An operation that runs to a state and returns a value. -/
theorem whenInRun_ret_withUnread {s u u' : State} (h : u' = withUnread past c u) (r : Result) :
    whenInRun (withUnread past c s) (.next (u'.ret r)) =
      mapNext (withUnread past c) (whenInRun s (.next (u.ret r))) := by
  rw [next_ret_withUnread past c h, whenInRun_withUnread]

/-- An operation that makes a call and returns its answer. -/
theorem whenInRun_call_withUnread {α : Type} {f : State → α × State} (hf : Commutes past c f) (r : α → Result)
    (s : State) :
    whenInRun (withUnread past c s) (.next ((f (withUnread past c s)).2.ret (r (f (withUnread past c s)).1))) =
      mapNext (withUnread past c) (whenInRun s (.next ((f s).2.ret (r (f s).1)))) := by
  rw [hf s]
  exact whenInRun_ret_withUnread past c rfl _

/-- An operation of a run that is given a time. -/
theorem whenInRun_atTime_withUnread {s : State} {τ : Nat} {k k' : State → StepOutcome}
    (hk : ∀ u, k' (withUnread past c u) = mapNext (withUnread past c) (k u)) :
    whenInRun (withUnread past c s) (atTime (withUnread past c s) τ k') =
      mapNext (withUnread past c) (whenInRun s (atTime s τ k)) := by
  rw [atTime_withUnread past c hk, whenInRun_withUnread]

theorem execMedian_withUnread (w : List Byte) (s : State) :
    execMedian w (withUnread past c s) = mapNext (withUnread past c) (execMedian w s) := by
  unfold execMedian
  rw [← whenInRun_withUnread]
  cases w <;> rfl

theorem execLoopIter_withUnread (s : State) :
    execLoopIter (withUnread past c s) = mapNext (withUnread past c) (execLoopIter s) := by
  unfold execLoopIter
  rw [← whenInRun_withUnread, apply_ite (mapNext (withUnread past c)), stopRun_withUnread, callDecode_commutes past c s]
  refine congrArg _ (congrArg _ (atTime_withUnread past c fun u => ?_))
  rw [afterDecode_withUnread]
  rfl

/-- No instruction but LOOP_START reads the events sent so far or the host's configuration. -/
theorem exec_withUnread {i : Instr} (hi : i ≠ .loopStart) (s : State) :
    exec i (withUnread past c s) = mapNext (withUnread past c) (exec i s) := by
  cases i with
  | frameB pot status rsv0 rsv1 => exact whenInRun_call_withUnread past c (receiveUnit_commutes past c _) .call s
  | frameBOtherLen payload => exact whenInRun_call_withUnread past c (receiveUnit_commutes past c _) .call s
  | frameBBadCrc payload trailer => exact whenInRun_call_withUnread past c (receiveUnit_commutes past c _) .call s
  | frameBBadLenRange l => exact whenInRun_call_withUnread past c (receiveUnit_commutes past c _) .call s
  | frameA pots s1 s2 cr => exact whenInRun_call_withUnread past c (receiveUnit_commutes past c _) .call s
  | lineADropped line => exact whenInRun_call_withUnread past c (receiveUnit_commutes past c _) .call s
  | crc8Update x b => exact whenInRun_ret_withUnread past c rfl _
  | crc8 p => exact whenInRun_ret_withUnread past c rfl _
  | decByteB b => exact whenInRun_call_withUnread past c (decByteB_commutes past c b) .decoded s
  | decByteA b => exact whenInRun_call_withUnread past c (decByteA_commutes past c b) .decoded s
  | parseLine line => exact whenInRun_ret_withUnread past c (accountDrop_withUnread past c _ s) _
  | parseInt field => exact whenInRun_ret_withUnread past c rfl _
  | decodeCall => exact whenInRun_call_withUnread past c (callDecode_commutes past c) .call s
  | median w => exact execMedian_withUnread past c w s
  | swFeed sw raw t => exact whenInRun_atTime_withUnread past c fun u => rfl
  | axisMap k raw =>
    exact whenInRun_ret_withUnread past c (u := { s with fifo := s.fifo.set k (laneFifo s k raw) }) rfl _
  | loopStart => exact absurd rfl hi
  | loopIter => exact execLoopIter_withUnread past c s
  | processFrame f t =>
    exact whenInRun_atTime_withUnread past c fun u =>
      next_ret_withUnread past c (processFrame_withUnread past c f t u) _
  | edgeTaps st => exact whenInRun_ret_withUnread past c (edgeTaps_withUnread past c st s) _
  | neutralPush => exact whenInRun_ret_withUnread past c (neutralPush_withUnread past c s) _
  | obsPublish t =>
    exact whenInRun_atTime_withUnread past c fun u => next_ret_withUnread past c (obsPublish_withUnread past c t u) _
  | loopStop cause => exact whenInRun_ret_withUnread past c (stopRun_withUnread past c cause s) _
  | rxRead => exact whenInRun_call_withUnread past c (callRxRead_commutes past c) .rx s
  | transportOpen port baud timeout =>
    exact whenInRun_call_withUnread past c (callTransportOpen_commutes past c port baud timeout) .answer s
  | transportClose => exact whenInRun_ret_withUnread past c (emit_withUnread past c _ s) _
  | sinkAcquire dev => exact whenInRun_call_withUnread past c (callSinkAcquire_commutes past c dev) .answer s
  | sinkRelease => exact whenInRun_ret_withUnread past c (emit_withUnread past c _ s) _
  | sinkUpdate axis btn => exact whenInRun_call_withUnread past c (callSinkUpdate_commutes past c axis btn) .answer s
  | keyTap name => exact whenInRun_call_withUnread past c (callKeyTap_commutes past c name) .answer s
  | obsEvent pot swRaw swStable cal => exact whenInRun_ret_withUnread past c (emit_withUnread past c _ s) _
  | diag code => exact whenInRun_ret_withUnread past c (emit_withUnread past c _ s) _
  | report code => exact whenInRun_ret_withUnread past c (emit_withUnread past c _ s) _
  | now => exact whenInRun_atTime_withUnread past c fun u => rfl
  | cancelLevel => exact whenInRun_ret_withUnread past c rfl _

end
end Sys2Proof.Machine
end

section
/-! PROOFS. O53, O54: the host's configuration is not seen, and the events sent are kept. -/

namespace Sys2Proof.Machine
open Stated

/-- Settles O53: the host's configuration is a part of what these instructions do not read. -/
theorem hostConfigurationIsSeenAtLoopStartAlone : Obligations.HostConfigurationIsSeenAtLoopStartAlone := by
  intro i s c hi
  rw [← withUnread_nil]
  exact exec_withUnread [] c hi s

/-- An instruction that does not read the events sent so far does what it does when none was sent, behind them. -/
theorem exec_out_prefix {i : Instr} {s t : State} (hi : i ≠ .loopStart) (h : exec i s = .next t) : s.out <+: t.out := by
  rw [← withUnread_self s, exec_withUnread s.out s.env.hostCfg hi] at h
  obtain ⟨u, -, rfl⟩ := mapNext_eq_next h
  exact List.prefix_append s.out u.out

theorem acceptStart_out_prefix (s : State) : s.out <+: (acceptStart s).out := by
  obtain ⟨-, h⟩ | ⟨-, -, h⟩ | ⟨-, -, h⟩ := acceptStart_cases s <;> rw [h] <;> simp [failStart, startRun]

/-- Settles O54: an accepted LOOP_START appends its events, and no other instruction reads those sent so far. -/
theorem outputEventsAreOnlyAppended : Obligations.OutputEventsAreOnlyAppended := by
  intro s t h
  obtain ⟨e, rfl⟩ | ⟨rest, -, he⟩ | ⟨i, e, hi, he⟩ := step_cases_loopStart h
  · exact List.prefix_rfl
  · obtain ⟨-, -, rfl⟩ := exec_loopStart_next he
    exact acceptStart_out_prefix (s.withInputs rest)
  · exact exec_out_prefix (s := { s with env := e }) hi he

end Sys2Proof.Machine
end

section
/-! PROOFS. O55: what an iteration takes off the receive queue. -/

namespace Sys2Proof.Machine

theorem stopRun_rxq (cause : Code) (s : State) : (stopRun cause s).env.rxq = s.env.rxq := by
  rw [stopRun_eq]

/-- After the decode call an iteration reads no byte (43 R212). -/
theorem afterDecode_rxq (r : CallResult) (now : Nat) (s : State) : (afterDecode r now s).env.rxq = s.env.rxq := by
  obtain ⟨f, -, h⟩ | ⟨-, h⟩ := afterDecode_cases r now s <;> rw [h]
  · obtain ⟨_, _, _, -, -, ⟨-, _, _, _, _, _, -, -, -, hf⟩ | ⟨-, hf⟩⟩ := processFrame_whole f now s <;> rw [hf]
  · obtain ⟨-, hb⟩ | ⟨-, _, _, _, -, ⟨-, hb⟩ | ⟨-, hb⟩⟩ := idleBranch_cases now s <;> rw [hb]

/-- Settles O55: the decode call leaves the end of the queue, and an iteration that is cancelled makes none. -/
theorem iterationsConsumeThePrefixTheyDecode : Obligations.IterationsConsumeThePrefixTheyDecode := by
  intro s t h
  obtain ⟨-, ⟨-, rfl⟩ | ⟨hc, -, d, n, evs, q, r, -, -, -, -, hused, rfl⟩⟩ := exec_loopIter_cases h
  · have hq : ((stopRun .none s).ret .none).env.rxq = s.env.rxq := stopRun_rxq .none s
    exact ⟨⟨[], hq.symm⟩, fun _ => hq⟩
  · refine ⟨?_, fun hc' => absurd (hc.symm.trans hc') nofun⟩
    rw [State.ret_env, afterDecode_rxq]
    exact hused

end Sys2Proof.Machine
end

section
/-! PROOFS. O43 to O46: the time that goes back, and the primitives in a run. -/

namespace Sys2Proof.Machine

/-- An operation given a time smaller than the last one, in a run (93 U6). -/
theorem whenInRun_atTime_of_lt {s : State} {τ : Nat} (k : State → StepOutcome) (hs : s.inRun = true) (h : τ < s.tLast) :
    whenInRun s (atTime s τ k) = .refused .timeWentBack := by
  rw [whenInRun_inRun _ hs, atTime_of_lt k h]

/-- The decode call notes no time. -/
theorem callDecode_tLast (s : State) : (callDecode s).2.tLast = s.tLast := by
  obtain ⟨_, _, _, _, h, -⟩ := callDecode_step s
  rw [h]

/-- LOOP_ITER samples the time after its decode call, and takes back that call when the time went back (93 U6). -/
theorem execLoopIter_of_lt {s : State} (hs : s.inRun = true) (hc : s.env.cancel = false) (h : s.env.clock < s.tLast) :
    execLoopIter s = .refused .timeWentBack := by
  rw [← callDecode_tLast] at h
  unfold execLoopIter
  rw [whenInRun_inRun _ hs, hc, if_neg Bool.false_ne_true, atTime_of_lt _ h]

/-- Settles O43: four of the operations are given the time at their beginning, LOOP_ITER after its decode call. -/
theorem timeGoingBackIsRefused : Obligations.TimeGoingBackIsRefused := by
  intro s t
  refine ⟨fun hs h => ⟨fun i raw => ?_, fun f => ?_, ?_⟩, fun hs h => ?_, execLoopIter_of_lt⟩
  all_goals exact whenInRun_atTime_of_lt _ hs h

/-- Settles O44: in a run each of the four is its call to the environment, and returns that call's answer. -/
theorem answeredCallsEmitAndReturnTheAnswer : Obligations.AnsweredCallsEmitAndReturnTheAnswer := by
  intro s hs
  refine ⟨fun port baud timeout => ?_, fun dev => ?_, fun axis btn => ?_, fun name => ?_⟩
  all_goals exact whenInRun_inRun _ hs

/-- Settles O45: in a run each of the five emits its event. -/
theorem unansweredCallsOnlyEmit : Obligations.UnansweredCallsOnlyEmit := by
  intro s hs
  refine ⟨?_, ?_, fun pot raw st cal => ?_, fun code => ?_, fun code => ?_⟩
  all_goals exact whenInRun_inRun _ hs

theorem exec_rxRead {s : State} (hs : s.inRun = true) :
    exec .rxRead s = .next ((callRxRead s).2.ret (.rx (callRxRead s).1)) := whenInRun_inRun _ hs

theorem exec_now {s : State} (hs : s.inRun = true) (h : s.tLast ≤ s.env.clock) :
    exec .now s = .next { s with tLast := s.env.clock, result := .time s.env.clock } :=
  (whenInRun_inRun _ hs).trans (atTime_of_le _ h)

/-- Settles O46: RX_READ by whether the queue is empty, NOW with a time that has not gone back. -/
theorem inputPrimitivesReadTheEnvironment : Obligations.InputPrimitivesReadTheEnvironment := by
  intro s hs
  refine ⟨fun hq => ?_, fun b q hq => ?_, exec_now hs, whenInRun_inRun _ hs⟩
  · rw [exec_rxRead hs, callRxRead_nil hq]
    rfl
  · rw [exec_rxRead hs, callRxRead_cons hq]
    rfl

end Sys2Proof.Machine
end

section
/-! SUPPORT. The operation words: `decodeOp` reads what `encodeOp` writes and nothing else (30_encoding R110, log entry 8). -/

namespace Sys2Proof
open Machine

/-- An operand that was read stands at the head of the words. -/
theorem Reads.inv {α β : Type} {r : List Nat → Reader α} {w : α → List Nat} {ok : α → Prop} (hr : Reads r w ok)
    {f : α → List Nat → Reader β} {ws : List Nat} {y : β × List Nat} (h : thenRead (r ws) f = .ok y) :
    ∃ x ws', ws = w x ++ ws' ∧ ok x ∧ f x ws' = .ok y := by
  obtain ⟨x, ws', hx, hf⟩ := thenRead_inv h
  obtain ⟨hws, hok⟩ := hr.2 _ _ _ hx
  exact ⟨x, ws', hws, hok, hf⟩

/-- An operand that stands at the head of the words is read. -/
theorem Reads.thenRead_append {α β : Type} {r : List Nat → Reader α} {w : α → List Nat} {ok : α → Prop} (hr : Reads r w ok)
    {x : α} (hx : ok x) (ws : List Nat) (f : α → List Nat → Reader β) : thenRead (r (w x ++ ws)) f = f x ws := by
  rw [hr.1 x ws hx, thenRead_ok]

/-- What is decoded from words is a well-formed operation and was written by the encoder (30_encoding R110). -/
theorem decodeOp_inv {ws ws' : List Nat} {i : Instr} (h : decodeOp ws = .ok (i, ws')) :
    i.wf = true ∧ i.wireFormat = none ∧ ws = encodeOp i ++ ws' := by
  unfold decodeOp at h
  split at h
  case h_1 => cases h
  case h_2 id ws =>
    split at h
    -- CRC8_UPDATE
    case h_1 =>
      obtain ⟨c, ws, rfl, -, h⟩ := readByte_reads.inv h
      obtain ⟨b, ws, rfl, -, h⟩ := readByte_reads.inv h
      cases h
      exact ⟨rfl, rfl, rfl⟩
    -- CRC8, PARSE_LINE, PARSE_INT
    case h_2 | h_5 | h_6 =>
      obtain ⟨p, ws, rfl, -, h⟩ := readBytes_reads.inv h
      cases h
      exact ⟨rfl, rfl, rfl⟩
    -- DEC_BYTE_B, DEC_BYTE_A
    case h_3 | h_4 =>
      obtain ⟨b, ws, rfl, -, h⟩ := readByte_reads.inv h
      cases h
      exact ⟨rfl, rfl, rfl⟩
    -- MEDIAN
    case h_8 =>
      obtain ⟨w, ws, rfl, hw, h⟩ := readBytes1_reads.inv h
      cases h
      exact ⟨by simpa [Instr.wf] using hw, rfl, rfl⟩
    -- SW_FEED
    case h_9 =>
      obtain ⟨k, ws, rfl, -, h⟩ := readSwitch_reads.inv h
      obtain ⟨raw, ws, rfl, -, h⟩ := readByte_reads.inv h
      obtain ⟨t, ws, rfl, -, h⟩ := readNat_reads.inv h
      cases h
      exact ⟨rfl, rfl, rfl⟩
    -- AXIS_MAP
    case h_10 =>
      obtain ⟨k, ws, rfl, -, h⟩ := readAxis_reads.inv h
      obtain ⟨raw, ws, rfl, -, h⟩ := readInt_reads.inv h
      cases h
      exact ⟨rfl, rfl, rfl⟩
    -- PROCESS_FRAME
    case h_13 =>
      obtain ⟨f, ws, rfl, -, h⟩ := readFrame_reads.inv h
      obtain ⟨t, ws, rfl, -, h⟩ := readNat_reads.inv h
      cases h
      exact ⟨rfl, rfl, by simp [encodeOp, wordsOfFrame]⟩
    -- EDGE_TAPS
    case h_14 =>
      obtain ⟨st, ws, rfl, -, h⟩ := (readPair_reads readBit_reads).inv h
      cases h
      exact ⟨rfl, rfl, rfl⟩
    -- LOOP_STOP, DIAG, REPORT
    case h_17 | h_26 | h_27 =>
      obtain ⟨code, ws, rfl, -, h⟩ := readCode_reads.inv h
      cases h
      exact ⟨rfl, rfl, rfl⟩
    -- OBS_PUBLISH, SINK_ACQUIRE, KEY_TAP
    case h_16 | h_21 | h_24 =>
      obtain ⟨n, ws, rfl, -, h⟩ := readNat_reads.inv h
      cases h
      exact ⟨rfl, rfl, rfl⟩
    -- TRANSPORT_OPEN
    case h_19 =>
      obtain ⟨port, ws, rfl, -, h⟩ := readNat_reads.inv h
      obtain ⟨baud, ws, rfl, -, h⟩ := readNat_reads.inv h
      obtain ⟨timeout, ws, rfl, -, h⟩ := readNat_reads.inv h
      cases h
      exact ⟨rfl, rfl, rfl⟩
    -- SINK_UPDATE
    case h_23 =>
      obtain ⟨axis, ws, rfl, hax, h⟩ := (readLanes_reads readAxisValue_reads).inv h
      obtain ⟨btn, ws, rfl, -, h⟩ := (readPair_reads readBit_reads).inv h
      cases h
      exact ⟨List.all_eq_true.mpr hax, rfl, by simp [encodeOp]⟩
    -- OBS_EVENT
    case h_25 =>
      obtain ⟨pot, ws, rfl, -, h⟩ := (readLanes_reads readByte_reads).inv h
      obtain ⟨swRaw, ws, rfl, -, h⟩ := (readPair_reads readByte_reads).inv h
      obtain ⟨swStable, ws, rfl, -, h⟩ := (readPair_reads readBit_reads).inv h
      obtain ⟨cal, ws, rfl, -, h⟩ := readBit_reads.inv h
      cases h
      exact ⟨rfl, rfl, by simp [encodeOp]⟩
    -- No operation of R110
    case h_30 => cases h
    -- The operations without an operand
    all_goals
      cases h
      exact ⟨rfl, rfl, rfl⟩

/-! Each operand at the head of the words, as the encoder spells it. -/

section
variable {β : Type} (ws : List Nat)

@[simp] theorem thenRead_readNat (n : Nat) (f : Nat → List Nat → Reader β) : thenRead (readNat (n :: ws)) f = f n ws := rfl

@[simp] theorem thenRead_readByte (b : Byte) (f : Byte → List Nat → Reader β) :
    thenRead (readByte (b.toNat :: ws)) f = f b ws := readByte_reads.thenRead_append trivial ws f

@[simp] theorem thenRead_readBit (b : Bool) (f : Bool → List Nat → Reader β) :
    thenRead (readBit (wordOfBit b :: ws)) f = f b ws := readBit_reads.thenRead_append trivial ws f

@[simp] theorem thenRead_readInt (v : Int) (f : Int → List Nat → Reader β) :
    thenRead (readInt (wordOfInt v :: ws)) f = f v ws := readInt_reads.thenRead_append trivial ws f

@[simp] theorem thenRead_readCode (c : Code) (f : Code → List Nat → Reader β) :
    thenRead (readCode (codeNumber c :: ws)) f = f c ws := readCode_reads.thenRead_append trivial ws f

@[simp] theorem thenRead_readSwitch (i : Fin 2) (f : Fin 2 → List Nat → Reader β) :
    thenRead (readSwitch (i.val :: ws)) f = f i ws := readSwitch_reads.thenRead_append trivial ws f

@[simp] theorem thenRead_readAxis (k : Fin 8) (f : Fin 8 → List Nat → Reader β) :
    thenRead (readAxis (k.val :: ws)) f = f k ws := readAxis_reads.thenRead_append trivial ws f

@[simp] theorem thenRead_readBytes (bs : List Byte) (f : List Byte → List Nat → Reader β) :
    thenRead (readBytes (bs.length :: (wordsOfBytes bs ++ ws))) f = f bs ws := readBytes_reads.thenRead_append trivial ws f

@[simp] theorem thenRead_readFrame (x : Frame) (f : Frame → List Nat → Reader β) :
    thenRead (readFrame (wordsOfFrame x ++ ws)) f = f x ws := readFrame_reads.thenRead_append trivial ws f

@[simp] theorem thenRead_readBits (p : Pair Bool) (f : Pair Bool → List Nat → Reader β) :
    thenRead (readPair readBit (wordsOfPair wordOfBit p ++ ws)) f = f p ws :=
  (readPair_reads readBit_reads).thenRead_append ⟨trivial, trivial⟩ ws f

@[simp] theorem thenRead_readBytePair (p : Pair Byte) (f : Pair Byte → List Nat → Reader β) :
    thenRead (readPair readByte (wordsOfPair BitVec.toNat p ++ ws)) f = f p ws :=
  (readPair_reads readByte_reads).thenRead_append ⟨trivial, trivial⟩ ws f

@[simp] theorem thenRead_readByteLanes (v : Lanes Byte) (f : Lanes Byte → List Nat → Reader β) :
    thenRead (readLanes readByte (wordsOfLanes BitVec.toNat v ++ ws)) f = f v ws :=
  (readLanes_reads readByte_reads).thenRead_append (fun _ _ => trivial) ws f

theorem thenRead_readAxisValues {v : Lanes Nat} (hv : v.forall axisInRange = true) (f : Lanes Nat → List Nat → Reader β) :
    thenRead (readLanes readAxisValue (wordsOfLanes (fun x => x - 1) v ++ ws)) f = f v ws :=
  (readLanes_reads readAxisValue_reads).thenRead_append (List.all_eq_true.mp hv) ws f

end

/-- The words of a well-formed operation are decoded to it, whatever words follow (30_encoding R110). -/
theorem decodeOp_encodeOp {i : Instr} (hwf : i.wf = true) (hop : i.wireFormat = none) (ws : List Nat) :
    decodeOp (encodeOp i ++ ws) = .ok (i, ws) := by
  cases i with
  | frameB | frameBOtherLen | frameBBadCrc | frameBBadLenRange | frameA | lineADropped => cases hop
  | median w =>
    exact readBytes1_reads.thenRead_append (by simpa [Instr.wf] using hwf) ws _
  | sinkUpdate axis btn =>
    have hax : axis.forall axisInRange = true := hwf
    simp [encodeOp, decodeOp, thenRead_readAxisValues _ hax]
  | processFrame f t =>
    have hf : encodeOp (.processFrame f t) ++ ws = 0x22 :: (wordsOfFrame f ++ t :: ws) := by simp [encodeOp, wordsOfFrame]
    simp [hf, decodeOp]
  | _ => simp [encodeOp, decodeOp]

/-- Every operation's words decode to it, whatever follows, and nothing else decodes (30_encoding R110). -/
theorem decodeOp_eq_ok_iff {ws ws' : List Nat} {i : Instr} :
    decodeOp ws = .ok (i, ws') ↔ i.wf = true ∧ i.wireFormat = none ∧ ws = encodeOp i ++ ws' := by
  constructor
  · exact decodeOp_inv
  · rintro ⟨hwf, hop, rfl⟩
    exact decodeOp_encodeOp hwf hop ws'

end Sys2Proof
end

section
/-! SUPPORT. The units of wire format B: what `decodeWireB` makes of a framed payload, and of nothing else (30_encoding R97 to
R106, 40 R136, R138). -/

namespace Sys2Proof
open Machine

theorem payloadFramed_iff (p : List Byte) : payloadFramed p = true ↔ 1 ≤ p.length ∧ p.length ≤ 32 := by
  simp [payloadFramed]

/-- The length byte of a payload (30_encoding R99) gives its length back. -/
theorem toNat_lengthByte {p : List Byte} (hp : payloadFramed p = true) : (BitVec.ofNat 8 p.length).toNat = p.length := by
  obtain ⟨-, h⟩ := (payloadFramed_iff p).mp hp
  rw [BitVec.toNat_ofNat]
  omega

theorem lenInRange_lengthByte {p : List Byte} (hp : payloadFramed p = true) : lenInRange (BitVec.ofNat 8 p.length) = true := by
  rw [lenInRange, toNat_lengthByte hp]
  exact hp

/-- The length byte is tested against 11 as the length is (40 R138). -/
theorem lengthByte_eq_eleven_iff {p : List Byte} (hp : payloadFramed p = true) :
    BitVec.ofNat 8 p.length = 11#8 ↔ p.length = 11 := by
  rw [← BitVec.toNat_inj, toNat_lengthByte hp]
  rfl

/-- A length byte out of range ends the unit (40 R136). -/
theorem decodeWireB_badLenRange {l : Byte} (h : lenInRange l = false) (after : List Byte) :
    decodeWireB (0xAA#8 :: 0x55#8 :: l :: after) = .ok (.frameBBadLenRange l, after) := by
  simp [decodeWireB, h]

section
variable {p : List Byte} (hp : payloadFramed p = true) (after : List Byte)
include hp

/-- A framed payload with a wrong trailer (40 R138). -/
theorem decodeWireB_badCrc {z : Byte} (hz : z ≠ crc8Of p) :
    decodeWireB (framedB p z ++ after) = .ok (.frameBBadCrc p z, after) := by
  simp [decodeWireB, framedB, lenInRange_lengthByte hp, toNat_lengthByte hp, hz]

/-- A framed payload with its trailer and a length other than 11 (40 R138). -/
theorem decodeWireB_otherLen (hl : p.length ≠ 11) :
    decodeWireB (framedB p (crc8Of p) ++ after) = .ok (.frameBOtherLen p, after) := by
  simp [decodeWireB, framedB, lenInRange_lengthByte hp, toNat_lengthByte hp, lengthByte_eq_eleven_iff hp, hl]

end

/-- Eleven payload bytes with their trailer (40 R139). -/
theorem decodeWireB_frameB (pot : Lanes Byte) (status rsv0 rsv1 : Byte) (after : List Byte) :
    decodeWireB (encodeWire (.frameB pot status rsv0 rsv1) ++ after) = .ok (.frameB pot status rsv0 rsv1, after) := by
  simp [decodeWireB, encodeWire, framedB, payloadB, Lanes.toList, lenInRange]

/-- What is decoded begins with the sync marker and a length byte out of range, or with a framed payload (30_encoding R97,
R105). -/
theorem decodeWireB_shape {bs after : List Byte} {i : Instr} (h : decodeWireB bs = .ok (i, after)) :
    (∃ l rest, lenInRange l = false ∧ bs = 0xAA#8 :: 0x55#8 :: l :: rest) ∨
    (∃ p z rest, payloadFramed p = true ∧ bs = framedB p z ++ rest) := by
  unfold decodeWireB at h
  split at h
  case h_2 => cases h
  case h_1 b0 b1 l rest =>
    split at h
    · cases h
    · next hsync =>
      obtain ⟨rfl, rfl⟩ : b0 = 0xAA#8 ∧ b1 = 0x55#8 := by simpa using hsync
      split at h
      · next hl => exact .inl ⟨l, rest, by simpa using hl, rfl⟩
      · next hl =>
        split at h
        · cases h
        · next z rest' hdrop =>
          have hlen : (rest.take l.toNat).length = l.toNat := by
            have := congrArg List.length hdrop
            simp at this
            simp; omega
          have hrange : lenInRange l = true := by simpa using hl
          have hframed : payloadFramed (rest.take l.toNat) = true := by
            rw [payloadFramed, hlen]
            exact hrange
          exact .inr ⟨rest.take l.toNat, z, rest', hframed, by simp [framedB, hlen, ← hdrop]⟩

/-- Every frame of wire format B decodes to itself, whatever follows, and nothing else decodes (30_encoding R97 to R107). -/
theorem decodeWireB_eq_ok_iff {bs after : List Byte} {i : Instr} :
    decodeWireB bs = .ok (i, after) ↔ i.wf = true ∧ i.wireFormat = some .B ∧ bs = encodeWire i ++ after := by
  constructor
  · intro h
    obtain ⟨l, rest, hl, rfl⟩ | ⟨p, z, rest, hp, rfl⟩ := decodeWireB_shape h
    · rw [decodeWireB_badLenRange hl] at h
      cases h
      exact ⟨by simp [Instr.wf, hl], rfl, rfl⟩
    · by_cases hz : z = crc8Of p
      · subst hz
        by_cases hlen : p.length = 11
        · obtain ⟨pot, status, rsv0, rsv1, rfl⟩ := exists_lanes_of_length_eq_eleven hlen
          have hf := decodeWireB_frameB pot status rsv0 rsv1 rest
          cases h.symm.trans hf
          exact ⟨rfl, rfl, rfl⟩
        · rw [decodeWireB_otherLen hp _ hlen] at h
          cases h
          exact ⟨by simp [Instr.wf, hp, hlen], rfl, rfl⟩
      · rw [decodeWireB_badCrc hp _ hz] at h
        cases h
        exact ⟨by simp [Instr.wf, hp, hz], rfl, rfl⟩
  · rintro ⟨hwf, hfmt, rfl⟩
    cases i with
    | frameB pot status rsv0 rsv1 => exact decodeWireB_frameB pot status rsv0 rsv1 after
    | frameBOtherLen p =>
      simp only [Instr.wf, Bool.and_eq_true, bne_iff_ne] at hwf
      exact decodeWireB_otherLen hwf.1 after hwf.2
    | frameBBadCrc p z =>
      simp only [Instr.wf, Bool.and_eq_true, bne_iff_ne] at hwf
      exact decodeWireB_badCrc hwf.1 after hwf.2
    | frameBBadLenRange l => exact decodeWireB_badLenRange (by simpa [Instr.wf] using hwf) after
    | _ => cases hfmt

end Sys2Proof
end

section
/-! SUPPORT. PARSE_INT and the grammar of a field are one (30_encoding R95, 40 R142). -/

namespace Sys2Proof.Machine
open Stated

theorem isBlank_of_digit {d : Byte} (h : 0x30 ≤ d.toNat ∧ d.toNat ≤ 0x39) : isBlank d = false := by
  rw [Bool.eq_false_iff, Ne, isBlank_iff]
  rintro (rfl | rfl) <;> simp at h

theorem parseMagnitude_of_digits {digits : List Byte} (hne : digits ≠ []) (h : ∀ d ∈ digits, 0x30 ≤ d.toNat ∧ d.toNat ≤ 0x39) :
    parseMagnitude digits = some (spelled digits) := by
  cases digits with
  | nil => exact absurd rfl hne
  | cons d ds => exact parseDigits_of_digits _ 0 h

/-- White space around a sign and digits is trimmed, and nothing else (30_encoding R95). -/
theorem trimBlank_of_signed {lead sign digits trail : List Byte} (hlead : ∀ b ∈ lead, b = 0x20#8 ∨ b = 0x09#8)
    (htrail : ∀ b ∈ trail, b = 0x20#8 ∨ b = 0x09#8) (hsign : sign = [] ∨ sign = [0x2B#8] ∨ sign = [0x2D#8])
    (hne : digits ≠ []) (hdigits : ∀ d ∈ digits, 0x30 ≤ d.toNat ∧ d.toNat ≤ 0x39) :
    trimBlank (lead ++ sign ++ digits ++ trail) = sign ++ digits := by
  rw [List.append_assoc lead]
  refine trimBlank_of_core lead _ trail (fun b hb => (isBlank_iff b).mpr (hlead b hb))
    (fun b hb => (isBlank_iff b).mpr (htrail b hb)) (fun b hb => ?_) (fun b hb => ?_) (by simp [hne])
  · obtain rfl | rfl | rfl := hsign
    · exact isBlank_of_digit (hdigits b (List.mem_of_head? hb))
    · cases hb; rfl
    · cases hb; rfl
  · rw [List.getLast?_append_of_ne_nil _ hne] at hb
    exact isBlank_of_digit (hdigits b (List.mem_of_getLast? hb))

/-- A field that the grammar spells is accepted, with its value (40 R142). -/
theorem parseInteger_of_spells {field : List Byte} {v : Int} (h : Spells field v) : parseInteger field = some v := by
  obtain ⟨lead, sign, digits, trail, rfl, hlead, htrail, hne, hdigits, hv⟩ := h
  have hsign : sign = [] ∨ sign = [0x2B#8] ∨ sign = [0x2D#8] := by tauto
  have hmag := parseMagnitude_of_digits hne hdigits
  unfold parseInteger
  rw [trimBlank_of_signed hlead htrail hsign hne hdigits]
  obtain ⟨rfl | rfl, rfl⟩ | ⟨rfl, rfl⟩ := hv
  · cases digits with
    | nil => exact absurd rfl hne
    | cons d ds =>
      have hd := hdigits d (by simp)
      have hplus : d ≠ 0x2B#8 := by rintro rfl; simp at hd
      have hminus : d ≠ 0x2D#8 := by rintro rfl; simp at hd
      simp [hplus, hminus, hmag]
  · simp [hmag]
  · simp [hmag]

/-- The bytes of a field that parses: white space, signs and digits (30_encoding R95). -/
theorem fieldParses_bytes {f : List Byte} (h : fieldParses f = true) {b : Byte} (hb : b ∈ f) :
    b ≠ 0x0A#8 ∧ b ≠ 0x0D#8 ∧ b ≠ 0x2C#8 := by
  obtain ⟨v, hv⟩ := Option.isSome_iff_exists.mp h
  obtain ⟨lead, sign, digits, trail, rfl, hlead, htrail, -, hdigits, hs⟩ := spells_of_parseInteger hv
  have hsign : sign = [] ∨ sign = [0x2B#8] ∨ sign = [0x2D#8] := by tauto
  simp only [List.mem_append] at hb
  obtain ((hb | hb) | hb) | hb := hb
  · obtain rfl | rfl := hlead b hb <;> decide
  · obtain rfl | rfl | rfl := hsign
    · cases hb
    · rw [List.mem_singleton.mp hb]; decide
    · rw [List.mem_singleton.mp hb]; decide
  · have hd := hdigits b hb
    refine ⟨?_, ?_, ?_⟩ <;> rintro rfl <;> simp at hd
  · obtain rfl | rfl := htrail b hb <;> decide

end Sys2Proof.Machine
end

section
/-! SUPPORT. The lines of wire format A: what `decodeWireA` makes of the ten fields of a line, and of any other (30_encoding R91
to R96, 40 R141). -/

namespace Sys2Proof
open Machine Stated

theorem cutLine_append {line : List Byte} (h : 0x0A#8 ∉ line) (after : List Byte) :
    cutLine (line ++ 0x0A#8 :: after) = some (line, after) := by
  induction line with
  | nil => rfl
  | cons b line ih =>
    obtain ⟨hb, hline⟩ := not_or.mp (List.mem_cons.not.mp h)
    simp [cutLine, Ne.symm hb, ih hline]

theorem cutLine_some {bs line after : List Byte} (h : cutLine bs = some (line, after)) :
    0x0A#8 ∉ line ∧ bs = line ++ 0x0A#8 :: after := by
  induction bs generalizing line with
  | nil => cases h
  | cons b bs ih =>
    unfold cutLine at h
    split at h
    · next hb =>
      cases h
      exact ⟨List.not_mem_nil, by rw [hb]; rfl⟩
    · next hb =>
      split at h
      · cases h
      · next line' after' hcut =>
        cases h
        obtain ⟨hlf, rfl⟩ := ih hcut
        exact ⟨List.not_mem_cons_of_ne_of_not_mem (Ne.symm hb) hlf, rfl⟩

theorem joinFields_cons_cons (f g : List Byte) (fs : List (List Byte)) :
    joinFields (f :: g :: fs) = f ++ 0x2C#8 :: joinFields (g :: fs) := by
  simp [joinFields, List.intercalate_cons_cons]

/-- Fields without a comma, put together, are cut apart again (30_encoding R94). -/
theorem splitCommas_joinFields {fields : List (List Byte)} (hne : fields ≠ []) (h : ∀ f ∈ fields, 0x2C#8 ∉ f) :
    splitCommas (joinFields fields) = fields := by
  induction fields with
  | nil => exact absurd rfl hne
  | cons f fs ih =>
    obtain ⟨hf, hfs⟩ := List.forall_mem_cons.mp h
    cases fs with
    | nil => simpa [joinFields] using splitCommas_of_no_comma f hf
    | cons g gs => rw [joinFields_cons_cons, splitCommas_append_comma f _ hf, ih (List.cons_ne_nil g gs) hfs]

/-- A line is made of its fields' bytes and commas. -/
theorem mem_joinFields {fields : List (List Byte)} {b : Byte} (h : b ∈ joinFields fields) :
    b = 0x2C#8 ∨ ∃ f ∈ fields, b ∈ f := by
  induction fields with
  | nil => cases h
  | cons f fs ih =>
    cases fs with
    | nil => exact .inr ⟨f, List.mem_singleton_self f, by simpa [joinFields] using h⟩
    | cons g gs =>
      rw [joinFields_cons_cons, List.mem_append, List.mem_cons] at h
      obtain hb | rfl | hb := h
      · exact .inr ⟨f, List.mem_cons_self, hb⟩
      · exact .inl rfl
      · exact (ih hb).imp_right fun ⟨k, hk, hbk⟩ => ⟨k, List.mem_cons_of_mem f hk, hbk⟩

/-- At most one carriage return is stripped, and it is the last byte (30_encoding R93). -/
theorem stripCr_append_cr {l : List Byte} {cr : Bool} (h : cr = false → l.getLast? ≠ some 0x0D#8) :
    stripCr (l ++ if cr then [0x0D#8] else []) = l := by
  cases cr with
  | true => simp [stripCr]
  | false => simp [stripCr, h rfl]

/-- A line is what is left of it after the strip and the carriage return that was stripped (30_encoding R93). -/
theorem eq_stripCr_append_cr (line : List Byte) :
    line = stripCr line ++ if line.getLast? == some 0x0D#8 then [0x0D#8] else [] := by
  by_cases h : line.getLast? = some 0x0D#8
  · simpa [stripCr, h] using (List.dropLast_append_getLast? _ h).symm
  · simp [stripCr, h]

/-- PARSE_LINE's integers are those of its fields, in order (40 R141). -/
theorem parseFields_of_fieldParses {fields : List (List Byte)} (h : ∀ f ∈ fields, fieldParses f = true) :
    ∃ vs, parseFields fields = some vs ∧ vs.length = fields.length := by
  induction fields with
  | nil => exact ⟨[], rfl, rfl⟩
  | cons f fs ih =>
    obtain ⟨hf, hfs⟩ := List.forall_mem_cons.mp h
    obtain ⟨v, hv⟩ := Option.isSome_iff_exists.mp hf
    obtain ⟨vs, hvs, hlen⟩ := ih hfs
    exact ⟨v :: vs, by simp [parseFields, hv, hvs], by simp [hlen]⟩

theorem fieldParses_of_parseFields {fields : List (List Byte)} {vs : List Int} (h : parseFields fields = some vs) :
    vs.length = fields.length ∧ ∀ f ∈ fields, fieldParses f = true := by
  induction fields generalizing vs with
  | nil =>
    cases h
    exact ⟨rfl, List.forall_mem_nil _⟩
  | cons f fs ih =>
    unfold parseFields at h
    split at h
    · cases h
    · next v hv =>
      obtain ⟨ws, hws, rfl⟩ := Option.map_eq_some_iff.mp h
      obtain ⟨hlen, hfs⟩ := ih hws
      exact ⟨by simp [hlen], List.forall_mem_cons.mpr ⟨by simp [fieldParses, hv], hfs⟩⟩

/-- The ten fields of FRAME_A (30_encoding R91). -/
def fieldsA (pots : Lanes (List Byte)) (s1 s2 : List Byte) : List (List Byte) := pots.toList ++ [s1, s2]

theorem exists_fieldsA_of_length_eq_ten {fields : List (List Byte)} (h : fields.length = 10) :
    ∃ pots s1 s2, fields = fieldsA pots s1 s2 := by
  match fields, h with
  | [f0, f1, f2, f3, f4, f5, f6, f7, f8, f9], _ => exact ⟨⟨f0, f1, f2, f3, f4, f5, f6, f7⟩, f8, f9, rfl⟩

theorem lineOfFields_eq (pots : Lanes (List Byte)) (s1 s2 : List Byte) (cr : Bool) :
    lineOfFields pots s1 s2 cr = joinFields (fieldsA pots s1 s2) ++ if cr then [0x0D#8] else [] := by
  simp [lineOfFields, joinFields, fieldsA, Lanes.toList, List.intercalate_cons_cons]

theorem wf_frameA_iff (pots : Lanes (List Byte)) (s1 s2 : List Byte) (cr : Bool) :
    (Instr.frameA pots s1 s2 cr).wf = true ↔ ∀ f ∈ fieldsA pots s1 s2, fieldParses f = true := by
  simp [Instr.wf, fieldsA, Lanes.forall, or_imp, forall_and, and_assoc]

section
variable {pots : Lanes (List Byte)} {s1 s2 : List Byte} (h : ∀ f ∈ fieldsA pots s1 s2, fieldParses f = true)
include h

/-- Fields that parse, put together, hold no line feed and no carriage return (30_encoding R95). -/
theorem joinFields_fieldsA_bytes {b : Byte} (hb : b ∈ joinFields (fieldsA pots s1 s2)) : b ≠ 0x0A#8 ∧ b ≠ 0x0D#8 := by
  obtain rfl | ⟨f, hf, hbf⟩ := mem_joinFields hb
  · decide
  · obtain ⟨hlf, hcr, -⟩ := fieldParses_bytes (h f hf) hbf
    exact ⟨hlf, hcr⟩

theorem lineFeed_notMem_lineOfFields (cr : Bool) : 0x0A#8 ∉ lineOfFields pots s1 s2 cr := by
  rw [lineOfFields_eq, List.mem_append, not_or]
  exact ⟨fun hb => (joinFields_fieldsA_bytes h hb).1 rfl, by cases cr <;> decide⟩

theorem getLast?_joinFields_fieldsA : (joinFields (fieldsA pots s1 s2)).getLast? ≠ some 0x0D#8 :=
  fun hb => (joinFields_fieldsA_bytes h (List.mem_of_getLast? hb)).2 rfl

theorem getLast?_lineOfFields (cr : Bool) : ((lineOfFields pots s1 s2 cr).getLast? == some 0x0D#8) = cr := by
  rw [lineOfFields_eq]
  cases cr with
  | true => simp
  | false => simpa using getLast?_joinFields_fieldsA h

theorem splitCommas_lineOfFields (cr : Bool) :
    splitCommas (stripCr (lineOfFields pots s1 s2 cr)) = fieldsA pots s1 s2 := by
  rw [lineOfFields_eq, stripCr_append_cr fun _ => getLast?_joinFields_fieldsA h]
  exact splitCommas_joinFields (by simp [fieldsA]) fun f hf hb => (fieldParses_bytes (h f hf) hb).2.2 rfl

/-- Ten fields that parse make a line with a Frame (40 R141, R144). -/
theorem judgeLine_lineOfFields (cr : Bool) : ∃ f, judgeLine (lineOfFields pots s1 s2 cr) = .frame f := by
  have hsplit := splitCommas_lineOfFields h cr
  have hlen : (fieldsA pots s1 s2).length = 10 := rfl
  have hne : stripCr (lineOfFields pots s1 s2 cr) ≠ [] := by
    intro he
    rw [he] at hsplit
    simp [← hsplit, splitCommas] at hlen
  obtain ⟨vs, hvs, hvlen⟩ := parseFields_of_fieldParses h
  match vs, hvlen with
  | [v0, v1, v2, v3, v4, v5, v6, v7, v8, v9], _ =>
    exact ⟨buildFrameA ⟨v0, v1, v2, v3, v4, v5, v6, v7⟩ v8 v9, by simp [judgeLine, hne, hsplit, hlen, hvs]⟩

/-- A line of ten fields that parse is FRAME_A (30_encoding R91 to R96). -/
theorem decodeWireA_frameA (cr : Bool) (after : List Byte) :
    decodeWireA (lineOfFields pots s1 s2 cr ++ 0x0A#8 :: after) = .ok (.frameA pots s1 s2 cr, after) := by
  obtain ⟨x, hx⟩ := judgeLine_lineOfFields h cr
  simp [decodeWireA, cutLine_append (lineFeed_notMem_lineOfFields h cr), hx, splitCommas_lineOfFields h cr, fieldsA,
    Lanes.toList, getLast?_lineOfFields h cr]

end

/-- The only lines with a Frame are those of ten fields that parse (40 R141). -/
theorem eq_lineOfFields_of_judgeLine_frame {line : List Byte} {x : Frame} (h : judgeLine line = .frame x) :
    ∃ pots s1 s2 cr, (Instr.frameA pots s1 s2 cr).wf = true ∧ line = lineOfFields pots s1 s2 cr := by
  obtain ⟨v, v8, v9, hv, -⟩ := judgeLine_frame h
  obtain ⟨hlen, hparse⟩ := fieldParses_of_parseFields hv
  obtain ⟨pots, s1, s2, hf⟩ := exists_fieldsA_of_length_eq_ten hlen.symm
  rw [hf] at hparse
  refine ⟨pots, s1, s2, line.getLast? == some 0x0D#8, (wf_frameA_iff _ _ _ _).mpr hparse, ?_⟩
  rw [lineOfFields_eq, ← hf, joinFields_splitCommas]
  exact eq_stripCr_append_cr line

/-- Any other line is LINE_A_DROPPED (40 R141). -/
theorem decodeWireA_dropped {line : List Byte} (hlf : 0x0A#8 ∉ line) (h : ∀ x, judgeLine line ≠ .frame x)
    (after : List Byte) : decodeWireA (line ++ 0x0A#8 :: after) = .ok (.lineADropped line, after) := by
  simp only [decodeWireA, cutLine_append hlf]
  split
  · next x _ _ _ _ _ _ _ _ _ _ hx _ => exact absurd hx (h x)
  · rfl

theorem wf_lineADropped_iff (line : List Byte) :
    (Instr.lineADropped line).wf = true ↔ 0x0A#8 ∉ line ∧ ∀ x, judgeLine line ≠ .frame x := by
  cases hj : judgeLine line <;> simp [Instr.wf, hj]

/-- Every line of wire format A decodes to itself, whatever follows, and nothing else decodes (30_encoding R91 to R96, R107). -/
theorem decodeWireA_eq_ok_iff {bs after : List Byte} {i : Instr} :
    decodeWireA bs = .ok (i, after) ↔ i.wf = true ∧ i.wireFormat = some .A ∧ bs = encodeWire i ++ after := by
  constructor
  · intro h
    cases hcut : cutLine bs with
    | none => simp [decodeWireA, hcut] at h
    | some p =>
      obtain ⟨line, rest⟩ := p
      obtain ⟨hlf, rfl⟩ := cutLine_some hcut
      by_cases hx : ∃ x, judgeLine line = .frame x
      · obtain ⟨x, hx⟩ := hx
        obtain ⟨pots, s1, s2, cr, hwf, rfl⟩ := eq_lineOfFields_of_judgeLine_frame hx
        rw [decodeWireA_frameA ((wf_frameA_iff _ _ _ _).mp hwf)] at h
        cases h
        exact ⟨hwf, rfl, by simp [encodeWire]⟩
      · rw [not_exists] at hx
        rw [decodeWireA_dropped hlf hx] at h
        cases h
        exact ⟨(wf_lineADropped_iff line).mpr ⟨hlf, hx⟩, rfl, by simp [encodeWire]⟩
  · rintro ⟨hwf, hfmt, rfl⟩
    cases i with
    | frameA pots s1 s2 cr =>
      simpa [encodeWire] using decodeWireA_frameA ((wf_frameA_iff _ _ _ _).mp hwf) cr after
    | lineADropped line =>
      obtain ⟨hlf, hx⟩ := (wf_lineADropped_iff line).mp hwf
      simpa [encodeWire] using decodeWireA_dropped hlf hx after
    | _ => cases hfmt

end Sys2Proof
end

section
/-! PROOFS. O1 to O5 and O20: the encoding, the step and PARSE_INT. -/

namespace Sys2Proof
open Machine Stated

/-- An encoding in words is an operation with no word after it. -/
theorem decode_words_eq_ok_iff {fmt : WireFormat} {ws : List Nat} {i : Instr} :
    decode fmt (.words ws) = .ok i ↔ decodeOp ws = .ok (i, []) := by
  simp only [decode]
  split <;> simp_all

/-- An encoding in bytes is a wire unit with no byte after it. -/
theorem decode_bytes_eq_ok_iff {fmt : WireFormat} {bs : List Byte} {i : Instr} :
    decode fmt (.bytes bs) = .ok i ↔ decodeWire fmt bs = .ok (i, []) := by
  simp only [decode]
  split <;> simp_all

/-- The two wire formats together: a unit of the format at the head of the bytes, and nothing else (30_encoding R90, R107). -/
theorem decodeWire_eq_ok_iff {fmt : WireFormat} {bs after : List Byte} {i : Instr} :
    decodeWire fmt bs = .ok (i, after) ↔ i.wf = true ∧ i.wireFormat = some fmt ∧ bs = encodeWire i ++ after := by
  cases fmt with
  | A => exact decodeWireA_eq_ok_iff
  | B => exact decodeWireB_eq_ok_iff

/-- What decodes is exactly the encoding of a well-formed instruction of the format (30_encoding R90 to R110). -/
theorem decode_eq_ok_iff {fmt : WireFormat} {e : Encoding} {i : Instr} :
    decode fmt e = .ok i ↔ i.wf = true ∧ (∀ f, i.wireFormat = some f → f = fmt) ∧ encode i = e := by
  cases e with
  | words ws =>
    rw [decode_words_eq_ok_iff, decodeOp_eq_ok_iff, List.append_nil]
    cases hi : i.wireFormat <;> simp [encode, hi, @eq_comm _ ws]
  | bytes bs =>
    rw [decode_bytes_eq_ok_iff, decodeWire_eq_ok_iff, List.append_nil]
    cases hi : i.wireFormat <;> simp [encode, hi, @eq_comm _ bs]

/-- Settles O1: an operation by its words, a wire row by its bytes in its own format. -/
theorem encodedInstructionsDecodeToThemselves : Obligations.EncodedInstructionsDecodeToThemselves :=
  fun _ _ hwf hfmt => decode_eq_ok_iff.mpr ⟨hwf, hfmt, rfl⟩

/-- Settles O2: what the decoders accept is what the encoder writes. -/
theorem decodedInstructionsEncodeBack : Obligations.DecodedInstructionsEncodeBack :=
  fun _ _ _ => decode_eq_ok_iff.mp

/-- Settles O3: the wire decoder finds the unit before any bytes. -/
theorem wireUnitsEndWhereTheySay : Obligations.WireUnitsEndWhereTheySay :=
  fun _ _ _ hwf hfmt => decodeWire_eq_ok_iff.mpr ⟨hwf, hfmt, rfl⟩

/-- Settles O20: PARSE_INT returns what `parseInteger` answers, which is the grammar. -/
theorem parsedIntegersAreTheGrammars : Obligations.ParsedIntegersAreTheGrammars := by
  intro s field hs
  have hexec : exec (.parseInt field) s = .next { s with result := .integer (parseInteger field) } :=
    whenInRun_inRun _ hs
  rw [hexec]
  constructor
  · intro v hv
    rw [parseInteger_of_spells hv]
  · intro hnone
    have hp : parseInteger field = none :=
      Option.eq_none_iff_forall_ne_some.mpr fun v hv => hnone v (spells_of_parseInteger hv)
    rw [hp]

/-- Settles O4: thirty-two fixed words, each decoded by evaluation. -/
theorem tableWordsDecode : Obligations.TableWordsDecode := by
  unfold Obligations.TableWordsDecode
  decide +kernel

/-- A request of operation words (log entry 2). -/
theorem step_op {s : State} {ws : List Nat} {rest : List Input} (h : s.env.inputs = .op ws :: rest) :
    (∀ i, decode s.fmt (.words ws) = .ok i → step s = exec i (s.withInputs rest)) ∧
    (∀ e, decode s.fmt (.words ws) = .error e → step s = .refused (.undecodable e)) := by
  constructor <;> intro _ hd <;> simp [step, fetch, h, hd]

/-- A request for the unit at the head of the receive queue (log entry 11). -/
theorem step_unit {s : State} {rest : List Input} (h : s.env.inputs = .unit :: rest) :
    (∀ i after, decodeWire s.fmt s.env.rxq = .ok (i, after) → step s = exec i ((s.withInputs rest).withRxq after)) ∧
    (∀ e, decodeWire s.fmt s.env.rxq = .error e → step s = .refused (.undecodable e)) := by
  constructor <;> intros <;> simp [step, fetch, *]

/-- A line of the environment changes the environment alone (20_memory R77). -/
theorem step_environment {s : State} {i : Input} {rest : List Input} (h : s.env.inputs = i :: rest)
    (hop : ∀ ws, i ≠ .op ws) (hunit : i ≠ .unit) :
    step s = .next { s with env := { applyInput s.transportHeld i s.env with inputs := rest } } := by
  cases i with
  | op ws => exact absurd rfl (hop ws)
  | unit => exact absurd rfl hunit
  | _ => simp [step, fetch, h]

/-- Settles O5: one clause for each kind of script line. -/
theorem stepRunsTheDecodedInstruction : Obligations.StepRunsTheDecodedInstruction := by
  intro s
  refine ⟨fun h => ?_, fun ws rest i h => (step_op h).1 i, fun ws rest e h => (step_op h).2 e,
    fun rest i after h => (step_unit h).1 i after, fun rest e h => (step_unit h).2 e, ?_⟩
  · simp [step, fetch, h]
  · exact ⟨fun _ _ h => step_environment h nofun nofun, fun _ _ h => step_environment h nofun nofun,
      fun _ _ h => step_environment h nofun nofun, fun _ _ h => step_environment h nofun nofun,
      fun _ _ h => step_environment h nofun nofun, fun _ _ _ _ _ h => step_environment h nofun nofun⟩

end Sys2Proof
end

section
/-! SUPPORT. What the decoder's operations and the wire rows answer in a run, in the words of the statements (40 R133, R140,
R141, R145, R146). -/

namespace Sys2Proof.Machine
open Stated

/-- A drop and the receive queue do not meet (40 R145). -/
theorem dropCode_withRxq (code : Code) (s : State) (q : List Byte) :
    dropCode code (s.withRxq q) = (dropCode code s).withRxq q := by
  rw [dropCode_eq, dropCode_eq]
  rfl

/-- DEC_BYTE_B returns what its byte machine answers, and accounts it if it is a drop. -/
theorem exec_decByteB {s : State} (hs : s.inRun = true) {b : Byte} {d : Decoder} {r : DecResult}
    (h : machineB s.dec b = (d, r)) :
    exec (.decByteB b) s = .next ((accountDrop r (s.withDec d)).ret (.decoded r)) := by
  have he : exec (.decByteB b) s = .next ((decByteB b s).2.ret (.decoded (decByteB b s).1)) := whenInRun_inRun _ hs
  rw [he, decByteB, h]

/-- DEC_BYTE_A returns what its line machine answers, and accounts it if it is a drop. -/
theorem exec_decByteA {s : State} (hs : s.inRun = true) {b : Byte} {d : Decoder} {r : DecResult}
    (h : machineA s.params.lineMax s.dec b = (d, r)) :
    exec (.decByteA b) s = .next ((accountDrop r (s.withDec d)).ret (.decoded r)) := by
  have he : exec (.decByteA b) s = .next ((decByteA b s).2.ret (.decoded (decByteA b s).1)) := whenInRun_inRun _ hs
  rw [he, decByteA, h]

/-- PARSE_LINE returns what its tests answer, and accounts it if it is a drop. -/
theorem exec_parseLine {s : State} (hs : s.inRun = true) {line : List Byte} {r : DecResult} (h : judgeLine line = r) :
    exec (.parseLine line) s = .next ((accountDrop r s).ret (.decoded r)) := by
  subst h
  exact whenInRun_inRun _ hs

/-- DECODE_CALL is the decode loop over the receive queue. -/
theorem exec_decodeCall {s : State} (hs : s.inRun = true) :
    exec .decodeCall s = .next ((decodeLoop s.env.rxq s).2.ret (.call (decodeLoop s.env.rxq s).1)) :=
  whenInRun_inRun _ hs

/-- A wire row is its bytes at the head of the receive queue and one decode call (log entry 11). -/
theorem exec_wireRow {i : Instr} (h : i.wireFormat ≠ none) (s : State) :
    exec i s = exec .decodeCall (withQueue (encodeWire i ++ s.env.rxq) s) := by
  cases i with
  | frameB | frameBOtherLen | frameBBadCrc | frameBBadLenRange | frameA | lineADropped => rfl
  | _ => exact absurd rfl h

end Sys2Proof.Machine
end

section
/-! PROOFS. O6, O7 and O13: the wire rows and unit requests are decode calls, and the decoder always answers. -/

namespace Sys2Proof.Machine
open Stated

/-- Settles O6: the meaning of a wire row. -/
theorem wireRowsAreOneDecodeCall : Obligations.WireRowsAreOneDecodeCall :=
  fun s _ _ h => exec_wireRow h s

/-- Settles O7: the unit at the head of the queue is taken off by the request and put back by its row. -/
theorem unitRequestsDecodeTheQueueAsItStands : Obligations.UnitRequestsDecodeTheQueueAsItStands := by
  intro s rest i after _ hin hdec
  obtain ⟨-, hfmt, hq⟩ := decodeWire_eq_ok_iff.mp hdec
  rw [(step_unit hin).1 i after hdec, exec_wireRow (by simp [hfmt])]
  refine congrArg (exec .decodeCall) ?_
  change withQueue (encodeWire i ++ after) (s.withInputs rest) = (s.withInputs rest)
  rw [← hq]
  rfl

/-- Settles O13: no operation of the decoder looks at more than the enabling condition before it answers. -/
theorem decoderIsTotalInARun : Obligations.DecoderIsTotalInARun :=
  fun _ hs => ⟨fun _ => ⟨_, _, exec_decByteA hs rfl, rfl⟩, fun _ => ⟨_, _, exec_decByteB hs rfl, rfl⟩,
    ⟨_, _, exec_decodeCall hs, rfl⟩⟩

end Sys2Proof.Machine
end

section
/-! PROOFS. O8 and O9: the checksum of wire format B (40 R130 to R132). -/

namespace Sys2Proof.Machine
open Stated

/-- A payload and its checksum have the checksum zero (40 R131). -/
theorem crc8Of_append_crc8Of (p : List Byte) : crc8Of (p ++ [crc8Of p]) = 0x00#8 := by
  rw [crc8Of, List.foldl_append]
  exact crcUpdate_self (crc8Of p)

/-- A payload of zeros has the checksum zero (40 R131). -/
theorem crc8Of_replicate_zero (n : Nat) : crc8Of (List.replicate n 0x00#8) = 0x00#8 := by
  induction n with
  | zero => rfl
  | succ n ih => exact ih

theorem exec_crc8 {s : State} (hs : s.inRun = true) (p : List Byte) :
    exec (.crc8 p) s = .next { s with result := .byte (crc8Of p) } :=
  whenInRun_inRun _ hs

/-- Settles O8: CRC8_UPDATE is table T1 at the two bytes' xor. -/
theorem crc8UpdateIsTheTableForm : Obligations.Crc8UpdateIsTheTableForm := by
  intro s c b hs
  have he : exec (.crc8Update c b) s = .next { s with result := .byte (crcUpdate c b) } := whenInRun_inRun _ hs
  rw [he, crcUpdate_eq_crcByTable, crcByTable]

/-- Settles O9: CRC8 folds CRC8_UPDATE, which is zero on two equal bytes. -/
theorem crc8FoldsThePayloadFromZero : Obligations.Crc8FoldsThePayloadFromZero := by
  intro s p hs
  rw [← crc8Of_eq_foldl_crcByTable]
  refine ⟨exec_crc8 hs p, ?_, fun n => ?_⟩
  · rw [exec_crc8 hs, crc8Of_append_crc8Of]
  · rw [exec_crc8 hs, crc8Of_replicate_zero]

end Sys2Proof.Machine
end

section
/-! PROOFS. O14: one byte of a decode call (40 R146). -/

namespace Sys2Proof.Machine
open Stated

/-- The operation that absorbs a byte is the byte machine of the format (40 R146). -/
theorem exec_byteOp {s : State} (hs : s.inRun = true) (b : Byte) :
    exec (byteOp s.fmt b) s = .next ((decByte b s).2.ret (.decoded (decByte b s).1)) := by
  unfold byteOp decByte
  cases s.fmt with
  | A => exact whenInRun_inRun _ hs
  | B => exact whenInRun_inRun _ hs

/-- It does not read the receive queue (40 R133, R140). -/
theorem exec_byteOp_withQueue {s : State} (hs : s.inRun = true) (b : Byte) (q : List Byte) :
    exec (byteOp s.fmt b) (withQueue q s) = .next ((withQueue q (decByte b s).2).ret (.decoded (decByte b s).1)) := by
  have hq : decByte b (withQueue q s) = _ := decByte_withRxq_ret b s q s.result
  refine (exec_byteOp (s := withQueue q s) hs b).trans ?_
  rw [hq]
  rfl

/-- Settles O14: the decode loop, one byte at a time; the byte's operation runs on the queue behind it. -/
theorem decodeCallTakesOneByteAtATime : Obligations.DecodeCallTakesOneByteAtATime := by
  intro s hs
  refine ⟨fun hq => ?_, fun b q hq => ?_⟩
  · rw [exec_decodeCall hs, hq, decodeLoop_nil, ← hq]
    rfl
  · refine ⟨_, _, exec_byteOp_withQueue hs b q, rfl, ?_⟩
    rw [exec_decodeCall hs, hq, decodeLoop_cons]
    have hb := decByte_cases b s
    cases hr : (decByte b s).1 with
    | nothing =>
      rw [hr] at hb
      obtain ⟨d, hd⟩ := hb
      have hrun : ((decByte b s).2.ret (.decoded .nothing)).inRun = true := by rw [hd]; exact hs
      have hcall := exec_decodeCall_withQueue hrun q
      rw [decodeLoop_ret, State.ret_ret] at hcall
      exact hcall.symm
    | frame f => rfl
    | dropped code => rfl

end Sys2Proof.Machine
end

section
/-! SUPPORT. The byte machine of wire format B, one rule for each of its states (40 R134 to R138). -/

namespace Sys2Proof.Machine
open Stated

theorem machineB_hunt {d : Decoder} (h : d.bState = .hunt) (b : Byte) :
    machineB d b = (if b = 0xAA#8 then { d with bState := .gotAA } else d, .nothing) := by
  simp only [machineB, h, huntB]

theorem machineB_gotAA {d : Decoder} (h : d.bState = .gotAA) (b : Byte) :
    machineB d b =
      (if b = 0x55#8 then { d with bState := .len } else if b = 0xAA#8 then d else { d with bState := .hunt },
        .nothing) := by
  have hd : { d with bState := .gotAA } = d := by rw [← h]
  simp only [machineB, h, gotAAB, hd]

theorem machineB_len_inRange {d : Decoder} (h : d.bState = .len) {b : Byte} (hb : lenInRange b = true) :
    machineB d b =
      ({ d with bLen := b.toNat, bCnt := 0, bCrc := 0x00#8, bState := .payload }, .nothing) := by
  simp only [machineB, h, lenB, hb, if_true]

theorem machineB_len_outOfRange {d : Decoder} (h : d.bState = .len) {b : Byte} (hb : lenInRange b = false) :
    machineB d b = ({ d with bState := .hunt }, .dropped .badLenRange) := by
  simp [machineB, h, lenB, hb]

theorem machineB_payload {d : Decoder} (h : d.bState = .payload) (b : Byte) :
    machineB d b =
      ({ d with
          bBuf := d.bBuf.take d.bCnt ++ [b]
          bCrc := crcUpdate d.bCrc b
          bCnt := d.bCnt + 1
          bState := if d.bCnt + 1 = d.bLen then .crc else .payload }, .nothing) := by
  simp only [machineB, h, payloadByteB]

theorem machineB_crc {d : Decoder} (h : d.bState = .crc) (b : Byte) :
    machineB d b =
      ({ d with bState := .hunt },
        if b ≠ d.bCrc then .dropped .badCrc else if d.bLen ≠ 11 then .dropped .badLen else .frame (buildFrameB d.bBuf)) := by
  simp only [machineB, h, crcB]

theorem lenInRange_iff (b : Byte) : lenInRange b = true ↔ 1 ≤ b.toNat ∧ b.toNat ≤ 32 := by
  simp [lenInRange]

/-! The line machine of wire format A, one rule for each of its branches (40 R140). -/

theorem machineA_store {lineMax : Nat} {d : Decoder} {b : Byte} (hb : b ≠ 0x0A#8) (h : d.aLen < lineMax) :
    machineA lineMax d b = ({ d with aBuf := d.aBuf.take d.aLen ++ [b], aLen := d.aLen + 1 }, .nothing) := by
  rw [machineA, if_pos hb, if_pos h]

theorem machineA_overflow {lineMax : Nat} {d : Decoder} {b : Byte} (hb : b ≠ 0x0A#8) (h : lineMax ≤ d.aLen) :
    machineA lineMax d b = ({ d with aOvf := true }, .nothing) := by
  rw [machineA, if_pos hb, if_neg (Nat.not_lt.mpr h)]

theorem machineA_terminator (lineMax : Nat) (d : Decoder) :
    machineA lineMax d 0x0A#8 =
      ({ d with aLen := 0, aOvf := false },
        if d.aOvf then .dropped .lineTooLong else judgeLine (d.aBuf.take d.aLen)) := rfl

/-- A byte stored behind the `n` occupied slots of a buffer: the slots below are kept (40 R137, R140). -/
theorem getElem?_stored {buf : List Byte} {n : Nat} (h : n ≤ buf.length) (b : Byte) :
    (∀ j, j < n → (buf.take n ++ [b])[j]? = buf[j]?) ∧ (buf.take n ++ [b])[n]? = some b := by
  have hlen : (buf.take n).length = n := List.length_take_of_le h
  constructor
  · intro j hj
    rw [List.getElem?_append_left (by rwa [hlen]), List.getElem?_take_of_lt hj]
  · rw [List.getElem?_append_right hlen.le, hlen, Nat.sub_self]
    rfl

end Sys2Proof.Machine
end

section
/-! PROOFS. O10 and O18: the two byte machines as operations (40 R133 to R140). -/

namespace Sys2Proof.Machine
open Stated

/-- Settles O10: one rule of the byte machine for each state. -/
theorem formatBByteMachine : Obligations.FormatBByteMachine := by
  intro s b hs
  refine ⟨fun h => ?hunt, fun h => ?gotAA, fun h => ?len, fun h hcnt => ?payload, fun h => ?crc⟩
  case hunt =>
    have hm := machineB_hunt h b
    refine ⟨fun hb => ?_, fun hb => ?_⟩
    · rw [if_pos hb] at hm
      exact exec_decByteB hs hm
    · rw [if_neg hb] at hm
      exact exec_decByteB hs hm
  case gotAA =>
    have hm := machineB_gotAA h b
    refine ⟨fun hb => ?_, fun hb => ?_, fun h55 hAA => ?_⟩
    · rw [if_pos hb] at hm
      exact exec_decByteB hs hm
    · rw [if_neg (by rw [hb]; decide), if_pos hb] at hm
      exact exec_decByteB hs hm
    · rw [if_neg h55, if_neg hAA] at hm
      exact exec_decByteB hs hm
  case len =>
    rw [← lenInRange_iff]
    exact ⟨fun hb => exec_decByteB hs (machineB_len_inRange h hb),
      fun hb => exec_decByteB hs (machineB_len_outOfRange h (Bool.eq_false_iff.mpr hb))⟩
  case payload =>
    obtain ⟨hkept, hstored⟩ := getElem?_stored hcnt b
    refine ⟨_, hkept, hstored, ?_⟩
    rw [← crcUpdate_eq_crcByTable]
    exact exec_decByteB hs (machineB_payload h b)
  case crc =>
    have hm := machineB_crc h b
    refine ⟨fun hb => ?_, fun hb hlen => ?_, fun hb hlen pot status rsv0 rsv1 hbuf => ?_⟩
    · rw [if_pos hb] at hm
      exact exec_decByteB hs hm
    · rw [if_neg (not_not.mpr hb), if_pos hlen] at hm
      exact exec_decByteB hs hm
    · have hframe : buildFrameB s.dec.bBuf = frameOfPayload pot status := by
        rw [hbuf, buildFrameB_eq_frameOfPayload]
      rw [if_neg (not_not.mpr hb), if_neg (not_not.mpr hlen), hframe] at hm
      exact exec_decByteB hs hm

/-- Settles O18: the three branches of the line machine, and PARSE_LINE on the completed line. -/
theorem formatALineMachine : Obligations.FormatALineMachine := by
  intro s b hs hlen
  refine ⟨fun hb hroom => ?_, fun hb hfull => ?_, fun hb hovf => ?_, fun hb hovf => ?_⟩
  · obtain ⟨hkept, hstored⟩ := getElem?_stored hlen b
    exact ⟨_, hkept, hstored, exec_decByteA hs (machineA_store hb hroom)⟩
  · exact exec_decByteA hs (machineA_overflow hb hfull)
  · subst hb
    have hm := machineA_terminator s.params.lineMax s.dec
    rw [if_pos hovf] at hm
    exact exec_decByteA hs hm
  · subst hb
    have hm := machineA_terminator s.params.lineMax s.dec
    rw [if_neg (by simp [hovf])] at hm
    have hrun : (s.withDec { s.dec with aLen := 0, aOvf := false }).inRun = true := hs
    exact (exec_decByteA hs hm).trans (exec_parseLine hrun rfl).symm

end Sys2Proof.Machine
end

section
/-! SUPPORT. Several bytes at once: what a byte machine absorbs without an answer, and the unit whose last byte it answers (40
R133, R140, R146). -/

namespace Sys2Proof.Machine
open Stated

/-- The byte machine of the run's format (40 R146). -/
def byteMachine (s : State) : Decoder → Byte → Decoder × DecResult :=
  match s.fmt with
  | .A => machineA s.params.lineMax
  | .B => machineB

theorem byteMachine_A {s : State} (h : s.fmt = .A) : byteMachine s = machineA s.params.lineMax := by
  simp only [byteMachine, h]

theorem byteMachine_B {s : State} (h : s.fmt = .B) : byteMachine s = machineB := by
  simp only [byteMachine, h]

/-- One byte met in the decoder registers `d`. -/
theorem decByte_withDec {s : State} {d d' : Decoder} {b : Byte} {r : DecResult} (h : byteMachine s d b = (d', r)) :
    decByte b (s.withDec d) = (r, accountDrop r (s.withDec d')) := by
  unfold decByte
  cases hf : s.fmt with
  | A =>
    rw [byteMachine_A hf] at h
    simp only [State.withDec_fmt, hf, decByteA, State.withDec_dec, State.withDec_params, h]
    rfl
  | B =>
    rw [byteMachine_B hf] at h
    simp only [State.withDec_fmt, hf, decByteB, State.withDec_dec, h]
    rfl

/-- The byte machine `m` absorbs bytes one after another, without an answer to any. -/
inductive Absorbs (m : Decoder → Byte → Decoder × DecResult) : Decoder → List Byte → Decoder → Prop
  | nil (d : Decoder) : Absorbs m d [] d
  | cons {d d₁ d₂ : Decoder} {b : Byte} {bs : List Byte} (hb : m d b = (d₁, .nothing)) (hbs : Absorbs m d₁ bs d₂) :
      Absorbs m d (b :: bs) d₂

/-- The byte machine `m` absorbs all bytes of a unit but the last one, and answers `r` to that. -/
def EndsWith (m : Decoder → Byte → Decoder × DecResult) (d : Decoder) (unit : List Byte) (d' : Decoder) (r : DecResult) :
    Prop :=
  ∃ bs last d₁, unit = bs ++ [last] ∧ Absorbs m d bs d₁ ∧ m d₁ last = (d', r)

section
variable {m : Decoder → Byte → Decoder × DecResult} {d d₁ d₂ : Decoder} {bs bs' unit : List Byte} {r : DecResult}

theorem Absorbs.append (h : Absorbs m d bs d₁) (h' : Absorbs m d₁ bs' d₂) : Absorbs m d (bs ++ bs') d₂ := by
  induction h with
  | nil d => exact h'
  | cons hb _ ih => exact .cons hb (ih h')

theorem Absorbs.of_append (h : Absorbs m d (bs ++ bs') d₂) : ∃ d₁, Absorbs m d bs d₁ := by
  induction bs generalizing d with
  | nil => exact ⟨d, .nil d⟩
  | cons b bs ih =>
    cases h with
    | cons hb hbs =>
      obtain ⟨d₁, h₁⟩ := ih hbs
      exact ⟨d₁, .cons hb h₁⟩

/-- A unit cut short is absorbed (40 R150). -/
theorem EndsWith.absorbs_prefix {missing : List Byte} (h : EndsWith m d unit d₂ r) (hu : unit = bs ++ missing)
    (hm : missing ≠ []) : ∃ d₁, Absorbs m d bs d₁ := by
  obtain ⟨bs', last, d', rfl, ha, -⟩ := h
  obtain ⟨missing', x, rfl⟩ := List.eq_nil_or_concat missing |>.resolve_left hm
  rw [List.concat_eq_append, ← List.append_assoc] at hu
  rw [(List.append_inj' hu rfl).1] at ha
  exact ha.of_append

end

theorem decodeLoop_of_absorbs {s : State} {d d' : Decoder} {bs : List Byte} (h : Absorbs (byteMachine s) d bs d')
    (q : List Byte) : decodeLoop (bs ++ q) (s.withDec d) = decodeLoop q (s.withDec d') := by
  induction h with
  | nil d => rfl
  | cons hb _ ih =>
    rw [List.cons_append, decodeLoop_cons, decByte_withDec hb]
    exact ih

/-- A decode call over a unit and what follows it comes to the unit's last byte (40 R146). -/
theorem decodeLoop_of_endsWith {s : State} {d : Decoder} {unit : List Byte} {r : DecResult}
    (h : EndsWith (byteMachine s) s.dec unit d r) (q : List Byte) :
    ∃ last d₁, decodeLoop (unit ++ q) s = decodeLoop (last :: q) (s.withDec d₁) ∧
      decByte last (s.withDec d₁) = (r, accountDrop r (s.withDec d)) := by
  obtain ⟨bs, last, d₁, rfl, ha, hlast⟩ := h
  refine ⟨last, d₁, ?_, decByte_withDec hlast⟩
  rw [List.append_assoc]
  exact decodeLoop_of_absorbs ha (last :: q)

section
variable {s : State} (hs : s.inRun = true)
include hs

/-- A decode call that absorbs all bytes finds nothing (40 R146). -/
theorem exec_decodeCall_absorbed {d : Decoder} {bs : List Byte} (h : Absorbs (byteMachine s) s.dec bs d) :
    exec .decodeCall (withQueue bs s) = .next { withQueue [] s with dec := d, result := .call .empty } := by
  have hloop : decodeLoop (bs ++ []) s = _ := decodeLoop_of_absorbs h []
  rw [List.append_nil, decodeLoop_nil] at hloop
  rw [exec_decodeCall_withQueue hs, hloop]
  rfl

/-- A unit whose last byte completes a Frame (40 R146). -/
theorem exec_decodeCall_frame {d : Decoder} {unit : List Byte} {f : Frame}
    (h : EndsWith (byteMachine s) s.dec unit d (.frame f)) (q : List Byte) :
    exec .decodeCall (withQueue (unit ++ q) s) = .next { withQueue q s with dec := d, result := .call (.frame f) } := by
  obtain ⟨last, d₁, hloop, hlast⟩ := decodeLoop_of_endsWith h q
  rw [exec_decodeCall_withQueue hs, hloop, decodeLoop_cons, hlast]
  rfl

/-- A unit whose last byte ends in a drop (40 R145, R146). -/
theorem exec_decodeCall_dropped {d : Decoder} {unit : List Byte} {code : Code}
    (h : EndsWith (byteMachine s) s.dec unit d (.dropped code)) (q : List Byte) :
    exec .decodeCall (withQueue (unit ++ q) s) =
      .next { afterDrop code { withQueue q s with dec := d } with result := .call (.dropped code) } := by
  obtain ⟨last, d₁, hloop, hlast⟩ := decodeLoop_of_endsWith h q
  rw [exec_decodeCall_withQueue hs, hloop, decodeLoop_cons, hlast, accountDrop_dropped]
  dsimp only
  rw [← dropCode_withRxq]
  rfl

/-- A wire row that completes a Frame leaves the queue as it was. -/
theorem exec_wireRow_frame {i : Instr} {d : Decoder} {f : Frame} (hi : i.wireFormat ≠ none)
    (h : EndsWith (byteMachine s) s.dec (encodeWire i) d (.frame f)) :
    exec i s = .next { s with dec := d, result := .call (.frame f) } := by
  rw [exec_wireRow hi]
  exact exec_decodeCall_frame hs h s.env.rxq

/-- A wire row that ends in a drop leaves the queue as it was. -/
theorem exec_wireRow_dropped {i : Instr} {d : Decoder} {code : Code} (hi : i.wireFormat ≠ none)
    (h : EndsWith (byteMachine s) s.dec (encodeWire i) d (.dropped code)) :
    exec i s = .next { afterDrop code { s with dec := d } with result := .call (.dropped code) } := by
  rw [exec_wireRow hi]
  exact exec_decodeCall_dropped hs h s.env.rxq

end

end Sys2Proof.Machine
end

section
/-! SUPPORT. The units of wire format B, met while no frame is in progress (40 R133 to R139). -/

namespace Sys2Proof.Machine
open Stated

/-- The registers `d` once the payload bytes `p` of `n` announced ones are collected: the slots of the buffer that no byte has
reached are as they were. -/
def collected (d : Decoder) (n : Nat) (p : List Byte) : Decoder :=
  { d with
    bState := if p.length = n then .crc else .payload
    bLen := n
    bCnt := p.length
    bCrc := crc8Of p
    bBuf := if p = [] then d.bBuf else p }

theorem crc8Of_append_singleton (p : List Byte) (b : Byte) : crc8Of (p ++ [b]) = crcUpdate (crc8Of p) b := by
  rw [crc8Of, List.foldl_append]
  rfl

theorem collected_sameLineRegisters (d : Decoder) (n : Nat) (p : List Byte) :
    sameLineRegisters d { collected d n p with bState := .hunt } := ⟨rfl, rfl, rfl⟩

/-- One more payload byte is collected (40 R137). -/
theorem machineB_collected (d : Decoder) {n : Nat} {p : List Byte} (h : p.length < n) (b : Byte) :
    machineB (collected d n p) b = (collected d n (p ++ [b]), .nothing) := by
  have hs : (collected d n p).bState = .payload := if_neg h.ne
  have hbuf : (collected d n p).bBuf.take (collected d n p).bCnt = p := by
    by_cases hp : p = []
    · rw [hp]; rfl
    · simp [collected, hp]
  have hne : p ++ [b] ≠ [] := by simp
  rw [machineB_payload hs, hbuf]
  unfold collected
  rw [List.length_append, List.length_singleton, crc8Of_append_singleton, if_neg hne]

theorem absorbs_payload (d : Decoder) {n : Nat} (q p : List Byte) (h : p.length + q.length ≤ n) :
    Absorbs machineB (collected d n p) q (collected d n (p ++ q)) := by
  induction q generalizing p with
  | nil =>
    rw [List.append_nil]
    exact .nil _
  | cons b q ih =>
    simp only [List.length_cons] at h
    rw [List.append_cons]
    exact .cons (machineB_collected d (by omega) b) (ih (p ++ [b]) (by simp; omega))

/-- The sync marker is found from both states of the search (40 R134, R135). -/
theorem absorbs_sync {d : Decoder} (h : searching d) : Absorbs machineB d [0xAA#8, 0x55#8] { d with bState := .len } := by
  have h₁ : machineB d 0xAA#8 = ({ d with bState := .gotAA }, .nothing) := by
    obtain h | h := h
    · exact machineB_hunt h _
    · rw [machineB_gotAA h]
      simp [← h]
  have h₂ : machineB { d with bState := .gotAA } 0x55#8 = ({ d with bState := .len }, .nothing) := machineB_gotAA rfl _
  exact .cons h₁ (.cons h₂ (.nil _))

/-- The length byte of a payload starts its collection (40 R136). -/
theorem machineB_lengthByte (d : Decoder) {p : List Byte} (hp : payloadFramed p = true) :
    machineB { d with bState := .len } (BitVec.ofNat 8 p.length) = (collected d p.length [], .nothing) := by
  obtain ⟨hpos, -⟩ := (payloadFramed_iff p).mp hp
  have hne : (0 : Nat) ≠ p.length := by omega
  rw [machineB_len_inRange rfl (lenInRange_lengthByte hp), toNat_lengthByte hp]
  simp [collected, crc8Of, hne]

/-- A framed payload is taken whole, and judged on its trailer (40 R138). -/
theorem framedB_endsWith {d : Decoder} (h : searching d) {p : List Byte} (hp : payloadFramed p = true) (z : Byte) :
    EndsWith machineB d (framedB p z) { collected d p.length p with bState := .hunt }
      (if z ≠ crc8Of p then .dropped .badCrc else if p.length ≠ 11 then .dropped .badLen else .frame (buildFrameB p)) := by
  have ha := (absorbs_sync h).append (.cons (machineB_lengthByte d hp) (absorbs_payload d p [] (by simp)))
  have hne : p ≠ [] := by rintro rfl; simp [payloadFramed] at hp
  have hframe : buildFrameB (collected d p.length p).bBuf = buildFrameB p := congrArg buildFrameB (if_neg hne)
  have hm := machineB_crc (d := collected d p.length p) (if_pos rfl) z
  rw [hframe] at hm
  exact ⟨_, z, _, rfl, ha, hm⟩

/-- A length byte out of range ends the unit (40 R136). -/
theorem badLenRange_endsWith {d : Decoder} (h : searching d) {l : Byte} (hl : lenInRange l = false) :
    EndsWith machineB d [0xAA#8, 0x55#8, l] { d with bState := .hunt } (.dropped .badLenRange) :=
  ⟨_, l, _, rfl, absorbs_sync h, machineB_len_outOfRange rfl hl⟩

theorem badCrc_endsWith {d : Decoder} (h : searching d) {p : List Byte} (hp : payloadFramed p = true) {z : Byte}
    (hz : z ≠ crc8Of p) :
    EndsWith machineB d (framedB p z) { collected d p.length p with bState := .hunt } (.dropped .badCrc) := by
  simpa only [if_pos hz] using framedB_endsWith h hp z

theorem otherLen_endsWith {d : Decoder} (h : searching d) {p : List Byte} (hp : payloadFramed p = true)
    (hlen : p.length ≠ 11) :
    EndsWith machineB d (framedB p (crc8Of p)) { collected d p.length p with bState := .hunt } (.dropped .badLen) := by
  simpa [hlen] using framedB_endsWith h hp (crc8Of p)

theorem frameB_endsWith {d : Decoder} (h : searching d) (pot : Lanes Byte) (status rsv0 rsv1 : Byte) :
    EndsWith machineB d (encodeWire (.frameB pot status rsv0 rsv1))
      { collected d 11 (payloadB pot status rsv0 rsv1) with bState := .hunt } (.frame (frameOfPayload pot status)) := by
  have hlen : (payloadB pot status rsv0 rsv1).length = 11 := rfl
  have he := framedB_endsWith h (p := payloadB pot status rsv0 rsv1) rfl (crc8Of (payloadB pot status rsv0 rsv1))
  rw [if_neg (not_not.mpr rfl), if_neg (not_not.mpr hlen)] at he
  exact he

end Sys2Proof.Machine
end

section
/-! PROOFS. O11, O12 and O17: whole frames of wire format B. -/

namespace Sys2Proof.Machine
open Stated

/-- Settles O11: the eleven payload bytes with their checksum end in their Frame. -/
theorem wholeFrameBIsAccepted : Obligations.WholeFrameBIsAccepted := by
  intro s pot status rsv0 rsv1 hs hf hd
  have he := frameB_endsWith hd pot status rsv0 rsv1
  rw [← byteMachine_B hf] at he
  exact ⟨_, collected_sameLineRegisters _ _ _, rfl, exec_wireRow_frame hs nofun he⟩

/-- Settles O12: each of the three rows ends in its drop. -/
theorem badFramesOfFormatBAreDropped : Obligations.BadFramesOfFormatBAreDropped := by
  intro s i code hs hf hd hwf hrow
  obtain ⟨⟨p, rfl⟩, rfl⟩ | ⟨⟨p, z, rfl⟩, rfl⟩ | ⟨⟨l, rfl⟩, rfl⟩ := hrow
  · simp only [Instr.wf, Bool.and_eq_true, bne_iff_ne] at hwf
    have he := otherLen_endsWith hd hwf.1 hwf.2
    rw [← byteMachine_B hf] at he
    exact ⟨_, collected_sameLineRegisters _ _ _, rfl, exec_wireRow_dropped hs nofun he⟩
  · simp only [Instr.wf, Bool.and_eq_true, bne_iff_ne] at hwf
    have he := badCrc_endsWith hd hwf.1 hwf.2
    rw [← byteMachine_B hf] at he
    exact ⟨_, collected_sameLineRegisters _ _ _, rfl, exec_wireRow_dropped hs nofun he⟩
  · have he := badLenRange_endsWith hd (l := l) (by simpa [Instr.wf] using hwf)
    rw [← byteMachine_B hf] at he
    exact ⟨{ s.dec with bState := .hunt }, ⟨rfl, rfl, rfl⟩, rfl, exec_wireRow_dropped hs nofun he⟩

/-- CRC8_UPDATE from zero tells any two bytes apart: it is linear, and no byte but zero gives zero (40 R130). -/
theorem crcUpdate_zero_injective : Function.Injective (crcUpdate 0#8) := by
  have hzero : ∀ x : Byte, crcUpdate 0#8 x = 0#8 → x = 0#8 := by decide +kernel
  intro x y h
  have hxor : crcUpdate 0#8 (x ^^^ y) = 0#8 := by
    have hlin := crcUpdate_xor 0#8 0#8 x y
    rwa [h, BitVec.xor_self, BitVec.xor_self] at hlin
  exact BitVec.xor_eq_zero_iff.mp (hzero _ hxor)

theorem crcUpdate_right_injective (c : Byte) : Function.Injective (crcUpdate c) := by
  intro x y h
  rw [crcUpdate_eq c x, crcUpdate_eq c y] at h
  exact BitVec.xor_right_inj c |>.mp (crcUpdate_zero_injective h)

theorem crcUpdate_left_injective (b : Byte) : Function.Injective (crcUpdate · b) := by
  intro x y h
  dsimp only at h
  rw [crcUpdate_eq x b, crcUpdate_eq y b] at h
  exact BitVec.xor_left_inj b |>.mp (crcUpdate_zero_injective h)

/-- Two checksums that differ stay different over the same further bytes. -/
theorem foldl_crcUpdate_injective (p : List Byte) : Function.Injective (p.foldl crcUpdate) := by
  induction p with
  | nil => exact Function.injective_id
  | cons b p ih => exact ih.comp (crcUpdate_left_injective b)

/-- One altered byte alters the checksum (40 R152). -/
theorem crc8Of_set_ne {p : List Byte} {k : Nat} {b : Byte} (hk : k < p.length) (hb : p[k]? ≠ some b) :
    crc8Of (p.set k b) ≠ crc8Of p := by
  intro h
  have hp : p = p.take k ++ p[k] :: p.drop (k + 1) := by simp
  rw [List.set_eq_take_append_cons_drop, if_pos hk] at h
  conv_rhs at h => rw [hp]
  rw [crc8Of, crc8Of, List.foldl_append, List.foldl_append] at h
  have hbyte := crcUpdate_right_injective _ (foldl_crcUpdate_injective _ h)
  exact hb (by rw [List.getElem?_eq_getElem hk, hbyte])

/-- Settles O17: one altered byte alters the checksum, which the trailer then is not; `01 5E` and `00 00` have the same one. -/
theorem oneAlteredByteIsAlwaysCaught : Obligations.OneAlteredByteIsAlwaysCaught := by
  constructor
  · intro s p q k b hs hf hd hlen hk hb
    have hp : payloadFramed (p.set k b) = true := by
      rw [payloadFramed_iff, List.length_set]
      omega
    have he := badCrc_endsWith hd hp (crc8Of_set_ne hk hb).symm
    rw [← byteMachine_B hf, crc8Of_eq_foldl_crcByTable p] at he
    exact ⟨_, collected_sameLineRegisters _ _ _, rfl, exec_decodeCall_dropped hs he q⟩
  · refine ⟨List.replicate 11 0x00#8, 0x01#8 :: 0x5E#8 :: List.replicate 9 0x00#8, rfl, rfl, by decide, by decide, 0, 1,
      by decide, fun n h0 h1 => ?_⟩
    match n with
    | n + 2 => rfl

end Sys2Proof.Machine
end

section
/-! SUPPORT. PARSE_LINE, one rule for each of its answers (30_encoding R93 to R95, 40 R141 to R144). -/

namespace Sys2Proof.Machine
open Stated

theorem judgeLine_emptyLine {line : List Byte} (h : stripCr line = []) : judgeLine line = .dropped .emptyLine :=
  if_pos h

theorem judgeLine_fieldCount {line : List Byte} (hne : stripCr line ≠ []) (h : (splitCommas (stripCr line)).length ≠ 10) :
    judgeLine line = .dropped .fieldCount := by
  rw [judgeLine, if_neg hne, if_pos h]

/-- Only a line with something in it has ten fields. -/
theorem ne_nil_of_ten_fields {l : List Byte} (h : (splitCommas l).length = 10) : l ≠ [] := by
  rintro rfl
  cases h

theorem judgeLine_notInteger {line : List Byte} (h : (splitCommas (stripCr line)).length = 10)
    (hp : parseFields (splitCommas (stripCr line)) = none) : judgeLine line = .dropped .notInteger := by
  rw [judgeLine, if_neg (ne_nil_of_ten_fields h), if_neg (not_not.mpr h), hp]

theorem judgeLine_of_parseFields {line : List Byte} {v : Lanes Int} {v8 v9 : Int}
    (hp : parseFields (splitCommas (stripCr line)) = some (v.toList ++ [v8, v9])) :
    judgeLine line = .frame (frameOfFields v v8 v9) := by
  have h : (splitCommas (stripCr line)).length = 10 := (fieldParses_of_parseFields hp).1.symm
  rw [judgeLine, if_neg (ne_nil_of_ten_fields h), if_neg (not_not.mpr h), hp, ← buildFrameA_eq_frameOfFields]
  rfl

/-- Fields that the grammar spells are read as their values (30_encoding R95, 40 R142). -/
theorem parseFields_of_spells {fields : List (List Byte)} {vs : List Int} (h : List.Forall₂ Spells fields vs) :
    parseFields fields = some vs := by
  induction h with
  | nil => rfl
  | cons hf _ ih => simp [parseFields, parseInteger_of_spells hf, ih]

/-- One field that spells no integer is enough (40 R141). -/
theorem parseFields_eq_none {fields : List (List Byte)} {f : List Byte} (hf : f ∈ fields) (h : ∀ v, ¬ Spells f v) :
    parseFields fields = none := by
  refine Option.eq_none_iff_forall_ne_some.mpr fun vs hvs => ?_
  obtain ⟨v, hv⟩ := Option.isSome_iff_exists.mp ((fieldParses_of_parseFields hvs).2 f hf)
  exact h v (spells_of_parseInteger hv)

/-- Nothing, or a carriage return alone, is the empty line (30_encoding R93, 40 R141). -/
theorem stripCr_eq_nil_iff (line : List Byte) : stripCr line = [] ↔ line = [] ∨ line = [0x0D#8] := by
  constructor
  · intro h
    simpa [h] using eq_stripCr_or line
  · rintro (rfl | rfl) <;> rfl

theorem count_comma_stripCr (line : List Byte) : (stripCr line).count 0x2C#8 = line.count 0x2C#8 := by
  obtain h | h := eq_stripCr_or line
  · rw [← h]
  · rw [h, List.count_append, ← h]
    rfl

/-- A line without a Frame is dropped with the code of its first fault (40 R141). -/
theorem judgeLine_of_no_frame {line : List Byte} (h : ∀ x, judgeLine line ≠ .frame x) :
    judgeLine line = .dropped (if line = [] ∨ line = [0x0D#8] then .emptyLine
      else if line.count 0x2C#8 ≠ 9 then .fieldCount else .notInteger) := by
  have hlen : (splitCommas (stripCr line)).length = line.count 0x2C#8 + 1 := by
    rw [splitCommas_length, count_comma_stripCr]
  split
  · next hnil => exact judgeLine_emptyLine ((stripCr_eq_nil_iff line).mpr hnil)
  · next hnil =>
    split
    · next hcount => exact judgeLine_fieldCount (mt (stripCr_eq_nil_iff line).mp hnil) (by omega)
    · next hcount =>
      have hten : (splitCommas (stripCr line)).length = 10 := by omega
      cases hp : parseFields (splitCommas (stripCr line)) with
      | none => exact judgeLine_notInteger hten hp
      | some vs =>
        match vs, (fieldParses_of_parseFields hp).1.trans hten with
        | [v0, v1, v2, v3, v4, v5, v6, v7, v8, v9], _ =>
          exact absurd (judgeLine_of_parseFields (v := ⟨v0, v1, v2, v3, v4, v5, v6, v7⟩) hp) (h _)

end Sys2Proof.Machine
end

section
/-! PROOFS. O19: PARSE_LINE as an operation. -/

namespace Sys2Proof.Machine
open Stated

/-- Settles O19: the strip and the cut give the fields back, and each clause is one rule of PARSE_LINE. -/
theorem linesAreParsedFieldByField : Obligations.LinesAreParsedFieldByField := by
  intro s fields cr hs hne hcomma hcr line
  have hstrip : stripCr line = joinFields fields := stripCr_append_cr hcr
  have hsplit : splitCommas (stripCr line) = fields := by rw [hstrip, splitCommas_joinFields hne hcomma]
  refine ⟨fun hnil => ?_, fun hnil hlen => ?_, fun hlen hbad => ?_, fun v v8 v9 hv => ?_⟩
  · exact exec_parseLine hs (judgeLine_emptyLine (hstrip.trans hnil))
  · exact exec_parseLine hs (judgeLine_fieldCount (hstrip ▸ hnil) (hsplit ▸ hlen))
  · obtain ⟨f, hf, hnone⟩ := hbad
    exact exec_parseLine hs (judgeLine_notInteger (hsplit ▸ hlen) (hsplit ▸ parseFields_eq_none hf hnone))
  · exact exec_parseLine hs (judgeLine_of_parseFields (hsplit ▸ parseFields_of_spells hv))

end Sys2Proof.Machine
end

section
/-! SUPPORT. The lines of wire format A, met at the start of a line (40 R140). -/

namespace Sys2Proof.Machine
open Stated

/-- The registers `d` once the bytes `line` of a line are absorbed: those that fit are stored, and more set the overflow
flag. -/
def buffered (lineMax : Nat) (d : Decoder) (line : List Byte) : Decoder :=
  { d with
    aBuf := if line.take lineMax = [] then d.aBuf else line.take lineMax
    aLen := (line.take lineMax).length
    aOvf := decide (lineMax < line.length) }

theorem buffered_nil (lineMax : Nat) {d : Decoder} (hlen : d.aLen = 0) (hovf : d.aOvf = false) :
    buffered lineMax d [] = d := by
  cases d
  dsimp only at hlen hovf
  simp [buffered, hlen, hovf]

/-- The occupied slots of the buffer are the line as far as it fits. -/
theorem take_buffered (lineMax : Nat) (d : Decoder) (line : List Byte) :
    (buffered lineMax d line).aBuf.take (buffered lineMax d line).aLen = line.take lineMax := by
  by_cases h : line.take lineMax = []
  · simp only [buffered, h, List.length_nil, List.take_zero]
  · simp only [buffered, h, if_false, List.take_length]

/-- One more byte of the line is absorbed (40 R140). -/
theorem machineA_buffered (lineMax : Nat) (d : Decoder) (line : List Byte) {b : Byte} (hb : b ≠ 0x0A#8) :
    machineA lineMax (buffered lineMax d line) b = (buffered lineMax d (line ++ [b]), .nothing) := by
  have hlen : (buffered lineMax d line).aLen = min lineMax line.length := List.length_take
  by_cases h : line.length < lineMax
  · have hold : line.take lineMax = line := List.take_of_length_le h.le
    have hnew : (line ++ [b]).take lineMax = line ++ [b] := List.take_of_length_le (by simpa using h)
    rw [machineA_store hb (by omega), take_buffered, hold]
    simp [buffered, hold, hnew]
    omega
  · have hnew : (line ++ [b]).take lineMax = line.take lineMax := List.take_append_of_le_length (by omega)
    rw [machineA_overflow hb (by omega)]
    simp [buffered, hnew, Nat.lt_succ_of_le (Nat.not_lt.mp h)]

theorem absorbs_line (lineMax : Nat) (d : Decoder) (bs line : List Byte) (h : 0x0A#8 ∉ bs) :
    Absorbs (machineA lineMax) (buffered lineMax d line) bs (buffered lineMax d (line ++ bs)) := by
  induction bs generalizing line with
  | nil =>
    rw [List.append_nil]
    exact .nil _
  | cons b bs ih =>
    obtain ⟨hb, hbs⟩ := not_or.mp (List.mem_cons.not.mp h)
    rw [List.append_cons]
    exact .cons (machineA_buffered lineMax d line (Ne.symm hb)) (ih (line ++ [b]) hbs)

theorem buffered_sameFrameRegisters (lineMax : Nat) (d : Decoder) (line : List Byte) :
    sameFrameRegisters d { buffered lineMax d line with aLen := 0, aOvf := false } := ⟨rfl, rfl, rfl, rfl, rfl⟩

/-- A whole line is taken with its terminator, and judged if it fits the buffer (40 R140). -/
theorem line_endsWith (lineMax : Nat) {d : Decoder} (hlen : d.aLen = 0) (hovf : d.aOvf = false) {line : List Byte}
    (h : 0x0A#8 ∉ line) :
    EndsWith (machineA lineMax) d (line ++ [0x0A#8]) { buffered lineMax d line with aLen := 0, aOvf := false }
      (if lineMax < line.length then .dropped .lineTooLong else judgeLine line) := by
  have ha := absorbs_line lineMax d line [] h
  rw [buffered_nil lineMax hlen hovf] at ha
  refine ⟨line, _, _, rfl, ha, ?_⟩
  rw [List.nil_append, machineA_terminator, take_buffered]
  by_cases hlong : lineMax < line.length
  · simp [buffered, hlong]
  · rw [List.take_of_length_le (Nat.not_lt.mp hlong)]
    simp [buffered, hlong]

/-- A line of ten fields that spell integers has their Frame (30_encoding R91 to R95, 40 R144). -/
theorem judgeLine_lineOfFields_of_spells {pots : Lanes (List Byte)} {s1 s2 : List Byte} {v : Lanes Int} {v8 v9 : Int}
    (h : List.Forall₂ Spells (fieldsA pots s1 s2) (v.toList ++ [v8, v9])) (cr : Bool) :
    0x0A#8 ∉ lineOfFields pots s1 s2 cr ∧ judgeLine (lineOfFields pots s1 s2 cr) = .frame (frameOfFields v v8 v9) := by
  have hparse := parseFields_of_spells h
  obtain ⟨-, hfields⟩ := fieldParses_of_parseFields hparse
  refine ⟨lineFeed_notMem_lineOfFields hfields cr, judgeLine_of_parseFields ?_⟩
  rw [splitCommas_lineOfFields hfields cr, hparse]

theorem spells_fieldsA {pots : Lanes (List Byte)} {s1 s2 : List Byte} {v : Lanes Int} {v8 v9 : Int}
    (hpots : ∀ k, Spells (pots.get k) (v.get k)) (h1 : Spells s1 v8) (h2 : Spells s2 v9) :
    List.Forall₂ Spells (fieldsA pots s1 s2) (v.toList ++ [v8, v9]) :=
  .cons (hpots 0) <| .cons (hpots 1) <| .cons (hpots 2) <| .cons (hpots 3) <| .cons (hpots 4) <| .cons (hpots 5) <|
    .cons (hpots 6) <| .cons (hpots 7) <| .cons h1 <| .cons h2 .nil

/-- Every well-formed unit of the run's format, met where a unit starts, is taken to its last byte (40 R133, R140). -/
theorem unit_endsWith {s : State} {i : Instr} (hwf : i.wf = true) (hfmt : i.wireFormat = some s.fmt) (h : atUnitStart s) :
    ∃ d r, EndsWith (byteMachine s) s.dec (encodeWire i) d r := by
  unfold atUnitStart at h
  cases hf : s.fmt with
  | A =>
    rw [hf] at hfmt h
    obtain ⟨hlen, hovf⟩ := h
    rw [byteMachine_A hf]
    cases i with
    | frameA pots s1 s2 cr =>
      have hlf := lineFeed_notMem_lineOfFields ((wf_frameA_iff _ _ _ _).mp hwf) cr
      exact ⟨_, _, line_endsWith _ hlen hovf hlf⟩
    | lineADropped line =>
      obtain ⟨hlf, -⟩ := (wf_lineADropped_iff line).mp hwf
      exact ⟨_, _, line_endsWith _ hlen hovf hlf⟩
    | _ => cases hfmt
  | B =>
    rw [hf] at hfmt h
    rw [byteMachine_B hf]
    cases i with
    | frameB pot status rsv0 rsv1 => exact ⟨_, _, frameB_endsWith h pot status rsv0 rsv1⟩
    | frameBOtherLen p =>
      simp only [Instr.wf, Bool.and_eq_true] at hwf
      exact ⟨_, _, framedB_endsWith h hwf.1 _⟩
    | frameBBadCrc p z =>
      simp only [Instr.wf, Bool.and_eq_true] at hwf
      exact ⟨_, _, framedB_endsWith h hwf.1 _⟩
    | frameBBadLenRange l => exact ⟨_, _, badLenRange_endsWith h (by simpa [Instr.wf] using hwf)⟩
    | _ => cases hfmt

end Sys2Proof.Machine
end

section
/-! PROOFS. O16, O21 and O22: whole lines of wire format A, and units of either format cut short. -/

namespace Sys2Proof.Machine
open Stated

/-- Settles O21: the line is stored, and judged if it fits. -/
theorem wholeLinesOfFormatAGiveTheirFrame : Obligations.WholeLinesOfFormatAGiveTheirFrame := by
  intro s pots s1 s2 cr v v8 v9 hs hf hlen hovf hpots h1 h2
  obtain ⟨hlf, hjudge⟩ := judgeLine_lineOfFields_of_spells (spells_fieldsA hpots h1 h2) cr
  have he := line_endsWith s.params.lineMax hlen hovf hlf
  rw [← byteMachine_A hf] at he
  refine ⟨_, buffered_sameFrameRegisters s.params.lineMax _ (lineOfFields pots s1 s2 cr), rfl, rfl,
    fun hfits => ?_, fun hlong => ?_⟩
  · rw [if_neg (Nat.not_lt.mpr hfits), hjudge] at he
    exact exec_wireRow_frame hs nofun he
  · rw [if_pos hlong] at he
    exact exec_wireRow_dropped hs nofun he

/-- Settles O22: the line machine's test first, then those of PARSE_LINE. -/
theorem badLinesOfFormatAAreDropped : Obligations.BadLinesOfFormatAAreDropped := by
  intro s line hs hf hlen hovf hwf code
  obtain ⟨hlf, hframe⟩ := (wf_lineADropped_iff line).mp hwf
  have he := line_endsWith s.params.lineMax hlen hovf hlf
  rw [← byteMachine_A hf, judgeLine_of_no_frame hframe, ← apply_ite DecResult.dropped] at he
  exact ⟨_, buffered_sameFrameRegisters _ _ _, rfl, rfl, exec_wireRow_dropped hs nofun he⟩

/-- Settles O16: the bytes of a unit before its last are absorbed. -/
theorem truncatedUnitsGiveNoFrame : Obligations.TruncatedUnitsGiveNoFrame := by
  intro s i bs missing hs hstart hwf hfmt hu hm
  obtain ⟨d, r, he⟩ := unit_endsWith hwf hfmt hstart
  obtain ⟨d₁, ha⟩ := he.absorbs_prefix hu hm
  exact ⟨d₁, exec_decodeCall_absorbed hs ha⟩

end Sys2Proof.Machine
end

section
/-! SUPPORT. MEDIAN and SW_FEED as operations, and the filter's seven steps in the words of the statements (41 R170 to R178). -/

namespace Sys2Proof.Machine
open Stated

/-- Any arrangement of the readings in order is the one the model sorts them into. -/
theorem sortNumbers_eq_of_sortedReadings {w : List Byte} {l : List Nat} (h : SortedReadings w l) :
    sortNumbers (w.map BitVec.toNat) = l := by
  obtain ⟨hperm, hsorted⟩ := h
  exact ((sortNumbers_perm _).trans hperm.symm).eq_of_pairwise' (sortNumbers_pairwise _) hsorted

theorem medianOf_eq_middle {w : List Byte} {l : List Nat} (h : SortedReadings w l) : medianOf w = middle l := by
  have ⟨hperm, _⟩ := h
  have hlen : l.length = w.length := by simpa using hperm.length_eq
  simp only [medianOf, middle, sortNumbers_eq_of_sortedReadings h, hlen]

theorem pushWindow_eq_pushed (size : Nat) (win : List Byte) (raw : Byte) : pushWindow size win raw = pushed size win raw := by
  rw [pushWindow, pushed, List.drop_one]

/-- The three tests of a commit, with no subtraction of times (41 R175, R176). -/
theorem commits_iff {f : SwitchFilter} {tCand now : Nat} (sticky debounce : Nat) (cand : Bool) (hc : tCand ≤ now)
    (hs : f.tStable ≤ now) :
    (!stickyHolds now f.tStable sticky && debounced now tCand debounce && cand != f.stable) = true ↔
      f.tStable + sticky ≤ now ∧ tCand + debounce ≤ now ∧ cand ≠ f.stable := by
  have hsticky : sticky ≤ now - f.tStable ↔ f.tStable + sticky ≤ now := by omega
  have hdebounce : debounce ≤ now - tCand ↔ tCand + debounce ≤ now := by omega
  simp [stickyHolds, debounced, hsticky, hdebounce, and_assoc]

/-- SW_FEED of a filter whose times are not after `now` is the feed of the statements. -/
theorem feedFilter_eq_fed {cfg : Settings} {f : SwitchFilter} {raw : Byte} {now : Nat} {l : List Nat}
    (hc : f.tCand ≤ now) (hs : f.tStable ≤ now) (hl : SortedReadings (pushed cfg.swW f.win raw) l) :
    feedFilter cfg f raw now = fed cfg f raw (middle l) now := by
  rw [feedFilter_eq, fed, pushWindow_eq_pushed, medianOf_eq_middle hl, ← classify, ite_not]
  generalize classify cfg.swLow cfg.swHigh (middle l) f.cand = cand
  have htc : (if cand = f.cand then f.tCand else now) ≤ now := by split <;> omega
  simp only [commits_iff cfg.swSticky cfg.swDebounce cand htc hs]
  generalize (if cand = f.cand then f.tCand else now) = tCand
  by_cases hcommit : f.tStable + cfg.swSticky ≤ now ∧ tCand + cfg.swDebounce ≤ now ∧ cand ≠ f.stable
  · simp only [if_pos hcommit]
  · simp only [if_neg hcommit]

/-- When SW_FEED answers, and with which state: the filter fed, the time noted and the committed value returned. -/
theorem exec_swFeed_eq_next_iff {s s' : State} {i : Fin 2} {raw : Byte} {t : Nat} :
    exec (.swFeed i raw t) s = .next s' ↔
      s.inRun = true ∧ s.tLast ≤ t ∧
        s' = { s with
          sw := s.sw.set i (feedFilter s.cfg (s.sw.get i) raw t), tLast := t
          result := .bit (feedFilter s.cfg (s.sw.get i) raw t).stable } := by
  constructor
  · intro h
    obtain ⟨hr, hn⟩ := whenInRun_next h
    obtain ⟨hle, hk⟩ := atTime_next hn
    cases hk
    exact ⟨hr, hle, by simp [feedSwitch, State.ret]⟩
  · rintro ⟨hr, hle, rfl⟩
    refine (whenInRun_inRun _ hr).trans ((atTime_of_le _ hle).trans ?_)
    simp [feedSwitch, State.ret]

end Sys2Proof.Machine
end

section
/-! PROOFS. O24 and O25: MEDIAN and SW_FEED, each whole (41 R170 to R179). -/

namespace Sys2Proof.Machine
open Stated

/-- Settles O24: the sort of the model gives the only list in order that holds the readings. -/
theorem medianIsTheMiddleOfTheSortedList : Obligations.MedianIsTheMiddleOfTheSortedList := by
  intro s w l hs hw hl
  rw [← medianOf_eq_middle hl]
  cases w with
  | nil => exact absurd rfl hw
  | cons b bs => exact whenInRun_inRun _ hs

/-- Settles O25: the filter is the feed of the statements, and the operation writes nothing else but the time. -/
theorem switchFeedFollowsTheSevenSteps : Obligations.SwitchFeedFollowsTheSevenSteps := by
  intro s i raw t l hs ht hcand hstable hl f
  have hf : feedFilter s.cfg (s.sw.get i) raw t = f := feedFilter_eq_fed (hcand.trans ht) (hstable.trans ht) hl
  rw [← hf]
  exact exec_swFeed_eq_next_iff.mpr ⟨hs, ht, rfl⟩

end Sys2Proof.Machine
end

section
/-! PROOFS. O26: the commits of one switch are spaced by the sticky window (41 R180). -/

namespace Sys2Proof.Machine
open Stated

/-- One feed of a switch whose last commit is not after the time given: no commit, or one at `t`, a sticky window later. -/
theorem exec_swFeed_commit_cases {s s' : State} {i : Fin 2} {raw : Byte} {t : Nat} (h : exec (.swFeed i raw t) s = .next s')
    (hs : (s.sw.get i).tStable ≤ s.tLast) :
    s'.cfg = s.cfg ∧ (s'.sw.get i).tStable ≤ s'.tLast ∧
      ((s'.sw.get i).stable = (s.sw.get i).stable ∧ (s'.sw.get i).tStable = (s.sw.get i).tStable ∨
        (s'.sw.get i).stable ≠ (s.sw.get i).stable ∧ (s'.sw.get i).tStable = t ∧
          (s.sw.get i).tStable + s.cfg.swSticky ≤ t) := by
  obtain ⟨-, hle, rfl⟩ := exec_swFeed_eq_next_iff.mp h
  obtain ⟨g, hg, -, -, hcases⟩ := feedFilter_cases s.cfg (s.sw.get i) raw t
  simp only [Pair.get_set_same, hg]
  refine ⟨trivial, ?_⟩
  obtain ⟨hkept, htime⟩ | ⟨-, hchanged, htime, hsticky, -⟩ := hcases
  · exact ⟨by omega, .inl ⟨hkept, htime⟩⟩
  · exact ⟨by omega, .inr ⟨hchanged, htime, by omega⟩⟩

theorem commitTimes_cons_of_next {s s' : State} {i : Fin 2} {raw : Byte} {t : Nat} (feeds : List (Byte × Nat))
    (h : exec (.swFeed i raw t) s = .next s') :
    commitTimes i ((raw, t) :: feeds) s =
      if (s'.sw.get i).stable = (s.sw.get i).stable then commitTimes i feeds s' else t :: commitTimes i feeds s' := by
  rw [commitTimes, h]

theorem commitTimes_cons_of_not_next {s : State} {i : Fin 2} {raw : Byte} {t : Nat} (feeds : List (Byte × Nat))
    (h : ∀ s', exec (.swFeed i raw t) s ≠ .next s') : commitTimes i ((raw, t) :: feeds) s = [] := by
  rw [commitTimes]
  split
  next s' hs' => exact absurd hs' (h s')
  all_goals rfl

/-- From a last commit that is not after the time given, every commit is a sticky window after the one before it. -/
theorem isChain_commitTimes (i : Fin 2) (feeds : List (Byte × Nat)) (s : State)
    (hs : (s.sw.get i).tStable ≤ s.tLast) :
    ((s.sw.get i).tStable :: commitTimes i feeds s).IsChain (fun a b => a + s.cfg.swSticky ≤ b) := by
  induction feeds generalizing s with
  | nil => exact .singleton _
  | cons feed feeds ih =>
    obtain ⟨raw, t⟩ := feed
    by_cases hn : ∃ s', exec (.swFeed i raw t) s = .next s'
    · obtain ⟨s', h⟩ := hn
      obtain ⟨hcfg, hs', hcases⟩ := exec_swFeed_commit_cases h hs
      have hrest := ih s' hs'
      rw [commitTimes_cons_of_next feeds h]
      obtain ⟨hkept, htime⟩ | ⟨hchanged, htime, hsticky⟩ := hcases
      · rwa [if_pos hkept, ← hcfg, ← htime]
      · rw [if_neg hchanged]
        rw [hcfg, htime] at hrest
        exact .cons_cons hsticky hrest
    · rw [commitTimes_cons_of_not_next feeds (not_exists.mp hn)]
      exact .singleton _

/-- Settles O26: at the state given, whose last commit is the first of the list. -/
theorem commitsAreAStickyWindowApart : Obligations.CommitsAreAStickyWindowApart :=
  fun s i feeds _ hs => isChain_commitTimes i feeds s hs

end Sys2Proof.Machine
end

section
/-! SUPPORT. AXIS_MAP as an operation, and its five steps in the words of the statements (42 R191 to R198). -/

namespace Sys2Proof.Machine
open Stated

/-- AXIS_MAP in a run: it writes its lane's buffer and the result. -/
theorem exec_axisMap_inRun {s : State} (hs : s.inRun = true) (k : Fin 8) (raw : Int) :
    exec (.axisMap k raw) s =
      .next { s with fifo := s.fifo.set k (laneFifo s k raw), result := .number (laneValue s k raw) } :=
  whenInRun_inRun _ hs

/-- A natural number that is a byte saturates to itself (42 R191). -/
theorem saturate_natCast_toNat {v : Nat} (hv : v ≤ 255) : (saturate v).toNat = v := by
  have hclamp : clamp v 0 255 = v := by
    rw [clamp, if_neg (by omega), if_neg (by omega)]
  rw [saturate, hclamp, Int.toNat_natCast, BitVec.toNat_ofNat, Nat.mod_eq_of_lt (by omega)]

theorem pushFifo_zero (fifo : List Byte) (v : Byte) : pushFifo 0 fifo v = fifo := if_pos rfl

/-- The buffer after the push is the one of the statements (42 R192). -/
theorem pushFifo_eq_pushed (n : Nat) (fifo : List Byte) (v : Byte) :
    pushFifo n fifo v = if n = 0 then fifo else pushed n fifo v := by
  rw [pushFifo, pushed, List.drop_one]

theorem pushFifo_ne_nil {n : Nat} (hn : n ≠ 0) (fifo : List Byte) (v : Byte) : pushFifo n fifo v ≠ [] := by
  rw [pushFifo, if_neg hn]
  exact List.append_ne_nil_of_right_ne_nil _ (List.cons_ne_nil v [])

theorem sum_toNat_le (l : List Byte) : (l.map BitVec.toNat).sum ≤ 255 * l.length := by
  induction l with
  | nil => exact Nat.le_refl 0
  | cons b l ih =>
    have hb : b.toNat < 2 ^ 8 := b.isLt
    simp only [List.map_cons, List.sum_cons, List.length_cons]
    omega

/-- The rounded mean of bytes is in `0..255` (42 R192). -/
theorem roundedMean_le {fifo : List Byte} (h : fifo ≠ []) : roundedMean fifo ≤ 255 := by
  have hpos : 0 < fifo.length := List.length_pos_iff.mpr h
  have hsum := sum_toNat_le fifo
  exact Nat.le_of_lt_succ (Nat.div_lt_of_lt_mul (by omega))

theorem smoothed_zero (fifo : List Byte) (v : Byte) : smoothed 0 fifo v = v.toNat := if_pos rfl

theorem smoothed_le (n : Nat) (fifo : List Byte) (v : Byte) : smoothed n fifo v ≤ 255 := by
  unfold smoothed
  split
  next => exact Nat.le_of_lt_succ v.isLt
  next hn => exact roundedMean_le (pushFifo_ne_nil hn fifo v)

/-- The deadzone test without its doubled sides (42 R193). -/
theorem inDeadzone_iff (v dz : Nat) : inDeadzone v dz = true ↔ 128 ≤ v + dz ∧ v ≤ 127 + dz := by
  rw [inDeadzone, decide_eq_true_iff]
  omega

theorem snapped_eq (dz v : Nat) : snapped dz v = if 128 ≤ v + dz ∧ v ≤ 127 + dz then 128 else v := by
  simp only [snapped, inDeadzone_iff]

theorem snapped_inside {dz v : Nat} (h : 128 ≤ v + dz ∧ v ≤ 127 + dz) : snapped dz v = 128 :=
  (snapped_eq dz v).trans (if_pos h)

theorem snapped_outside {dz v : Nat} (h : v + dz < 128 ∨ 127 + dz < v) : snapped dz v = v :=
  (snapped_eq dz v).trans (if_neg (by omega))

/-- A value is snapped to 128, or is outside the deadzone and stays. -/
theorem snapped_cases (dz v : Nat) :
    (128 ≤ v + dz ∧ v ≤ 127 + dz) ∧ snapped dz v = 128 ∨ (v + dz < 128 ∨ 127 + dz < v) ∧ snapped dz v = v := by
  by_cases h : 128 ≤ v + dz ∧ v ≤ 127 + dz
  · exact .inl ⟨h, snapped_inside h⟩
  · have hout : v + dz < 128 ∨ 127 + dz < v := by omega
    exact .inr ⟨hout, snapped_outside hout⟩

theorem snapped_le {dz v : Nat} (hv : v ≤ 255) : snapped dz v ≤ 255 := by
  obtain ⟨-, h⟩ | ⟨-, h⟩ := snapped_cases dz v <;> omega

/-- The deadzone keeps the order: 128 is not below a value under the deadzone nor above one over it. -/
theorem snapped_mono (dz : Nat) : Monotone (snapped dz) := by
  intro v w hvw
  obtain ⟨hv, hv'⟩ | ⟨hv, hv'⟩ := snapped_cases dz v <;> obtain ⟨hw, hw'⟩ | ⟨hw, hw'⟩ := snapped_cases dz w <;> omega

theorem inverted_le {v : Nat} (inv : Bool) (hv : v ≤ 255) : inverted inv v ≤ 255 := by
  cases inv
  · exact hv
  · exact Nat.sub_le 255 v

/-- Table T2 is the scale formula evaluated (42 R198). -/
theorem scaleTable_eq_map_scaled : scaleTable = (List.range 256).map scaled := by decide +kernel

theorem scaleTable_getD {v : Nat} (hv : v ≤ 255) : scaleTable.getD v 0 = scaled v := by
  have hlt : v < 256 := by omega
  simp [scaleTable_eq_map_scaled, List.getD_eq_getElem?_getD, hlt]

theorem clampAxis_eq (y : Nat) : clampAxis y = max 1 (min y 32767) := by
  unfold clampAxis
  split
  · omega
  · split <;> omega

/-- Steps 3 to 5 on a byte are the lookup of the statements (42 R193 to R198). -/
theorem axisOutput_eq {v : Nat} (hv : v ≤ 255) (dz : Nat) (inv : Bool) :
    axisOutput dz inv v = clampAxis (scaled (inverted inv (snapped dz v))) := by
  rw [← scaleTable_getD (inverted_le inv (snapped_le hv)), clampAxis_eq, inverted, snapped_eq]
  rfl

/-- AXIS_MAP's result is the lookup of the smoothed value (42 R197). -/
theorem axisValue_eq_axisOutput (dz : Nat) (inv : Bool) (n : Nat) (fifo : List Byte) (raw : Int) :
    axisValue dz inv n fifo raw = axisOutput dz inv (smoothed n fifo (saturate raw)) :=
  (axisOutput_eq (smoothed_le n fifo (saturate raw)) dz inv).symm

end Sys2Proof.Machine
end

section
/-! PROOFS. O27 and O29: AXIS_MAP whole, and its lanes. -/

namespace Sys2Proof.Machine
open Stated

/-- Settles O27: the push and the mean are those of the statement, and the rest is the lookup in table T2. -/
theorem axisMapFollowsTheFiveSteps : Obligations.AxisMapFollowsTheFiveSteps := by
  intro s k raw hs n v fifo sum mean
  have hfifo : laneFifo s k raw = fifo := by
    rw [laneFifo, pushFifo_eq_pushed, saturate_eq_saturated]
  have hmean : smoothed n (s.fifo.get k) (saturate raw) = mean := by
    rw [smoothed, ← laneFifo, hfifo, saturate_eq_saturated]
    rfl
  rw [exec_axisMap_inRun hs, hfifo, laneValue, axisValue_eq_axisOutput, hmean]

/-- Settles O29: the value and the buffer written are functions of the lane's registers and the operand. -/
theorem axisLanesAreIndependent : Obligations.AxisLanesAreIndependent := by
  intro s u k raw hs hu hdz hinv hn hfifo
  have hvalue : laneValue s k raw = laneValue u k raw := by simp only [laneValue, hdz, hinv, hn, hfifo]
  have hbuffer : laneFifo s k raw = laneFifo u k raw := by simp only [laneFifo, hn, hfifo]
  refine ⟨_, _, exec_axisMap_inRun hs k raw, exec_axisMap_inRun hu k raw, ?_, ?_, fun j hj => ?_⟩
  · rw [hvalue]
  · simp only [Lanes.get_set_same, hbuffer]
  · exact Lanes.get_set_other _ _ _ _ hj

end Sys2Proof.Machine
end

section
/-! PROOFS. O28: the properties of AXIS_MAP's result without smoothing (42 R201). -/

namespace Sys2Proof.Machine
open Stated

/-- A run without smoothing in which every lane has this deadzone and inversion. -/
def unsmoothed (dz : Nat) (inv : Bool) : State :=
  { State.reset with
    loopState := .running
    cfg := { State.reset.cfg with dz := Lanes.all dz, inv := Lanes.all inv, n := Lanes.all 0 } }

/-- Without smoothing a byte maps to one value, steps 3 to 5 of it, in every lane of this deadzone and inversion. -/
theorem mapsTo_iff {v : Nat} (hv : v ≤ 255) (dz : Nat) (inv : Bool) (y : Nat) :
    MapsTo dz inv v y ↔ clampAxis (scaled (inverted inv (snapped dz v))) = y := by
  have hexec (s : State) (k : Fin 8) (hs : s.inRun = true) (hn : s.cfg.n.get k = 0) (hdz : s.cfg.dz.get k = dz)
      (hinv : s.cfg.inv.get k = inv) :
      exec (.axisMap k v) s =
        .next { s with result := .number (clampAxis (scaled (inverted inv (snapped dz v)))) } := by
    rw [exec_axisMap_inRun hs, laneFifo, laneValue, axisValue, hn, hdz, hinv, pushFifo_zero, Lanes.set_get, smoothed_zero,
      saturate_natCast_toNat hv]
  constructor
  · intro h
    have hnext := (hexec (unsmoothed dz inv) 0 rfl rfl rfl rfl).symm.trans (h (unsmoothed dz inv) 0 rfl rfl rfl rfl)
    exact Result.number.inj (congrArg State.result (Host.Outcome.next.inj hnext))
  · rintro rfl
    exact hexec

/-- Steps 5a and 5b keep the order. -/
theorem clampAxis_scaled_mono : Monotone fun v => clampAxis (scaled v) := by
  intro v w hvw
  have hscaled : scaled v ≤ scaled w := Nat.div_le_div_right (by omega)
  simp only [clampAxis_eq]
  omega

/-- No value scales to 16384, the middle of the range: 127 scales below it and 128 above. -/
theorem clampAxis_scaled_ne_16384 (v : Nat) : clampAxis (scaled v) ≠ 16384 := by
  obtain hv | hv := Nat.lt_or_ge v 128
  · have h : clampAxis (scaled v) ≤ 16319 := clampAxis_scaled_mono (Nat.le_of_lt_succ hv)
    omega
  · have h : 16448 ≤ clampAxis (scaled v) := clampAxis_scaled_mono hv
    omega

theorem mapsTo_in_range (dz : Nat) (inv : Bool) (v : Nat) (hv : v ≤ 255) : ∃ y, MapsTo dz inv v y ∧ 1 ≤ y ∧ y ≤ 32767 :=
  ⟨_, (mapsTo_iff hv dz inv _).mpr rfl, clampAxis_range _⟩

theorem not_mapsTo_16384 (dz : Nat) (inv : Bool) (v : Nat) (hv : v ≤ 255) : ¬ MapsTo dz inv v 16384 :=
  fun h => clampAxis_scaled_ne_16384 _ ((mapsTo_iff hv dz inv _).mp h)

/-- Inside the deadzone the result is that of 128, or of 127 on an inverted axis. -/
theorem mapsTo_inside {dz v : Nat} (inv : Bool) (hv : v ≤ 255) (h : 128 ≤ v + dz ∧ v ≤ 127 + dz) :
    MapsTo dz inv v (if inv then 16319 else 16448) := by
  rw [mapsTo_iff hv, snapped_inside h]
  revert inv
  decide

/-- Outside the deadzone the result is that of the value itself, inverted or not. -/
theorem mapsTo_outside_iff {dz v : Nat} (inv : Bool) (hv : v ≤ 255) (h : v + dz < 128 ∨ 127 + dz < v) (y : Nat) :
    MapsTo dz inv v y ↔ clampAxis (scaled (inverted inv v)) = y := by
  rw [mapsTo_iff hv, snapped_outside h]

/-- 128 maps to the centre for every deadzone: it is its own snap target. -/
theorem mapsTo_128 (dz : Nat) : MapsTo dz false 128 16448 := by
  obtain hdz | hdz := Nat.eq_zero_or_pos dz
  · exact (mapsTo_outside_iff false (by decide) (by omega) _).mpr (by decide)
  · exact mapsTo_inside false (by decide) (by omega)

theorem mapsTo_deadzone_one : MapsTo 1 false 127 16448 ∧ MapsTo 1 false 128 16448 ∧ MapsTo 1 false 129 16576 :=
  ⟨mapsTo_inside false (by decide) (by decide), mapsTo_128 1,
    (mapsTo_outside_iff false (by decide) (by decide) _).mpr (by decide)⟩

theorem mapsTo_deadzone_two (v : Nat) (hlo : 126 ≤ v) (hhi : v ≤ 129) : MapsTo 2 false v 16448 :=
  mapsTo_inside false (by omega) (by omega)

/-- The deadzone is symmetric about 127.5, so `255 - v` is outside it when `v` is. -/
theorem mapsTo_true_iff_of_outside (dz v : Nat) (hv : v ≤ 255) (h : v + dz < 128 ∨ 127 + dz < v) (y : Nat) :
    MapsTo dz true v y ↔ MapsTo dz false (255 - v) y :=
  (mapsTo_outside_iff true hv h y).trans (mapsTo_outside_iff false (Nat.sub_le 255 v) (by omega) y).symm

/-- Inside the deadzone the two results differ (90_conflicts C4). -/
theorem mapsTo_inversion_inside (dz v : Nat) (hv : v ≤ 255) (hlo : 128 ≤ v + dz) (hhi : v ≤ 127 + dz) :
    MapsTo dz true v 16319 ∧ MapsTo dz false (255 - v) 16448 :=
  ⟨mapsTo_inside true hv ⟨hlo, hhi⟩, mapsTo_inside false (Nat.sub_le 255 v) (by omega)⟩

theorem mapsTo_mono (dz v w y z : Nat) (hvw : v ≤ w) (hw : w ≤ 255) (hy : MapsTo dz false v y) (hz : MapsTo dz false w z) :
    y ≤ z := by
  rw [mapsTo_iff (hvw.trans hw)] at hy
  rw [mapsTo_iff hw] at hz
  rw [← hy, ← hz]
  exact clampAxis_scaled_mono (snapped_mono dz hvw)

theorem mapsTo_inverted_anti (dz v w y z : Nat) (hvw : v ≤ w) (hw : w ≤ 255) (hy : MapsTo dz true v y)
    (hz : MapsTo dz true w z) : z ≤ y := by
  rw [mapsTo_iff (hvw.trans hw)] at hy
  rw [mapsTo_iff hw] at hz
  rw [← hy, ← hz]
  exact clampAxis_scaled_mono (Nat.sub_le_sub_left (snapped_mono dz hvw) 255)

/-- A deadzone of at most 127 leaves 0 and 255 outside. -/
theorem mapsTo_extremes (dz : Nat) (hdz : dz ≤ 127) :
    MapsTo dz false 0 1 ∧ MapsTo dz false 255 32767 ∧ MapsTo dz true 0 32767 ∧ MapsTo dz true 255 1 := by
  have hlow : 0 + dz < 128 ∨ 127 + dz < 0 := by omega
  have hhigh : 255 + dz < 128 ∨ 127 + dz < 255 := by omega
  refine ⟨?_, ?_, ?_, ?_⟩
  · exact (mapsTo_outside_iff false (by decide) hlow _).mpr (by decide)
  · exact (mapsTo_outside_iff false (by decide) hhigh _).mpr (by decide)
  · exact (mapsTo_outside_iff true (by decide) hlow _).mpr (by decide)
  · exact (mapsTo_outside_iff true (by decide) hhigh _).mpr (by decide)

/-- Settles O28, property by property. -/
theorem axisResultsHaveTheStatedProperties : Obligations.AxisResultsHaveTheStatedProperties :=
  ⟨mapsTo_in_range, mapsTo_128, not_mapsTo_16384, mapsTo_deadzone_one, mapsTo_deadzone_two, mapsTo_true_iff_of_outside,
    mapsTo_inversion_inside, mapsTo_mono, mapsTo_inverted_anti, mapsTo_extremes⟩

end Sys2Proof.Machine
end

section
/-! SUPPORT. The operations of the loop in a run, each as one equation, and their answers in the words of the statements (43
R210 to R225). -/

namespace Sys2Proof.Machine
open Stated

theorem not_answersOk {l : List Bool} (h : headAnswer l = false) : ¬ answersOk l := Bool.eq_false_iff.mp h

theorem neutralEvent_eq : neutralEvent = neutral := rfl

/-- The stop sequence as an operation is the one of the statements (43 R225). -/
theorem stopRun_ret (cause : Code) (s : State) : (stopRun cause s).ret .none = stoppedBy cause s := by
  rw [stopRun_eq, stoppedBy, List.append_assoc]
  rfl

/-- LOOP_STOP in a run. -/
theorem exec_loopStop {s : State} (hs : s.inRun = true) (cause : Code) :
    exec (.loopStop cause) s = .next (stoppedBy cause s) :=
  (whenInRun_inRun _ hs).trans (congrArg _ (stopRun_ret cause s))

/-- LOOP_ITER in a run that is cancelled (43 R213). -/
theorem exec_loopIter_of_cancel {s : State} (hs : s.inRun = true) (hc : s.env.cancel = true) :
    exec .loopIter s = .next (stoppedBy .none s) :=
  (whenInRun_inRun _ hs).trans ((if_pos hc).trans (congrArg _ (stopRun_ret .none s)))

/-- LOOP_ITER in a run that is not cancelled, its time not going back (43 R212). -/
theorem exec_loopIter_of_le {s : State} (hs : s.inRun = true) (hc : s.env.cancel = false) (ht : s.tLast ≤ s.env.clock) :
    exec .loopIter s =
      .next ((afterDecode (callDecode s).1 s.env.clock { (callDecode s).2 with tLast := s.env.clock }).ret .none) := by
  rw [← callDecode_tLast] at ht
  change execLoopIter s = _
  unfold execLoopIter
  rw [whenInRun_inRun _ hs, hc, if_neg Bool.false_ne_true, atTime_of_le _ ht]

/-- PROCESS_FRAME in a run, the time given not going back. -/
theorem exec_processFrame {s : State} {t : Nat} (hs : s.inRun = true) (ht : s.tLast ≤ t) (f : Frame) :
    exec (.processFrame f t) s = .next ((processFrame f t { s with tLast := t }).ret .none) :=
  (whenInRun_inRun _ hs).trans (atTime_of_le _ ht)

theorem exec_edgeTaps {s : State} (hs : s.inRun = true) (st : Pair Bool) :
    exec (.edgeTaps st) s = .next ((edgeTaps st s).ret .none) :=
  whenInRun_inRun _ hs

theorem exec_neutralPush {s : State} (hs : s.inRun = true) : exec .neutralPush s = .next ((neutralPush s).ret .none) :=
  whenInRun_inRun _ hs

/-- OBS_PUBLISH in a run, the time given not going back. -/
theorem exec_obsPublish {s : State} {t : Nat} (hs : s.inRun = true) (ht : s.tLast ≤ t) :
    exec (.obsPublish t) s = .next ((obsPublish t { s with tLast := t }).ret .none) :=
  (whenInRun_inRun _ hs).trans (atTime_of_le _ ht)

/-- LOOP_START is refused while a run is in progress, whatever the configuration (93 U7). -/
theorem exec_loopStart_of_not_canStart {s : State} (hs : ¬ s.canStart = true) :
    exec .loopStart s = .refused .startInRun :=
  if_pos (by simpa using hs)

/-- LOOP_START is refused outside a run with an ill-formed configuration (93 U8). -/
theorem exec_loopStart_of_illFormed {s : State} (hs : s.canStart = true) (hc : ¬ WellFormed s.params s.env.hostCfg) :
    exec .loopStart s = .refused .illFormedConfig := by
  rw [← wellFormedConfig_iff] at hc
  exact (if_neg (by simpa using hs)).trans (if_pos (by simpa using hc))

/-- The observer's test with no subtraction of times (43 R224). -/
theorem obsDue_iff {now tObs : Nat} (h : tObs ≤ now) (interval : Nat) :
    obsDue now tObs interval = true ↔ tObs + interval ≤ now := by
  rw [obsDue, decide_eq_true_iff]
  omega

theorem obsPublish_of_due {now : Nat} {s : State} (h : s.tObs ≤ now) (hdue : s.tObs + s.cfg.obsInterval ≤ now) :
    obsPublish now s = afterObserver now s :=
  if_pos ((obsDue_iff h _).mpr hdue)

theorem obsPublish_of_not_due {now : Nat} {s : State} (h : s.tObs ≤ now) (hdue : now < s.tObs + s.cfg.obsInterval) :
    obsPublish now s = s :=
  if_neg (mt (obsDue_iff h _).mp (Nat.not_le.mpr hdue))

/-- One switch of EDGE_TAPS that is due (43 R217): the tap, and its diagnostic when it fails. -/
theorem edgeTap_of_due {i : Fin 2} {st : Pair Bool} {s : State} (h : tapDue i st s) :
    edgeTap i (st.get i) s = afterTap (tapKey i st s) s := by
  have hdue : (!s.firstSeen || st.get i != s.lastEmitted.get i) = true := by simpa [tapDue] using h
  rw [edgeTap, if_pos hdue, callKeyTap_eq, afterTap]
  unfold headAnswer
  generalize s.env.keyAns.headD true = ok
  cases ok with
  | true => rfl
  | false =>
    simp only [State.emit, List.append_assoc]
    rfl

theorem edgeTap_of_not_due {i : Fin 2} {st : Pair Bool} {s : State} (h : ¬ tapDue i st s) : edgeTap i (st.get i) s = s :=
  if_neg (by simpa [tapDue] using h)

theorem edgeTaps_eq (st : Pair Bool) (s : State) : edgeTaps st s = edgeTap 1 (st.get 1) (edgeTap 0 (st.get 0) s) := rfl

/-- The tap of one switch makes no other due (43 R217: no register is written). -/
theorem tapDue_afterTap (i : Fin 2) (st : Pair Bool) (name : KeyName) (s : State) :
    tapDue i st (afterTap name s) ↔ tapDue i st s :=
  Iff.rfl

end Sys2Proof.Machine
end

section
/-! PROOFS. O31, O32, O33, O37 to O40: LOOP_START's failures and refusals, the stop sequence, and the parts of an iteration
asked for alone. -/

namespace Sys2Proof.Machine
open Stated

/-- Settles O31: the first two cases of an accepted start. -/
theorem failedStartsReportAndRelease : Obligations.FailedStartsReportAndRelease := by
  intro s fm hs hc hfm
  rw [exec_loopStart_of_wellFormed ((State.canStart_iff s).mpr hs) hc]
  obtain ⟨hacquire, h⟩ | ⟨hacquire, hopen, h⟩ | ⟨hacquire, hopen, -⟩ := acceptStart_cases s
  · refine ⟨fun _ => ?_, fun hok => absurd hok (not_answersOk hacquire)⟩
    rw [h, hfm, failStart, State.emit, List.append_assoc]
    rfl
  · refine ⟨fun hno => absurd hacquire hno, fun _ _ => ?_⟩
    rw [h, hfm, failStart, State.emit]
    simp only [List.append_assoc]
    rfl
  · exact ⟨fun hno => absurd hacquire hno, fun _ hno => absurd hopen hno⟩

/-- Settles O32: whether a run can start is tested before the configuration. -/
theorem loopStartIsRefusedExactlyWhenTold : Obligations.LoopStartIsRefusedExactlyWhenTold := by
  intro s
  rw [← not_or, ← State.canStart_iff]
  exact ⟨exec_loopStart_of_not_canStart, fun hs =>
    ⟨exec_loopStart_of_illFormed hs, fun hc => ⟨_, exec_loopStart_of_wellFormed hs hc⟩⟩⟩

/-- Settles O33: the level is read before anything else of the iteration. -/
theorem cancellationStopsTheIteration : Obligations.CancellationStopsTheIteration :=
  fun _ hs hc => exec_loopIter_of_cancel hs hc

/-- Settles O37: each switch is due or not, and the tap of switch 0 leaves switch 1 as it was. -/
theorem edgeTapsTapOnChange : Obligations.EdgeTapsTapOnChange := by
  intro s st hs
  rw [exec_edgeTaps hs, edgeTaps_eq]
  refine ⟨fun h0 h1 => ?_, fun h0 h1 => ?_, fun h0 h1 => ?_, fun h0 h1 => ?_⟩
  · rw [edgeTap_of_not_due h0, edgeTap_of_not_due h1]
    rfl
  · rw [edgeTap_of_due h0, edgeTap_of_not_due ((tapDue_afterTap 1 st _ s).not.mpr h1)]
    rfl
  · rw [edgeTap_of_not_due h0, edgeTap_of_due h1]
    rfl
  · rw [edgeTap_of_due h0, edgeTap_of_due ((tapDue_afterTap 1 st _ s).mpr h1)]
    rfl

/-- Settles O38: the sink takes the push, or the run stops after it. -/
theorem neutralPushPushesOnceOrStops : Obligations.NeutralPushPushesOnceOrStops := by
  intro s hs
  rw [exec_neutralPush hs]
  obtain ⟨hans, h⟩ | ⟨hans, h⟩ := neutralPush_cases s <;> rw [h]
  · exact ⟨fun _ => rfl, fun hno => absurd hans hno⟩
  · exact ⟨fun hok => absurd hok (not_answersOk hans), fun _ => congrArg _ (stopRun_ret _ _)⟩

/-- Settles O39: the premise on `t_obs` makes the model's subtraction of times the comparison of the statement. -/
theorem observerPublishesWhenDue : Obligations.ObserverPublishesWhenDue := by
  intro s t hs ht hobs
  have hobs' : s.tObs ≤ t := hobs.trans ht
  rw [exec_obsPublish hs ht]
  refine ⟨fun hdue => ?_, fun hdue => ?_⟩
  · rw [obsPublish_of_due (s := { s with tLast := t }) hobs' hdue]
    rfl
  · rw [obsPublish_of_not_due (s := { s with tLast := t }) hobs' hdue]
    rfl

/-- Settles O40: the stop sequence is the one that `stopRun_eq` says. -/
theorem loopStopNeutralisesAndReleases : Obligations.LoopStopNeutralisesAndReleases :=
  fun _ cause hs => exec_loopStop hs cause

end Sys2Proof.Machine
end

section
/-! SUPPORT. The parts of an iteration do not read the last result (log entry 5), and the branches of the idle branch, one
equation each (43 R219 to R223). -/

namespace Sys2Proof.Machine
open Stated

theorem callSinkUpdate_of_ret (axis : Lanes Nat) (btn : Pair Bool) (s : State) (r : Result) :
    callSinkUpdate axis btn (s.ret r) = ((callSinkUpdate axis btn s).1, (callSinkUpdate axis btn s).2.ret r) := rfl

theorem stopRun_of_ret (cause : Code) (s : State) (r : Result) : stopRun cause (s.ret r) = (stopRun cause s).ret r := by
  rw [stopRun_eq, stopRun_eq]
  rfl

theorem edgeTap_of_ret (i : Fin 2) (on : Bool) (s : State) (r : Result) :
    edgeTap i on (s.ret r) = (edgeTap i on s).ret r := by
  unfold edgeTap
  rw [apply_ite (State.ret · r), callKeyTap_eq, callKeyTap_eq]
  dsimp only
  rw [apply_ite (State.ret · r)]
  rfl

theorem edgeTaps_of_ret (st : Pair Bool) (s : State) (r : Result) : edgeTaps st (s.ret r) = (edgeTaps st s).ret r := by
  rw [edgeTaps, edgeTaps, edgeTap_of_ret, edgeTap_of_ret]

theorem obsPublish_of_ret (now : Nat) (s : State) (r : Result) :
    obsPublish now (s.ret r) = (obsPublish now s).ret r := by
  unfold obsPublish
  rw [apply_ite (State.ret · r)]
  rfl

theorem processFrame_of_ret (f : Frame) (now : Nat) (s : State) (r : Result) :
    processFrame f now (s.ret r) = (processFrame f now s).ret r := by
  have hc : conditioned f now (s.ret r) = (conditioned f now s).ret r := rfl
  unfold processFrame
  dsimp only
  rw [hc, callSinkUpdate_of_ret]
  dsimp only
  rw [apply_ite (State.ret · r), fatal_eq_stopRun, fatal_eq_stopRun, stopRun_of_ret, edgeTaps_of_ret, ← obsPublish_of_ret]
  rfl

theorem neutralPush_of_ret (s : State) (r : Result) : neutralPush (s.ret r) = (neutralPush s).ret r := by
  unfold neutralPush callNeutral
  rw [callSinkUpdate_of_ret]
  dsimp only
  rw [apply_ite (State.ret · r), fatal_eq_stopRun, fatal_eq_stopRun, stopRun_of_ret]

theorem idleBranch_of_le {now : Nat} {s : State} (h : now ≤ s.tLastFrame + s.cfg.idleThreshold) : idleBranch now s = s :=
  if_neg (by rw [idleElapsed, decide_eq_true_iff]; omega)

theorem idleBranch_of_lt {now : Nat} {s : State} (h : s.tLastFrame + s.cfg.idleThreshold < now) :
    idleBranch now s = neutralPush (idleDiag now s) :=
  if_pos (by rw [idleElapsed, decide_eq_true_iff]; omega)

/-- The entry into the idle state (43 R223). -/
theorem idleDiag_of_running {now : Nat} {s : State} (h : s.loopState = .running) :
    idleDiag now s = { s with loopState := .timeoutNeutral, tIdleDiag := now, out := s.out ++ [.diag .idleTimeout] } :=
  if_pos h

/-- The test of the idle diagnostic with no subtraction of times (43 R219). -/
theorem idleDiagDue_iff {now tIdleDiag : Nat} (h : tIdleDiag ≤ now) (interval : Nat) :
    idleDiagDue now tIdleDiag interval = true ↔ tIdleDiag + interval ≤ now := by
  rw [idleDiagDue, decide_eq_true_iff]
  omega

theorem idleDiag_of_due {now : Nat} {s : State} (hs : s.loopState ≠ .running) (ht : s.tIdleDiag ≤ now)
    (h : s.tIdleDiag + s.cfg.idleDiagInterval ≤ now) :
    idleDiag now s = { s with tIdleDiag := now, out := s.out ++ [.diag .idleTimeout] } :=
  (if_neg hs).trans (if_pos ((idleDiagDue_iff ht _).mpr h))

theorem idleDiag_of_not_due {now : Nat} {s : State} (hs : s.loopState ≠ .running) (ht : s.tIdleDiag ≤ now)
    (h : now < s.tIdleDiag + s.cfg.idleDiagInterval) : idleDiag now s = s :=
  (if_neg hs).trans (if_neg (mt (idleDiagDue_iff ht _).mp (Nat.not_le.mpr h)))

/-- A decode call without a frame leads to the idle branch (43 R212). -/
theorem afterDecode_of_noFrame {r : CallResult} (h : NoFrame r) (now : Nat) (s : State) :
    afterDecode r now s = idleBranch now s := by
  obtain rfl | ⟨code, rfl⟩ := h <;> rfl

/-- The decode call writes no register of the loop (40 R146). -/
theorem callDecode_loopRegisters (s : State) :
    (callDecode s).2.loopState = s.loopState ∧ (callDecode s).2.cfg = s.cfg ∧
      (callDecode s).2.tLastFrame = s.tLastFrame ∧ (callDecode s).2.tIdleDiag = s.tIdleDiag := by
  obtain ⟨_, _, _, _, h, -⟩ := callDecode_step s
  rw [h]
  exact ⟨rfl, rfl, rfl, rfl⟩

/-- PROCESS_FRAME does what it does whatever was returned last. -/
theorem exec_processFrame_of_ret {s : State} {t : Nat} (hs : s.inRun = true) (ht : s.tLast ≤ t) (f : Frame) (r : Result) :
    exec (.processFrame f t) (s.ret r) = .next ((processFrame f t { s with tLast := t }).ret .none) := by
  have ht' : { s.ret r with tLast := t } = { s with tLast := t }.ret r := rfl
  rw [exec_processFrame (s := s.ret r) hs ht, ht', processFrame_of_ret, State.ret_ret]

/-- OBS_PUBLISH at the last time given does what it does whatever was returned last. -/
theorem exec_obsPublish_of_ret {s : State} {t : Nat} (hs : s.inRun = true) (ht : s.tLast = t) (r : Result) :
    exec (.obsPublish t) (s.ret r) = .next ((obsPublish t s).ret .none) := by
  subst ht
  have hsame : { s.ret r with tLast := s.tLast } = s.ret r := rfl
  refine (exec_obsPublish (s := s.ret r) hs le_rfl).trans ?_
  rw [State.ret_tLast, hsame, obsPublish_of_ret, State.ret_ret]

/-- NEUTRAL_PUSH does what it does whatever was returned last. -/
theorem exec_neutralPush_of_ret {s : State} (hs : s.inRun = true) (r : Result) :
    exec .neutralPush (s.ret r) = .next ((neutralPush s).ret .none) := by
  rw [exec_neutralPush (s := s.ret r) hs, neutralPush_of_ret, State.ret_ret]

/-- DECODE_CALL in a run, by the call LOOP_ITER makes too. -/
theorem exec_decodeCall_eq_callDecode {s : State} (hs : s.inRun = true) :
    exec .decodeCall s = .next ((callDecode s).2.ret (.call (callDecode s).1)) :=
  exec_decodeCall hs

end Sys2Proof.Machine
end

section
/-! PROOFS. O34 and O36: an iteration and a processed frame, by the operations they are made of. -/

namespace Sys2Proof.Machine
open Stated

/-- Settles O36: the operations' own equations name the axis values, the buffers and the filters; the sink takes the snapshot
or the run stops. -/
theorem processFrameIsItsOperationsInOrder : Obligations.ProcessFrameIsItsOperationsInOrder := by
  intro s f t hs ht
  refine ⟨frameAxes f s, (conditioned f t s).fifo, (conditioned f t s).sw, fun k => ?_, fun i => ?_, ?_⟩
  · rw [exec_axisMap_inRun hs, frameAxes, conditioned, Lanes.get_ofFn, Lanes.get_ofFn]
  · have hsw : (conditioned f t s).sw.get i = feedFilter s.cfg (s.sw.get i) (f.swRaw.get i) t := by fin_cases i <;> rfl
    rw [hsw]
    exact exec_swFeed_eq_next_iff.mpr ⟨hs, ht, rfl⟩
  · intro st u
    have hu : u.inRun = true := hs
    rw [exec_processFrame hs ht]
    obtain ⟨hans, h⟩ | ⟨hans, h⟩ := processFrame_cases f t { s with tLast := t } <;> rw [h]
    · refine ⟨fun _ => congrArg _ (stopRun_ret _ u), fun hok => absurd hok (not_answersOk hans)⟩
    · have htaps : (edgeTaps st u).tLast = t := by
        obtain ⟨_, _, htaps, -⟩ := edgeTaps_step st u
        exact congrArg State.tLast htaps
      exact ⟨fun hno => absurd hans hno, fun _ => ⟨_, _, exec_edgeTaps hu st,
        exec_obsPublish_of_ret (s := bookFrame f st t (edgeTaps st u)) rfl htaps .none, rfl⟩⟩

/-- Settles O34: after the decode call and the time sample, the branch taken is the operation asked for alone, which does not
read what the decode call returned. -/
theorem iterationDecodesThenBranches : Obligations.IterationDecodesThenBranches := by
  intro s hs hc hdiag
  refine ⟨_, _, exec_decodeCall_eq_callDecode hs, rfl, execLoopIter_of_lt hs hc, fun ht => ?_⟩
  rw [exec_loopIter_of_le hs hc ht]
  have htLast := (callDecode_tLast s).trans_le ht
  obtain ⟨hstate, hcfg, hlast, hidleDiag⟩ := callDecode_loopRegisters s
  generalize (callDecode s).2 = d at *
  generalize (callDecode s).1 = r
  have hd : d.inRun = true := by rwa [State.inRun, hstate]
  have hdiag' : d.tIdleDiag ≤ s.env.clock := by rw [hidleDiag]; exact hdiag.trans ht
  rw [← hstate, ← hcfg, ← hlast, ← hidleDiag]
  refine ⟨fun f hf => ?_, fun hr hle => ?_, fun hr hlt => ?_⟩
  · rw [hf]
    exact (exec_processFrame_of_ret hd htLast f _).symm
  · rw [afterDecode_of_noFrame hr, idleBranch_of_le (s := { d with tLast := s.env.clock }) hle]
    rfl
  · rw [afterDecode_of_noFrame hr, idleBranch_of_lt (s := { d with tLast := s.env.clock }) hlt]
    refine ⟨fun hrun => ?_, fun hidle hdue => ?_, fun hidle hdue => ?_⟩
    · rw [idleDiag_of_running (s := { d with tLast := s.env.clock }) hrun]
      exact (exec_neutralPush_of_ret rfl _).symm
    · rw [idleDiag_of_due (s := { d with tLast := s.env.clock }) (by simp [hidle]) hdiag' hdue]
      exact (exec_neutralPush_of_ret (by exact hd) _).symm
    · rw [idleDiag_of_not_due (s := { d with tLast := s.env.clock }) (by simp [hidle]) hdiag' hdue]
      exact (exec_neutralPush_of_ret (by exact hd) _).symm

end Sys2Proof.Machine
end

section
/-! SUPPORT. Whole iterations by what their decode call gave (43 R212), seen from the state they start in. -/

namespace Sys2Proof.Machine
open Stated

theorem callGives_iff {s : State} (hs : s.inRun = true) (r : CallResult) : CallGives s r ↔ (callDecode s).1 = r := by
  simp [CallGives, exec_decodeCall_eq_callDecode hs]

theorem frame_or_noFrame (r : CallResult) : (∃ f, r = .frame f) ∨ NoFrame r := by
  cases r with
  | frame f => exact .inl ⟨f, rfl⟩
  | empty => exact .inr (.inl rfl)
  | dropped code => exact .inr (.inr ⟨code, rfl⟩)

theorem failureEvents_eq : failureEvents = failureTail := rfl

/-- An observer snapshot or none, and the time of the last one after it (43 R224). -/
def ObserverShows (s : State) (tObs : Nat) (obs : List Event) : Prop :=
  obs = [] ∧ tObs = s.tObs ∨
    (∃ pot raw st cal, obs = [.obsPublish pot raw st cal]) ∧ tObs = s.env.clock ∧
      s.cfg.obsInterval ≤ s.env.clock - s.tObs

/-- An iteration whose decode call gives a frame: the sink takes its snapshot, or the run stops (43 R215, R216). -/
theorem exec_loopIter_of_frame {s : State} {f : Frame} (hs : s.inRun = true) (hc : s.env.cancel = false)
    (ht : s.tLast ≤ s.env.clock) (hf : (callDecode s).1 = .frame f) :
    ∃ t axis btn, exec .loopIter s = .next t ∧ t.tIdleDiag = s.tIdleDiag ∧
      (answersOk s.env.sinkAns ∧ t.loopState = .running ∧ (∃ g0 g1 obs, TapEvents g0 ∧ TapEvents g1 ∧
          ObserverShows s t.tObs obs ∧ t.out = s.out ++ .sinkUpdate axis btn :: (g0 ++ g1 ++ obs)) ∨
        ¬ answersOk s.env.sinkAns ∧ t.loopState = .stopped ∧ t.tObs = s.tObs ∧
          t.out = s.out ++ .sinkUpdate axis btn :: failureTail) := by
  obtain ⟨d, c, evs, q, hcall, -, hevs, -⟩ := callDecode_events s
  obtain rfl := hevs f hf
  rw [exec_loopIter_of_le hs hc ht, hf, hcall, List.append_nil]
  let u : State := { s with dec := d, diagCount := c, env := { s.env with rxq := q }, tLast := s.env.clock }
  obtain ⟨fifo, sw, st, -, -, hans⟩ := processFrame_whole f s.env.clock u
  refine ⟨(processFrame f s.env.clock u).ret .none, frameAxes f u, st, rfl, ?_⟩
  obtain ⟨hok, g0, g1, obs, _, _, h0, h1, hobs, h⟩ | ⟨hno, h⟩ := hans <;> rw [h]
  · exact ⟨rfl, .inl ⟨hok, rfl, g0, g1, obs, h0, h1, hobs, rfl⟩⟩
  · exact ⟨rfl, .inr ⟨not_answersOk hno, rfl, rfl, rfl⟩⟩

/-- An idle diagnostic or none, and the time of the last one after it (43 R219, R223). -/
def IdleShows (s : State) (tIdleDiag : Nat) (idle : List Event) : Prop :=
  s.loopState = .running ∧ tIdleDiag = s.env.clock ∧ idle = [.diag .idleTimeout] ∨
    s.loopState = .timeoutNeutral ∧
      (tIdleDiag = s.env.clock ∧ idle = [.diag .idleTimeout] ∧ s.cfg.idleDiagInterval ≤ s.env.clock - s.tIdleDiag ∨
        tIdleDiag = s.tIdleDiag ∧ idle = [])

/-- What an iteration without a frame leaves alone (43 R220): the filters, the buffers and the bookkeeping. -/
structure KeptInSilence (s t : State) : Prop where
  sw : t.sw = s.sw
  fifo : t.fifo = s.fifo
  lastEmitted : t.lastEmitted = s.lastEmitted
  firstSeen : t.firstSeen = s.firstSeen
  lastFrame : t.lastFrame = s.lastFrame
  tLastFrame : t.tLastFrame = s.tLastFrame
  tObs : t.tObs = s.tObs

/-- An iteration whose decode call gives no frame: nothing more, or the idle diagnostic and the neutral snapshot, which the
sink takes or the run stops (43 R219 to R223). -/
theorem exec_loopIter_of_noFrame {s : State} (hs : s.inRun = true) (hc : s.env.cancel = false)
    (ht : s.tLast ≤ s.env.clock) (hr : NoFrame (callDecode s).1) :
    ∃ t drop, exec .loopIter s = .next t ∧ KeptInSilence s t ∧ DropEvents drop ∧
      (s.env.clock ≤ s.tLastFrame + s.cfg.idleThreshold ∧ t.loopState = s.loopState ∧ t.tIdleDiag = s.tIdleDiag ∧
          t.out = s.out ++ drop ∨
        s.tLastFrame + s.cfg.idleThreshold < s.env.clock ∧ ∃ idle, IdleShows s t.tIdleDiag idle ∧
          (answersOk s.env.sinkAns ∧ t.loopState = .timeoutNeutral ∧ t.out = s.out ++ (drop ++ idle ++ [neutral]) ∨
            ¬ answersOk s.env.sinkAns ∧ t.loopState = .stopped ∧
              t.out = s.out ++ (drop ++ idle ++ [neutral] ++ failureTail))) := by
  obtain ⟨d, c, drop, q, hcall, hdrop, -⟩ := callDecode_events s
  rw [exec_loopIter_of_le hs hc ht, afterDecode_of_noFrame hr, hcall]
  let u : State :=
    { s with
      dec := d, diagCount := c, out := s.out ++ drop, env := { s.env with rxq := q }, tLast := s.env.clock }
  refine ⟨(idleBranch s.env.clock u).ret .none, drop, rfl, ?_⟩
  obtain ⟨hle, h⟩ | ⟨hlt, ls, ti, idle, hls, hans⟩ := idleBranch_cases s.env.clock u
  · rw [h]
    exact ⟨⟨rfl, rfl, rfl, rfl, rfl, rfl, rfl⟩, hdrop, .inl ⟨hle, rfl, rfl, rfl⟩⟩
  · obtain ⟨hstate, hidle⟩ : ls = .timeoutNeutral ∧ IdleShows s ti idle := by
      obtain ⟨hrun, hls, hidle⟩ | ⟨hrun, hls, hidle⟩ := hls
      · exact ⟨hls, .inl ⟨hrun, hidle⟩⟩
      · have htimeout : s.loopState = .timeoutNeutral := ((State.inRun_iff s).mp hs).resolve_left hrun
        exact ⟨hls.trans htimeout, .inr ⟨htimeout, hidle⟩⟩
    obtain ⟨hans, h⟩ | ⟨hans, h⟩ := hans <;> rw [h]
    · exact ⟨⟨rfl, rfl, rfl, rfl, rfl, rfl, rfl⟩, hdrop,
        .inr ⟨hlt, idle, hidle, .inl ⟨hans, hstate, by simp [u, neutralEvent_eq]⟩⟩⟩
    · exact ⟨⟨rfl, rfl, rfl, rfl, rfl, rfl, rfl⟩, hdrop,
        .inr ⟨hlt, idle, hidle, .inr ⟨not_answersOk hans, rfl, by simp [u, neutralEvent_eq, failureEvents_eq]⟩⟩⟩

end Sys2Proof.Machine
end

section
/-! PROOFS. O35: the transition table. -/

namespace Sys2Proof.Machine
open Stated

theorem DropEvents.dropDiag {evs : List Event} (h : DropEvents evs) : DropDiag evs := by
  obtain rfl | ⟨code, hcode, rfl⟩ := h
  · exact .inl rfl
  · exact .inr ⟨code, by simpa [dropCodes, IsDropCode] using hcode, rfl⟩

/-- In the idle state the silence has lasted longer than the threshold (43 R219), so an iteration within it is in
`Running`. -/
theorem Inv.running_of_le_idleThreshold {s : State} (h : Inv s) (hs : s.inRun = true) (ht : s.tLast ≤ s.env.clock)
    (hle : s.env.clock ≤ s.tLastFrame + s.cfg.idleThreshold) : s.loopState = .running := by
  obtain hrun | hidle := (State.inRun_iff s).mp hs
  · exact hrun
  · have hsilence := (h.run hs).idleMeansSilence hidle
    omega

/-- The rows of an iteration that processes a frame. -/
theorem exec_loopIter_frame_row {s : State} {f : Frame} (hs : s.inRun = true) (hc : s.env.cancel = false)
    (ht : s.tLast ≤ s.env.clock) (hf : (callDecode s).1 = .frame f) :
    ∃ t evs, exec .loopIter s = .next t ∧ t.out = s.out ++ evs ∧ IterRow s t.loopState evs := by
  have hgives := (callGives_iff hs _).mpr hf
  obtain ⟨t, axis, btn, hexec, -, ⟨hok, hstate, g0, g1, obs, h0, h1, hobs, hout⟩ | ⟨hno, hstate, -, hout⟩⟩ :=
    exec_loopIter_of_frame hs hc ht hf
  all_goals
    refine ⟨t, _, hexec, hout, ?_⟩
    rw [hstate]
  · exact .frame f _ hc hgives hok ⟨axis, btn, g0, g1, obs, rfl, h0, h1, hobs.imp And.left And.left⟩
  · exact .frameSinkFails f axis btn hc hgives hno

/-- The rows of the entry into the idle state and of the idle state itself, by what the sink answers. -/
theorem IdleShows.iterRow {s : State} {ti : Nat} {drop idle : List Event} (hidle : IdleShows s ti idle)
    (hc : s.env.cancel = false) {r : CallResult} (hgives : CallGives s r) (hr : NoFrame r)
    (hlt : s.tLastFrame + s.cfg.idleThreshold < s.env.clock) (hdrop : DropDiag drop) :
    (answersOk s.env.sinkAns → IterRow s .timeoutNeutral (drop ++ idle ++ [neutral])) ∧
    (¬ answersOk s.env.sinkAns → IterRow s .stopped (drop ++ idle ++ [neutral] ++ failureTail)) := by
  obtain ⟨hrun, -, rfl⟩ | ⟨htimeout, hidle⟩ := hidle
  · rw [List.append_assoc drop]
    exact ⟨fun hok => .idleEntry r drop hrun hc hgives hr hlt hok hdrop,
      fun hno => .idleEntrySinkFails r drop hrun hc hgives hr hlt hno hdrop⟩
  · have hshown : idle = [] ∨ idle = [.diag .idleTimeout] := by
      obtain ⟨-, hshown, -⟩ | ⟨-, hshown⟩ := hidle
      · exact .inr hshown
      · exact .inl hshown
    exact ⟨fun hok => .idle r drop idle htimeout hc hgives hr hok hdrop hshown,
      fun hno => .idleSinkFails r drop idle htimeout hc hgives hr hno hdrop hshown⟩

/-- The rows of an iteration without a frame. -/
theorem exec_loopIter_noFrame_row {s : State} (hinv : Inv s) (hs : s.inRun = true) (hc : s.env.cancel = false)
    (ht : s.tLast ≤ s.env.clock) (hr : NoFrame (callDecode s).1) :
    ∃ t evs, exec .loopIter s = .next t ∧ t.out = s.out ++ evs ∧ IterRow s t.loopState evs := by
  have hgives := (callGives_iff hs _).mpr rfl
  obtain ⟨t, drop, hexec, -, hdrop, hcases⟩ := exec_loopIter_of_noFrame hs hc ht hr
  obtain ⟨hle, hstate, -, hout⟩ | ⟨hlt, idle, hidle, hans⟩ := hcases
  · have hrun := hinv.running_of_le_idleThreshold hs ht hle
    refine ⟨t, drop, hexec, hout, ?_⟩
    rw [hstate, hrun]
    exact .quiet _ drop hrun hc hgives hr hle hdrop.dropDiag
  · obtain ⟨htaken, hrefused⟩ := hidle.iterRow hc hgives hr hlt hdrop.dropDiag
    obtain ⟨hok, hstate, hout⟩ | ⟨hno, hstate, hout⟩ := hans
    all_goals
      refine ⟨t, _, hexec, hout, ?_⟩
      rw [hstate]
    · exact htaken hok
    · exact hrefused hno

/-- The rows of an accepted start (43 R210). -/
theorem acceptStart_row (s : State) :
    ∃ evs, (acceptStart s).out = s.out ++ evs ∧ StartRow s (acceptStart s).loopState evs := by
  obtain ⟨hacquire, h⟩ | ⟨hacquire, hopen, h⟩ | ⟨hacquire, hopen, h⟩ := acceptStart_cases s <;> rw [h]
  · exact ⟨_, by simp [failStart], .noSink (not_answersOk hacquire)⟩
  · refine ⟨_, ?_, .noTransport hacquire (not_answersOk hopen)⟩
    simp only [failStart, State.emit, List.append_assoc]
    rfl
  · exact ⟨_, by simp [startRun], .runs hacquire hopen⟩

/-- Settles O35: an iteration is cancelled, has a frame or has none, and a start is accepted. -/
theorem transitionsAreTheTables : Obligations.TransitionsAreTheTables := by
  refine ⟨fun s hinv hs htime => ?_, fun s hs hc => ?_⟩
  · cases hc : s.env.cancel with
    | true => exact ⟨_, _, exec_loopIter_of_cancel hs hc, by simp [stoppedBy], .cancelled hc⟩
    | false =>
      have ht : s.tLast ≤ s.env.clock := htime.resolve_left (by simp [hc])
      obtain ⟨f, hf⟩ | hr := frame_or_noFrame (callDecode s).1
      · exact exec_loopIter_frame_row hs hc ht hf
      · exact exec_loopIter_noFrame_row hinv hs hc ht hr
  · obtain ⟨evs, hout, hrow⟩ := acceptStart_row s
    exact ⟨_, evs, exec_loopStart_of_wellFormed ((State.canStart_iff s).mpr hs) hc, hout, hrow⟩

end Sys2Proof.Machine
end

section
/-! PROOFS. O41: an iteration without a frame. -/

namespace Sys2Proof.Machine
open Stated

/-- What an iteration without a frame can show (43 R220). -/
def ShownInSilence (e : Event) : Prop :=
  e = neutral ∨ e = .transportClose ∨ e = .sinkRelease ∨ e = .report .outputSinkFailure ∨ ∃ code, e = .diag code

@[simp] theorem shownInSilence_diag (code : Code) : ShownInSilence (.diag code) := .inr (.inr (.inr (.inr ⟨code, rfl⟩)))

@[simp] theorem shownInSilence_neutral : ShownInSilence neutral := .inl rfl

theorem shownInSilence_of_mem_failureTail : ∀ e ∈ failureTail, ShownInSilence e := by
  simp [failureTail, ShownInSilence]

theorem DropEvents.shownInSilence {evs : List Event} (h : DropEvents evs) : ∀ e ∈ evs, ShownInSilence e := by
  obtain rfl | ⟨code, -, rfl⟩ := h <;> simp

theorem IdleShows.shownInSilence {s : State} {ti : Nat} {idle : List Event} (h : IdleShows s ti idle) :
    ∀ e ∈ idle, ShownInSilence e := by
  obtain ⟨-, -, rfl⟩ | ⟨-, ⟨-, rfl, -⟩ | ⟨-, rfl⟩⟩ := h <;> simp

/-- Settles O41: whichever case the idle branch takes, its events are a drop's, the idle diagnostic, the neutral snapshot and
the stop sequence. -/
theorem silentIterationsLeaveTheFiltersAlone : Obligations.SilentIterationsLeaveTheFiltersAlone := by
  intro s r hs hc ht hgives hr
  rw [callGives_iff hs] at hgives
  subst hgives
  obtain ⟨t, drop, hexec, hkept, hdrop, hcases⟩ := exec_loopIter_of_noFrame hs hc ht hr
  obtain ⟨evs, hout, hevs⟩ : ∃ evs, t.out = s.out ++ evs ∧ ∀ e ∈ evs, ShownInSilence e := by
    obtain ⟨-, -, -, hout⟩ | ⟨-, idle, hidle, ⟨-, -, hout⟩ | ⟨-, -, hout⟩⟩ := hcases
    all_goals refine ⟨_, hout, ?_⟩
    · exact hdrop.shownInSilence
    all_goals simp only [List.forall_mem_append, List.forall_mem_singleton]
    · exact ⟨⟨hdrop.shownInSilence, hidle.shownInSilence⟩, shownInSilence_neutral⟩
    · exact ⟨⟨⟨hdrop.shownInSilence, hidle.shownInSilence⟩, shownInSilence_neutral⟩,
        shownInSilence_of_mem_failureTail⟩
  exact ⟨t, evs, hexec, hout, hkept.sw, hkept.fifo, hkept.lastEmitted, hkept.firstSeen, hkept.lastFrame, hkept.tLastFrame,
    hkept.tObs, hevs⟩

end Sys2Proof.Machine
end

section
/-! PROOFS. O59: what is rate-limited is spaced (43 R223, R224). -/

namespace Sys2Proof.Machine
open Stated

/-- Events of which none is rate-limited: no observer snapshot, no idle diagnostic. -/
def NoneRateLimited (evs : List Event) : Prop := ∀ e ∈ evs, isSnapshot e = false ∧ e ≠ .diag .idleTimeout

@[simp] theorem noneRateLimited_nil : NoneRateLimited [] := by simp [NoneRateLimited]

@[simp] theorem noneRateLimited_cons (e : Event) (evs : List Event) :
    NoneRateLimited (e :: evs) ↔ (isSnapshot e = false ∧ e ≠ .diag .idleTimeout) ∧ NoneRateLimited evs :=
  List.forall_mem_cons

@[simp] theorem noneRateLimited_append (evs evs' : List Event) :
    NoneRateLimited (evs ++ evs') ↔ NoneRateLimited evs ∧ NoneRateLimited evs' :=
  List.forall_mem_append

theorem NoneRateLimited.countP_eq_zero {evs : List Event} (h : NoneRateLimited evs) : evs.countP isSnapshot = 0 :=
  List.countP_eq_zero.mpr fun e he => Bool.eq_false_iff.mp (h e he).1

theorem NoneRateLimited.count_eq_zero {evs : List Event} (h : NoneRateLimited evs) : evs.count (.diag .idleTimeout) = 0 :=
  List.count_eq_zero.mpr fun he => (h _ he).2 rfl

theorem noneRateLimited_neutral : NoneRateLimited [neutral] := by simp [neutral, isSnapshot]

theorem noneRateLimited_failureTail : NoneRateLimited failureTail := by simp [failureTail, neutral, isSnapshot]

theorem DropEvents.noneRateLimited {evs : List Event} (h : DropEvents evs) : NoneRateLimited evs := by
  obtain rfl | ⟨code, hcode, rfl⟩ := h
  · simp
  · have hne : code ≠ .idleTimeout := by
      rintro rfl
      simp [IsDropCode] at hcode
    simp [isSnapshot, hne]

theorem TapEvents.noneRateLimited {evs : List Event} (h : TapEvents evs) : NoneRateLimited evs := by
  obtain rfl | ⟨name, rfl | rfl⟩ := h <;> simp [isSnapshot]

/-- What an iteration that is not cancelled shows: rate-limited events are the observer's and the idle branch's. -/
theorem exec_loopIter_rateLimited {s : State} (hs : s.inRun = true) (hc : s.env.cancel = false)
    (ht : s.tLast ≤ s.env.clock) :
    ∃ t before obs idle after, exec .loopIter s = .next t ∧ t.out = s.out ++ (before ++ obs ++ idle ++ after) ∧
      NoneRateLimited before ∧ NoneRateLimited after ∧ ObserverShows s t.tObs obs ∧
      (IdleShows s t.tIdleDiag idle ∨ t.tIdleDiag = s.tIdleDiag ∧ idle = []) := by
  obtain ⟨f, hf⟩ | hr := frame_or_noFrame (callDecode s).1
  · obtain ⟨t, axis, btn, hexec, hidle, ⟨-, -, g0, g1, obs, h0, h1, hobs, hout⟩ | ⟨-, -, hobs, hout⟩⟩ :=
      exec_loopIter_of_frame hs hc ht hf
    · exact ⟨t, .sinkUpdate axis btn :: (g0 ++ g1), obs, [], [], hexec, by simp [hout],
        by simp [isSnapshot, h0.noneRateLimited, h1.noneRateLimited], noneRateLimited_nil, hobs, .inr ⟨hidle, rfl⟩⟩
    · exact ⟨t, .sinkUpdate axis btn :: failureTail, [], [], [], hexec, by simp [hout],
        by simp [isSnapshot, noneRateLimited_failureTail], noneRateLimited_nil, .inl ⟨rfl, hobs⟩, .inr ⟨hidle, rfl⟩⟩
  · obtain ⟨t, drop, hexec, hkept, hdrop, hcases⟩ := exec_loopIter_of_noFrame hs hc ht hr
    have hobs : ObserverShows s t.tObs [] := .inl ⟨rfl, hkept.tObs⟩
    obtain ⟨-, -, hidle, hout⟩ | ⟨-, idle, hidle, ⟨-, -, hout⟩ | ⟨-, -, hout⟩⟩ := hcases
    · exact ⟨t, drop, [], [], [], hexec, by simp [hout], hdrop.noneRateLimited, noneRateLimited_nil, hobs,
        .inr ⟨hidle, rfl⟩⟩
    · exact ⟨t, drop, [], idle, [neutral], hexec, by simp [hout], hdrop.noneRateLimited, noneRateLimited_neutral, hobs,
        .inl hidle⟩
    · exact ⟨t, drop, [], idle, [neutral] ++ failureTail, hexec, by simp [hout], hdrop.noneRateLimited,
        (noneRateLimited_append _ _).mpr ⟨noneRateLimited_neutral, noneRateLimited_failureTail⟩, hobs, .inl hidle⟩

/-- The observer's snapshots are spaced by its interval. -/
theorem ObserverShows.spaced {s : State} {tObs : Nat} {obs : List Event} (h : ObserverShows s tObs obs)
    (hle : s.tObs ≤ s.env.clock) :
    obs.count (.diag .idleTimeout) = 0 ∧ obs.countP isSnapshot ≤ 1 ∧
      (1 ≤ obs.countP isSnapshot → s.tObs + s.cfg.obsInterval ≤ s.env.clock ∧ tObs = s.env.clock) ∧
      (obs.countP isSnapshot = 0 → tObs = s.tObs) := by
  obtain ⟨rfl, htime⟩ | ⟨⟨_, _, _, _, rfl⟩, htime, hdue⟩ := h
  · simp [htime]
  · have hsum : s.tObs + s.cfg.obsInterval ≤ s.env.clock := by omega
    simp [isSnapshot, htime, hsum]

/-- The idle diagnostics of one idle state are spaced by their interval. -/
theorem idleDiagnostic_spaced {s : State} {tIdleDiag : Nat} {idle : List Event}
    (h : IdleShows s tIdleDiag idle ∨ tIdleDiag = s.tIdleDiag ∧ idle = []) (hle : s.tIdleDiag ≤ s.env.clock) :
    idle.countP isSnapshot = 0 ∧ idle.count (.diag .idleTimeout) ≤ 1 ∧
      (.diag .idleTimeout ∈ idle →
        (s.loopState = .running ∨ s.tIdleDiag + s.cfg.idleDiagInterval ≤ s.env.clock) ∧ tIdleDiag = s.env.clock) ∧
      (.diag .idleTimeout ∉ idle → tIdleDiag = s.tIdleDiag) := by
  obtain (⟨hrun, htime, rfl⟩ | ⟨-, ⟨htime, rfl, hdue⟩ | ⟨htime, rfl⟩⟩) | ⟨htime, rfl⟩ := h
  · simp [isSnapshot, htime, hrun]
  · have hsum : s.tIdleDiag + s.cfg.idleDiagInterval ≤ s.env.clock := by omega
    simp [isSnapshot, htime, hsum]
  · simp [htime]
  · simp [htime]

/-- Settles O59: the counts of an iteration's events are those of what its observer and its idle branch show; a cancelled one
shows neither. -/
theorem snapshotsAndIdleDiagnosticsAreSpaced : Obligations.SnapshotsAndIdleDiagnosticsAreSpaced := by
  intro s t hobs hidle hexec
  obtain ⟨hs, ⟨hc, -⟩ | ⟨hc, ht, -⟩⟩ := exec_loopIter_cases hexec
  · rw [exec_loopIter_of_cancel hs hc] at hexec
    cases hexec
    exact ⟨[neutral, .transportClose, .sinkRelease], by simp [stoppedBy], by simp [neutral, isSnapshot, stoppedBy]⟩
  · obtain ⟨t', before, obs, idle, after, hexec', hout, hbefore, hafter, hshown, hidleShown⟩ :=
      exec_loopIter_rateLimited hs hc ht
    rw [hexec'] at hexec
    cases hexec
    obtain ⟨hobsIdle, hone, hpublished, hunpublished⟩ := hshown.spaced (hobs.trans ht)
    obtain ⟨hidleObs, honeIdle, hspaced⟩ := idleDiagnostic_spaced hidleShown (hidle.trans ht)
    have hsnapshots : (before ++ obs ++ idle ++ after).countP isSnapshot = obs.countP isSnapshot := by
      simp [hbefore.countP_eq_zero, hafter.countP_eq_zero, hidleObs]
    have hidles : (before ++ obs ++ idle ++ after).count (.diag .idleTimeout) = idle.count (.diag .idleTimeout) := by
      simp [hbefore.count_eq_zero, hafter.count_eq_zero, hobsIdle]
    refine ⟨_, hout, ?_⟩
    rw [← List.count_pos_iff, hsnapshots, hidles, List.count_pos_iff]
    exact ⟨hone, honeIdle, hpublished, hunpublished, hspaced⟩

end Sys2Proof.Machine
end

section
/-! SUPPORT. What the worker's steps report: nothing, or one run-ending code as the last event of a step that ends in `Stopped`
with that code saved (60 R268, 20_memory R69). -/

namespace Sys2Proof.Machine
open Stated

/-- The codes a diagnostic can carry (60 R268). -/
def IsDiagCode (code : Code) : Prop := code ∈ dropCodes ∨ code = .keyInjectionFailure ∨ code = .idleTimeout

/-- The codes a report can carry (60 R268). -/
def IsRunEndingCode (code : Code) : Prop := code = .transportOpenFailure ∨ code = .outputSinkFailure

/-- Events of which none is a report, and whose diagnostics carry only their codes. -/
def NoneReported (evs : List Event) : Prop :=
  ∀ e ∈ evs, isReport e = false ∧ ∀ code, e = .diag code → IsDiagCode code

@[simp] theorem noneReported_nil : NoneReported [] := List.forall_mem_nil _

@[simp] theorem noneReported_cons (e : Event) (evs : List Event) :
    NoneReported (e :: evs) ↔ (isReport e = false ∧ ∀ code, e = .diag code → IsDiagCode code) ∧ NoneReported evs :=
  List.forall_mem_cons

@[simp] theorem noneReported_append (evs evs' : List Event) :
    NoneReported (evs ++ evs') ↔ NoneReported evs ∧ NoneReported evs' :=
  List.forall_mem_append

theorem noneReported_diag {code : Code} (h : IsDiagCode code) : NoneReported [.diag code] := by
  simp [isReport, h]

theorem DropEvents.noneReported {evs : List Event} (h : DropEvents evs) : NoneReported evs := by
  obtain rfl | ⟨code, hcode, rfl⟩ := h.dropDiag
  · exact noneReported_nil
  · exact noneReported_diag (.inl hcode)

theorem TapEvents.noneReported {evs : List Event} (h : TapEvents evs) : NoneReported evs := by
  obtain rfl | ⟨name, rfl | rfl⟩ := h <;> simp [isReport, IsDiagCode]

/-- From `s` to `t` nothing is reported, or one run-ending code at the end. -/
def ReportsAtMostItsEnd (s t : State) : Prop :=
  ∃ evs, NoneReported evs ∧
    (t.out = s.out ++ evs ∨
      ∃ code, IsRunEndingCode code ∧ t.loopState = .stopped ∧ t.errCode = code ∧ t.out = s.out ++ (evs ++ [.report code]))

theorem ReportsAtMostItsEnd.of_out {s t : State} {evs : List Event} (hevs : NoneReported evs) (hout : t.out = s.out ++ evs) :
    ReportsAtMostItsEnd s t :=
  ⟨evs, hevs, .inl hout⟩

/-- Events without a report may come before. -/
theorem ReportsAtMostItsEnd.prepend {s t u : State} {before : List Event} (h : ReportsAtMostItsEnd u t)
    (hbefore : NoneReported before) (hout : u.out = s.out ++ before) : ReportsAtMostItsEnd s t := by
  obtain ⟨evs, hevs, hcases⟩ := h
  refine ⟨before ++ evs, (noneReported_append _ _).mpr ⟨hbefore, hevs⟩, ?_⟩
  simpa [hout] using hcases

/-- The stop sequence with a failed sink reports that failure last (43 R225). -/
theorem ReportsAtMostItsEnd.of_failureEvents {s t : State} {before : List Event} (hbefore : NoneReported before)
    (hstate : t.loopState = .stopped) (herr : t.errCode = .outputSinkFailure)
    (hout : t.out = s.out ++ (before ++ failureEvents)) : ReportsAtMostItsEnd s t :=
  ⟨before ++ [neutralEvent, .transportClose, .sinkRelease], by simp [hbefore, neutralEvent, isReport],
    .inr ⟨_, .inr rfl, hstate, herr, by simp [hout, failureEvents]⟩⟩

/-- The stop sequence of a cancelled run reports nothing (43 R213, R225). -/
theorem stopRun_none_reportsAtMostItsEnd (s : State) : ReportsAtMostItsEnd s (stopRun .none s) := by
  rw [stopRun_eq]
  exact .of_out (evs := [neutralEvent, .transportClose, .sinkRelease]) (by simp [neutralEvent, isReport]) rfl

theorem processFrame_reportsAtMostItsEnd (f : Frame) (now : Nat) (s : State) :
    ReportsAtMostItsEnd s (processFrame f now s) := by
  obtain ⟨_, _, st, -, -, hans⟩ := processFrame_whole f now s
  have hpush : NoneReported [.sinkUpdate (frameAxes f s) st] := by simp [isReport]
  obtain ⟨-, g0, g1, obs, _, _, h0, h1, hobs, h⟩ | ⟨-, h⟩ := hans <;> rw [h]
  · have hshown : NoneReported obs := by
      obtain ⟨rfl, -⟩ | ⟨⟨_, _, _, _, rfl⟩, -⟩ := hobs <;> simp [isReport]
    exact .of_out (evs := [.sinkUpdate (frameAxes f s) st] ++ (g0 ++ g1 ++ obs))
      (by simp only [noneReported_append, hpush, h0.noneReported, h1.noneReported, hshown, and_self]) rfl
  · exact .of_failureEvents hpush rfl rfl rfl

theorem idleBranch_reportsAtMostItsEnd (now : Nat) (s : State) : ReportsAtMostItsEnd s (idleBranch now s) := by
  obtain ⟨-, h⟩ | ⟨-, _, _, idle, hidle, hans⟩ := idleBranch_cases now s
  · rw [h]
    exact .of_out noneReported_nil (List.append_nil _).symm
  · have hbefore : NoneReported (idle ++ [neutralEvent]) := by
      obtain ⟨-, -, -, rfl⟩ | ⟨-, -, ⟨-, rfl, -⟩ | ⟨-, rfl⟩⟩ := hidle <;> simp [isReport, IsDiagCode, neutralEvent]
    obtain ⟨-, h⟩ | ⟨-, h⟩ := hans <;> rw [h]
    · exact .of_out hbefore (List.append_assoc _ _ _)
    · exact .of_failureEvents hbefore rfl rfl (by simp)

theorem afterDecode_reportsAtMostItsEnd (r : CallResult) (now : Nat) (s : State) :
    ReportsAtMostItsEnd s (afterDecode r now s) := by
  obtain ⟨f, -, h⟩ | ⟨-, h⟩ := afterDecode_cases r now s <;> rw [h]
  · exact processFrame_reportsAtMostItsEnd f now s
  · exact idleBranch_reportsAtMostItsEnd now s

/-- An iteration is cancelled, or its decode call shows drops before the rest. -/
theorem exec_loopIter_reportsAtMostItsEnd {s t : State} (h : exec .loopIter s = .next t) : ReportsAtMostItsEnd s t := by
  obtain ⟨-, ⟨-, rfl⟩ | ⟨-, -, d, c, drop, q, r, -, -, hdrop, -, -, rfl⟩⟩ := exec_loopIter_cases h
  · exact stopRun_none_reportsAtMostItsEnd s
  · exact (afterDecode_reportsAtMostItsEnd r s.env.clock _).prepend hdrop.noneReported rfl

/-- A failed start reports its cause last (43 R210). -/
theorem acceptStart_reportsAtMostItsEnd (s : State) : ReportsAtMostItsEnd s (acceptStart s) := by
  obtain ⟨-, h⟩ | ⟨-, -, h⟩ | ⟨-, -, h⟩ := acceptStart_cases s <;> rw [h]
  · exact ⟨[.sinkAcquire s.env.hostCfg.outDeviceId], by simp [isReport],
      .inr ⟨_, .inr rfl, rfl, rfl, List.append_assoc _ _ _⟩⟩
  · exact ⟨[.sinkAcquire s.env.hostCfg.outDeviceId,
        .transportOpen s.env.hostCfg.portName s.env.hostCfg.baudRate s.env.hostCfg.readTimeout, neutralEvent, .sinkRelease],
      by simp [isReport, neutralEvent], .inr ⟨_, .inl rfl, rfl, rfl, by simp [failStart, State.emit, neutralEvent]⟩⟩
  · exact .of_out (evs := [.sinkAcquire s.env.hostCfg.outDeviceId,
        .transportOpen s.env.hostCfg.portName s.env.hostCfg.baudRate s.env.hostCfg.readTimeout])
      (by simp [isReport]) (List.append_assoc _ _ _)

end Sys2Proof.Machine
end

section
/-! PROOFS. O56, O57: what the worker's steps report, and how a run begins (60 R268, R271). -/

namespace Sys2Proof.Machine
open Stated

theorem NoneReported.codes {evs : List Event} (h : NoneReported evs) :
    (∀ code, .report code ∉ evs) ∧ (∀ code, .diag code ∈ evs → IsDiagCode code) ∧ evs.countP isReport = 0 :=
  ⟨fun _ hmem => Bool.eq_false_iff.mp (h _ hmem).1 rfl, fun code hmem => (h _ hmem).2 code rfl,
    List.countP_eq_zero.mpr fun e he => Bool.eq_false_iff.mp (h e he).1⟩

/-- Settles O56: both of the worker's steps report nothing, or one run-ending code at their end. -/
theorem reportsAndDiagnosticsCarryOnlyTheirCodes : Obligations.ReportsAndDiagnosticsCarryOnlyTheirCodes := by
  intro s t i hi hexec
  have hstep : ReportsAtMostItsEnd s t := by
    obtain rfl | rfl := hi
    · obtain ⟨-, -, rfl⟩ := exec_loopStart_next hexec
      exact acceptStart_reportsAtMostItsEnd s
    · exact exec_loopIter_reportsAtMostItsEnd hexec
  obtain ⟨evs, hevs, hout | ⟨code, hcode, hstate, herr, hout⟩⟩ := hstep
  all_goals
    obtain ⟨hreports, hdiags, hcount⟩ := hevs.codes
    refine ⟨_, hout, ?_⟩
  · exact ⟨fun code hmem => absurd hmem (hreports code), hdiags, by omega⟩
  · refine ⟨fun code' hmem => ?_, fun code' hmem => hdiags code' (by simpa using hmem), by simp [hcount, isReport]⟩
    obtain rfl : code' = code := by simpa [hreports] using hmem
    exact ⟨hcode, hstate, herr⟩

/-- An accepted start ends in `Running` or in `Stopped` (43 R210, R226). -/
theorem acceptStart_loopState (s : State) :
    (acceptStart s).loopState = .running ∨ (acceptStart s).loopState = .stopped := by
  obtain ⟨-, h⟩ | ⟨-, -, h⟩ | ⟨-, -, h⟩ := acceptStart_cases s <;> rw [h]
  · exact .inr rfl
  · exact .inr rfl
  · exact .inl rfl

/-- Settles O57: outside a run every instruction but LOOP_START is refused, and what is no instruction leaves the registers
as they are. -/
theorem onlyLoopStartLeavesIdleAndStopped : Obligations.OnlyLoopStartLeavesIdleAndStopped := by
  intro s t hs h
  obtain ⟨e, rfl⟩ | ⟨rest, hin, he⟩ | ⟨i, e, hi, he⟩ := step_cases_loopStart h
  · exact .inl rfl
  · obtain ⟨-, -, rfl⟩ := exec_loopStart_next he
    exact .inr ⟨rest, hin, acceptStart_loopState (s.withInputs rest)⟩
  · have hout : s.inRun = false := inRun_eq_false_of_canStart ((State.canStart_iff s).mpr hs)
    have hrun : { s with env := e }.inRun = true := inRun_of_exec_next hi he
    exact absurd hrun (Bool.eq_false_iff.mp hout)

end Sys2Proof.Machine
end

section
/-! PROOFS. O48: the block while nothing is asked of the worker (70 R310, R314). -/

namespace Sys2Proof.Machine

/-- The worker waits on an empty script (70 R310). -/
theorem step_wait {s : State} (h : s.env.inputs = []) : step s = .next s := by
  simp [step, fetch, h]

/-- A line of the environment leaves the receive queue in front of what it brings; the transport's discard, while the block
does not hold it, is the only one that takes bytes away (70 R314). -/
theorem applyInput_rxq (held : Bool) (i : Input) (e : Env) :
    e.rxq <+: (applyInput held i e).rxq ∨
      ∃ count, i = .discard count ∧ held = false ∧ (applyInput held i e).rxq = e.rxq.drop count := by
  cases i with
  | rx bytes => exact .inl (List.prefix_append e.rxq bytes)
  | discard count =>
    cases held with
    | true => exact .inl List.prefix_rfl
    | false => exact .inr ⟨count, rfl, rfl, rfl⟩
  | op | unit | time | cancel | config | answers => exact .inl List.prefix_rfl

/-- Settles O48: the script is empty, or its next line is one of the environment's. -/
theorem unaskedBlockDoesNothing : Obligations.UnaskedBlockDoesNothing := by
  refine ⟨step_wait rfl, fun s t hop hunit h => ?_⟩
  cases hin : s.env.inputs with
  | nil =>
    obtain rfl : s = t := Host.Outcome.next.inj ((step_wait hin).symm.trans h)
    exact ⟨rfl, .inl List.prefix_rfl⟩
  | cons i rest =>
    rw [hin, List.head?_cons] at hunit
    have hline : ∀ ws, i ≠ .op ws := fun ws hi => hop ws (by rw [hin, hi, List.head?_cons])
    have hstep := step_environment hin hline fun hi => hunit (congrArg some hi)
    obtain rfl := Host.Outcome.next.inj (hstep.symm.trans h)
    refine ⟨rfl, ?_⟩
    obtain hkept | ⟨count, rfl, hheld, hdrop⟩ := applyInput_rxq s.transportHeld i s.env
    · exact .inl hkept
    · exact .inr ⟨count, rest, rfl, hheld, hdrop⟩

end Sys2Proof.Machine
end
